-- ==== Sys2Proof/Word.lean ====
section
/-! DEFINITION. The bytes and words of the decoder block and the enumerations its rules speak of: units,
spaces, run states and cause codes, dialects, command classes, cells, the operand shapes of stream tokens,
and the accesses a host can make. -/

namespace Sys2Proof

/-- A byte, 8 bits (R10). -/
abbrev Byte := BitVec 8

/-- A register of the host window, 32 bits (R25). -/
abbrev Word := BitVec 32

/-- The three independent units (R1), one register bank each (R25). -/
inductive UnitId where
  | lzu | dsu | peu
deriving DecidableEq, Repr

/-- The address spaces of R57 besides the register window. -/
inductive Space where
  | inLzu | inDsu | inPeu | out | smp | cell
deriving DecidableEq, Repr

/-- Who can make the next step: the host or one of the units (R217, R238). -/
inductive Agent where
  | host | lzu | dsu | peu
deriving DecidableEq, Repr

/-- STATUS.STATE (R27). -/
inductive RunState where
  | idle | busy | done | fail
deriving DecidableEq, Repr

/-- STATUS.CAUSE (R201). Codes 7..15 are never written, so they have no constructor. -/
inductive Cause where
  | none | zeroLength | streamExhausted | badOffset | lengthOverrun | lengthOverflow | configInvalid
deriving DecidableEq, Repr

/-- The dialects of R161. -/
inductive Dialect where
  | it | s3m | xm | mod
deriving DecidableEq, Repr

/-- The command classes of R83. A tag names a fixed target command of CMD_TABLE (R37); how targets are
numbered is part of the open table. -/
inductive CmdClass where
  | unmapped
  | note | instr | toneporta | vibrato | panning | volume | patternbreak | tempospeed | volslide
  | fixedEff (tag : Nat)
  | fixedVol (tag : Nat)
deriving DecidableEq, Repr, Inhabited

/-- NoteV of R37. -/
inductive NoteV where
  | none
  | note (n : Int)
  | off | cut | fade
deriving DecidableEq, Repr, Inhabited

/-- VolCmd of R37. -/
inductive VolCmd where
  | volume | panning | toneporta | vibDepth
  | other (tag : Nat)
deriving DecidableEq, Repr

/-- EffCmd of R37. -/
inductive EffCmd where
  | toneporta | vibrato | panning8 | volume | patternbreak | speed | tempo
  | volslide | tonePortaVol | vibratoVol
  | other (tag : Nat)
deriving DecidableEq, Repr

/-- One pattern cell, the record of R37. -/
structure Cell where
  note : NoteV
  instr : Option Byte
  vol : Option (VolCmd × Byte)
  eff : Option (EffCmd × Byte)
deriving DecidableEq, Repr, Inhabited

/-- The Empty cell of R37. -/
def emptyCell : Cell := { note := .none, instr := none, vol := none, eff := none }

/-- The length field of a match (R74): two length bits that are not 00, or 00 and an extension gamma code. -/
inductive LengthCode where
  | short (l : BitVec 2)
  | extended (g2 : Nat)
deriving DecidableEq, Repr

/-- A sample code as it stands in the stream (R79): the value bits of its pairs (formats DS8, DS16G) or of its
triples (DS16N), then the raw bits; `raw.length` is the DH in force. -/
inductive SampleCode where
  | general (vals : List Bool) (raw : List Bool)
  | narrow (vals : List (Bool × Bool)) (raw : List Bool)
deriving DecidableEq, Repr

/-- One symbol of an input stream (R70, R74): a control bit, or a whole data byte. -/
inductive Sym where
  | bit (b : Bool)
  | byte (b : Byte)
deriving DecidableEq, Repr

/-- One access of the host (R53, R57, R224), or the reset of the block (R230). A register access carries the
number of bytes it moves, because only whole aligned 32-bit words are defined (R53). -/
inductive HostOp where
  | readReg (offset bytes : Nat)
  | writeReg (offset bytes : Nat) (value : Word)
  | readIn (u : UnitId) (index : Nat)
  | writeIn (u : UnitId) (index : Nat) (b : Byte)
  | readOut (index : Nat)
  | writeOut (index : Nat) (b : Byte)
  | readSmp (index : Nat)
  | writeSmp (index : Nat) (b : Byte)
  | readCell (row : Nat)
  | writeCell (row : Nat) (c : Cell)
  | reset
deriving DecidableEq, Repr

/-- What a host read returned. -/
inductive Reply where
  | word (v : Word)
  | byte (b : Byte)
  | cell (c : Cell)
deriving DecidableEq, Repr

end Sys2Proof
end

