-- ==== Sys2Proof/Machine/Flags.lean ====
section
/-! DEFINITION. The one flag, CARRY of a CBD (R24): how a shift of DATA computes it (R100). -/

namespace Sys2Proof.Machine

/-- The 9-bit value `DATA << 1` of R100, split into CARRY = t[8] and DATA = t[7:0]. -/
def shiftOut (data : Byte) : Bool × Byte :=
  (data.getLsbD 7, data <<< 1)

/-- The refill of R100: the fetched byte shifted left with the sentinel 1 in bit 0, split as `shiftOut`. -/
def refill (b : Byte) : Bool × Byte :=
  (b.getLsbD 7, (b <<< 1) ||| 1)

end Sys2Proof.Machine
end

