-- ==== Sys2Proof/Config.lean ====
section
/-! DEFINITION. What an implementation fixes and what the spec leaves free. Every constant here is opaque and has
no body: no proof can learn its value, so a theorem holds for all of them (R8's OPEN parameters; 93 section 2). -/

namespace Sys2Proof

/-! ## Capacities (R8, D5): naturals below 2^32, the same for every unit -/

/-- IN_CAP (R38). -/
opaque Config.inCap : Fin (2 ^ 32)
/-- OUT_CAP (R39). -/
opaque Config.outCap : Fin (2 ^ 32)
/-- SMP_CAP, in samples (R40). -/
opaque Config.smpCap : Fin (2 ^ 32)
/-- CELL_CAP (R41). -/
opaque Config.cellCap : Fin (2 ^ 32)

/-! ## Open parameters of the units -/

/-- DELTA_CHANNEL_RESET (R132, D17). -/
opaque Config.deltaChannelReset : Bool

/-- Which seven codes carry the classes INSTR, TONEPORTA, VIBRATO, PANNING, VOLUME, PATTERNBREAK and TEMPOSPEED:
draw number i takes this place (modulo what is left) of the codes still free. See `cmdTable` (R83, D22). -/
opaque Config.classPick : Nat → Nat

/-- CMD_TABLE at every code that neither the source (0x01, 0x22) nor a draw of `classPick` fixes (R83, D22). -/
opaque Config.cmdRest : Byte → CmdClass

/-- NOTE_ORIGIN (R167, D23). -/
opaque Config.noteOrigin : Dialect → Int

/-- Which ten operand values IT_VOLTP_SET holds, as draws without replacement (R169, D24). -/
opaque Config.itVolTpPick : Nat → Nat

/-- PAN_VOL_RANGE (R171, D25): is the operand in the dialect's range. -/
opaque Config.panVolRange : Dialect → Byte → Bool

/-- CELL_ENCODING (R37, D30): the bytes of a cell on the platform. The rules of the units work on the record. -/
opaque Config.cellEncoding : Cell → List Byte

/-! ## Free values of the model -/

/-- The byte an unwritten place of a space holds, in the time since reset number `epoch` (R231, 93 S2, S3). -/
opaque Config.unwrittenByte : (space : Space) → (epoch : Nat) → (index : Nat) → Byte

/-- The cell an unwritten row of CELL holds, in the time since reset number `epoch` (R231, 93 S2, S3). -/
opaque Config.unwrittenCell : (epoch : Nat) → (row : Nat) → Cell

/-- Which of the values R60 allows the n-th unsynchronised host read of an output returns (93 S4). -/
opaque Config.stalePick : Nat → Nat

/-- The n-th round of turns the agents take (D2, 93 S12). -/
opaque Config.turnRound : Nat → List Agent

end Sys2Proof
end

