-- ==== Sys2Proof/Machine/Operands.lean ====
section
/-! DEFINITION. Operand assembly: the tables and sets a command looks up, the offset, bonus and length of a match,
the raw code, extra length and delta of a sample, and the integer operations of R11. -/

namespace Sys2Proof.Machine

/-! ## Integers (R11) -/

/-- `wrapN(x)`: the signed N-bit integer congruent to x (R11). -/
def wrapS (n : Nat) (x : Int) : Int := x.bmod (2 ^ n)

/-- `clamp(x, lo, hi)` (R11). -/
def clampInt (x lo hi : Int) : Int := min (max x lo) hi

/-- A bit as the number it adds in `2*v + bit`. -/
def bitNat (b : Bool) : Nat := if b then 1 else 0

/-! ## Open tables (R8, R83) -/

/-- All 256 byte values, in rising order. -/
def allBytes : List Byte := (List.range 256).map (BitVec.ofNat 8)

/-- `n` draws without replacement from `pool`; draw i takes place `pick i` modulo what is left. -/
def drawDistinct (pick : Nat → Nat) : Nat → List Byte → List Byte
  | 0, _ => []
  | n + 1, pool =>
    match pool[pick n % pool.length]? with
    | some x => x :: drawDistinct pick n (pool.erase x)
    | none => []

/-- The seven classes R83 asks at least one code for, in its order. -/
def namedClasses : List CmdClass :=
  [.instr, .toneporta, .vibrato, .panning, .volume, .patternbreak, .tempospeed]

/-- One code for each of `namedClasses`, none of them 0x01 or 0x22 (R83). -/
def classCodes : List Byte :=
  drawDistinct Config.classPick 7 ((allBytes.erase 0x01).erase 0x22)

/-- CMD_TABLE (R83, D22): 0x01 is NOTE, 0x22 is VOLSLIDE, each of `namedClasses` has a code, the rest is open. -/
def cmdTable (code : Byte) : CmdClass :=
  if code = 0x01 then .note
  else if code = 0x22 then .volslide
  else ((classCodes.zip namedClasses).lookup code).getD (Config.cmdRest code)

/-- IT_VOLTP_SET (R169, D24): exactly ten operand values. -/
def itVolTpSet : List Byte := drawDistinct Config.itVolTpPick 10 allBytes

/-- OLDEST_DIALECT (R161, D26). -/
def oldestDialect : Dialect := .mod

/-- REP_SPAN (R164, D27). -/
def repSpan (rep : Nat) : Nat := rep + 1

/-- GAMMA_INIT (R102, D7). -/
def gammaInit : Nat := 1

/-- CONFIG.DIALECT (R161). -/
def dialectOf (field : BitVec 2) : Dialect :=
  if field = 0 then .it else if field = 1 then .s3m else if field = 2 then .xm else .mod

/-! ## Matches (R75, R115, R117) -/

/-- OFF of a MATCH_NEW: `~((t << 8) | X)` with t = g - 3, in integers (R75, R115). -/
def matchOffset (g : Nat) (x : Byte) : Int := -(256 * ((g : Int) - 3) + x.toNat) - 1

/-- ADJ of a MATCH_NEW: the magnitude bonuses and the flat +1 (R115, D13). -/
def matchBonus (off : Int) : Nat :=
  (if off < -1280 then 1 else 0) + 1 + (if off < -32000 then 1 else 0)

/-- L of R75: LEN before ADJ is added (R117). -/
def lengthBase : LengthCode → Nat
  | .short l => l.toNat
  | .extended g2 => g2 + 2

/-! ## Samples (R79, R80, R136 to R141) -/

/-- S(W) (R8). -/
def shiftOf (w : Nat) : Nat := w - 1

/-- DHINIT(W) (R8, R130). -/
def dhInit (w16 : Bool) : Nat := if w16 then 8 else 4

/-- `V <- truncW(2*V + bit)` over the bits in order (R133, R134, R136). -/
def assembleBits (w : Nat) (v : BitVec w) : List Bool → BitVec w
  | [] => v
  | b :: bs => assembleBits w (BitVec.ofNat w (2 * v.toNat + bitNat b)) bs

/-- The value bits of a sample code, in stream order (R79). -/
def valueBits : SampleCode → List Bool
  | .general vals _ => vals
  | .narrow vals _ => vals.flatMap fun p => [p.1, p.2]

/-- The raw bits of a sample code (R79). -/
def rawBits : SampleCode → List Bool
  | .general _ raw => raw
  | .narrow _ raw => raw

/-- The raw code V of a sample (R136). -/
def rawCode (w : Nat) (c : SampleCode) : BitVec w :=
  assembleBits w (assembleBits w 0 (valueBits c)) (rawBits c)

/-- The largest i in `top` down to 1 with V[i] = 1, and 1 if there is none (R137). -/
def scanDown (v : Nat) : Nat → Nat
  | 0 => 1
  | i + 1 => if v.testBit (i + 1) then i + 1 else scanDown v i

/-- E (R137). -/
def extraLength (w : Nat) (v : BitVec w) : Nat :=
  if v.toNat < 4 then 1 else scanDown v.toNat (shiftOf w)

/-- d (R139): V without its low bit, complemented where that bit is 0. -/
def deltaOf {w : Nat} (v : BitVec w) : Int :=
  let m : Int := ((v >>> 1).toNat : Int)
  if v.getLsbD 0 then m else -(m + 1)

/-- The new DH (R138). -/
def nextWidth (dh e : Nat) : Nat := (dh + e) / 2

/-- The new NEXT (R141): evaluated in integers, the shift of d arithmetic, then clamped. -/
def nextPredictor (w : Nat) (value d prevp : Int) : Int :=
  clampInt (2 * value + (d >>> (1 : Nat)) - prevp) (-(2 ^ (w - 1) : Nat)) ((2 ^ (w - 1) : Nat) - 1)

/-! ## Command pairs (R167 to R178): what a pair makes of the working cell -/

/-- R167. -/
def noteCell (d : Dialect) (op : Byte) (c : Cell) : Cell :=
  { c with
    note :=
      if op = 0xFF then .off
      else if op = 0xFE then .cut
      else if op.toNat < 120 then .note (op.toNat + Config.noteOrigin d)
      else .fade }

/-- R168. -/
def instrCell (op : Byte) (c : Cell) : Cell := { c with instr := some op }

/-- R169. -/
def toneportaCell (d : Dialect) (op : Byte) (c : Cell) : Cell :=
  if (d = .xm ∧ op &&& 0x0F = 0) ∨ (d = .it ∧ op ∈ itVolTpSet) then
    { c with vol := some (.toneporta, op) }
  else { c with eff := some (.toneporta, op) }

/-- R170. -/
def vibratoCell (d : Dialect) (op : Byte) (c : Cell) : Cell :=
  if op.toNat < 10 ∧ d = .it then { c with vol := some (.vibDepth, op) }
  else { c with eff := some (.vibrato, op) }

/-- R171. -/
def panningCell (d : Dialect) (op : Byte) (c : Cell) : Cell :=
  if (d = .it ∧ op = 0xFF) ∨ (op.toNat % 4 = 0 ∧ Config.panVolRange d op = true) then
    { c with vol := some (.panning, op) }
  else { c with eff := some (.panning8, op) }

/-- R172. -/
def volumeCell (d : Dialect) (op : Byte) (c : Cell) : Cell :=
  if op.toNat ≤ 64 ∧ d ≠ oldestDialect then { c with vol := some (.volume, op) }
  else { c with eff := some (.volume, op) }

/-- R173: the row as read on IT, `OP[7:4]*10 + OP[3:0]` elsewhere (at most 165, so it fits a byte). -/
def breakRow (d : Dialect) (op : Byte) : Byte :=
  if d = .it then op else BitVec.ofNat 8 (op.toNat / 16 * 10 + op.toNat % 16)

/-- R173. -/
def patternbreakCell (d : Dialect) (op : Byte) (c : Cell) : Cell :=
  { c with eff := some (.patternbreak, breakRow d op) }

/-- R174. -/
def tempospeedCell (op : Byte) (c : Cell) : Cell :=
  if op.toNat < 0x20 then { c with eff := some (.speed, op) }
  else { c with eff := some (.tempo, op) }

/-- R175: the command a volume slide becomes, given the dialect and the effect the cell already holds. -/
def slideEffect (d : Dialect) (held : Option (EffCmd × Byte)) : EffCmd :=
  if d = .it ∨ d = .s3m then
    match held with
    | some (.toneporta, _) => .tonePortaVol
    | some (.vibrato, _) => .vibratoVol
    | _ => .volslide
  else .volslide

/-- R175. -/
def volslideCell (d : Dialect) (op : Byte) (c : Cell) : Cell :=
  { c with eff := some (slideEffect d c.eff, op) }

/-- R176. -/
def fixedEffCell (tag : Nat) (op : Byte) (c : Cell) : Cell := { c with eff := some (.other tag, op) }

/-- R177. -/
def fixedVolCell (tag : Nat) (op : Byte) (c : Cell) : Cell := { c with vol := some (.other tag, op) }

/-- APPLY (R166): the pair's class selects its rule. R178 leaves the cell as it was. -/
def applyClass (cls : CmdClass) (d : Dialect) (op : Byte) (c : Cell) : Cell :=
  match cls with
  | .note => noteCell d op c
  | .instr => instrCell op c
  | .toneporta => toneportaCell d op c
  | .vibrato => vibratoCell d op c
  | .panning => panningCell d op c
  | .volume => volumeCell d op c
  | .patternbreak => patternbreakCell d op c
  | .tempospeed => tempospeedCell op c
  | .volslide => volslideCell d op c
  | .fixedEff tag => fixedEffCell tag op c
  | .fixedVol tag => fixedVolCell tag op c
  | .unmapped => c

end Sys2Proof.Machine
end

