-- ==== Sys2Proof/Syntax.lean ====
section
/-! DEFINITION. The instructions: one constructor for each row of spec/opcode_table.json. An instruction is one
token of an input stream with its operands, or a host START (R7). -/

namespace Sys2Proof

inductive Instr where
  /-- SEED (R111): the first byte of an LZ stream. -/
  | seed (b : Byte)
  /-- LIT (R113): a literal byte. -/
  | lit (b : Byte)
  /-- MATCH_NEW (R115): gamma value g >= 3, offset low byte x, length field. -/
  | matchNew (g : Nat) (x : Byte) (len : LengthCode)
  /-- MATCH_REUSE (R116): gamma value 2, length field. -/
  | matchReuse (len : LengthCode)
  /-- DELTA8_PLAIN (R143). -/
  | delta8Plain (code : SampleCode)
  /-- DELTA8_PRED (R144). -/
  | delta8Pred (code : SampleCode)
  /-- DELTA16_PLAIN (R145). -/
  | delta16Plain (code : SampleCode)
  /-- DELTA16_PRED (R146). -/
  | delta16Pred (code : SampleCode)
  /-- EVT_END (R163): the control byte 0x00. -/
  | evtEnd
  /-- EVT (R164): repeat count and the (code, operand) pairs. -/
  | evt (rep : BitVec 4) (pairs : List (Byte × Byte))
  /-- CMD_NOTE (R167). Every command pair carries its code, because CMD_TABLE may map several codes to a class. -/
  | cmdNote (code op : Byte)
  /-- CMD_VOLSLIDE (R175). -/
  | cmdVolslide (code op : Byte)
  /-- CMD_INSTR (R168). -/
  | cmdInstr (code op : Byte)
  /-- CMD_TONEPORTA (R169). -/
  | cmdToneporta (code op : Byte)
  /-- CMD_VIBRATO (R170). -/
  | cmdVibrato (code op : Byte)
  /-- CMD_PANNING (R171). -/
  | cmdPanning (code op : Byte)
  /-- CMD_VOLUME (R172). -/
  | cmdVolume (code op : Byte)
  /-- CMD_PATTERNBREAK (R173). -/
  | cmdPatternbreak (code op : Byte)
  /-- CMD_TEMPOSPEED (R174). -/
  | cmdTempospeed (code op : Byte)
  /-- CMD_FIXED_EFF (R176), with the tag CMD_TABLE gives the code. -/
  | cmdFixedEff (code : Byte) (tag : Nat) (op : Byte)
  /-- CMD_FIXED_VOL (R177), with the tag CMD_TABLE gives the code. -/
  | cmdFixedVol (code : Byte) (tag : Nat) (op : Byte)
  /-- CMD_UNMAPPED (R178). -/
  | cmdUnmapped (code op : Byte)
  /-- HOST_START (R211): the host writes CTRL of a bank with bit 0 = 1. -/
  | hostStart (bank : UnitId)
deriving DecidableEq, Repr

end Sys2Proof
end

