-- ==== Sys2Proof/Decode.lean ====
section
/-! DEFINITION. The decoders of the input streams, from Fetch and ReadBit (R12, R100) up to whole tokens, the decoder
of a host access, and the encoder. A decoder is total: it answers a token and the cursor behind it, or the cause
that stops it (StreamExhausted or LengthOverflow) and the cursor at the point of detection (R206). -/

namespace Sys2Proof

open Sys2Proof.Machine

/-- An input space as the decoders see it: IN_LEN and the byte at each index. -/
structure Input where
  len : Nat
  get : Nat → Byte

/-- The input cursor `ip` (R22) with the DATA and CARRY of the unit's CBD (R20). -/
structure Cursor where
  ip : Nat
  data : Byte
  carry : Bool
deriving DecidableEq, Repr

/-- Why and where decoding stopped (R203, R205). -/
structure Stop where
  cause : Cause
  cursor : Cursor
deriving DecidableEq, Repr

/-- The cursor of a CBD start (R105). -/
def Cursor.fresh : Cursor := { ip := 0, data := 0, carry := false }

/-! ## Fetch, ReadBit and DecodeLength -/

/-- Fetch (R12, R22): a byte below IN_LEN, or StreamExhausted. -/
def fetch (inp : Input) (c : Cursor) : Except Stop (Byte × Cursor) :=
  if c.ip < inp.len then .ok (inp.get c.ip, { c with ip := c.ip + 1 })
  else .error { cause := .streamExhausted, cursor := c }

/-- ReadBit (R100). -/
def readBit (inp : Input) (c : Cursor) : Except Stop (Bool × Cursor) :=
  let t := shiftOut c.data
  let c0 : Cursor := { c with carry := t.1, data := t.2 }
  if t.2 = 0 then
    match fetch inp c0 with
    | .error e => .error e
    | .ok (b, c1) =>
      let r := refill b
      .ok (r.1, { c1 with carry := r.1, data := r.2 })
  else .ok (t.1, c0)

/-- `n` ReadBits in order (the raw bits of R136). -/
def readBits (inp : Input) : Nat → Cursor → Except Stop (List Bool × Cursor)
  | 0, c => .ok ([], c)
  | n + 1, c =>
    match readBit inp c with
    | .error e => .error e
    | .ok (b, c1) =>
      match readBits inp n c1 with
      | .error e => .error e
      | .ok (bs, c2) => .ok (b :: bs, c2)

/-- The loop of DecodeLength (R102) from the value `v`. After 32 rounds the value has reached 2^32, so a bound of 32
rounds never ends it early. -/
def gammaLoop (inp : Input) : Nat → Nat → Cursor → Except Stop (Nat × Cursor)
  | 0, _, c => .error { cause := .lengthOverflow, cursor := c }
  | rounds + 1, v, c =>
    match readBit inp c with
    | .error e => .error e
    | .ok (d, c1) =>
      let v1 := 2 * v + bitNat d
      if 2 ^ 32 ≤ v1 then .error { cause := .lengthOverflow, cursor := c1 }
      else
        match readBit inp c1 with
        | .error e => .error e
        | .ok (more, c2) => if more then gammaLoop inp rounds v1 c2 else .ok (v1, c2)

/-- DecodeLength (R102). -/
def decodeLength (inp : Input) (c : Cursor) : Except Stop (Nat × Cursor) :=
  gammaLoop inp 32 gammaInit c

/-! ## LZ tokens (R73, R74) -/

/-- SEED (R111). -/
def decodeSeed (inp : Input) (c : Cursor) : Except Stop (Instr × Cursor) :=
  match fetch inp c with
  | .error e => .error e
  | .ok (b, c1) => .ok (.seed b, c1)

/-- The length field of a match (R117): two bits, and the extension if both are 0. -/
def decodeLengthCode (inp : Input) (c : Cursor) : Except Stop (LengthCode × Cursor) :=
  match readBit inp c with
  | .error e => .error e
  | .ok (l1, c1) =>
    match readBit inp c1 with
    | .error e => .error e
    | .ok (l0, c2) =>
      if l1 || l0 then .ok (.short (BitVec.ofNat 2 (2 * bitNat l1 + bitNat l0)), c2)
      else
        match decodeLength inp c2 with
        | .error e => .error e
        | .ok (g2, c3) => .ok (.extended g2, c3)

/-- A match after its control bit (R114): the gamma value tells MATCH_REUSE (2) from MATCH_NEW (3 and up). -/
def decodeMatch (inp : Input) (c : Cursor) : Except Stop (Instr × Cursor) :=
  match decodeLength inp c with
  | .error e => .error e
  | .ok (g, c1) =>
    if g < 3 then
      match decodeLengthCode inp c1 with
      | .error e => .error e
      | .ok (len, c2) => .ok (.matchReuse len, c2)
    else
      match fetch inp c1 with
      | .error e => .error e
      | .ok (x, c2) =>
        match decodeLengthCode inp c2 with
        | .error e => .error e
        | .ok (len, c3) => .ok (.matchNew g x len, c3)

/-- One token behind the seed (R112). -/
def decodeLz (inp : Input) (c : Cursor) : Except Stop (Instr × Cursor) :=
  match readBit inp c with
  | .error e => .error e
  | .ok (true, c1) => decodeMatch inp c1
  | .ok (false, c1) =>
    match fetch inp c1 with
    | .error e => .error e
    | .ok (b, c2) => .ok (.lit b, c2)

/-! ## Sample codes (R79) -/

/-- How many rounds a loop of sample pairs can take at most: each reads at least two bits, and no more than the
stream's remaining bits and one control byte's are left (R151). -/
def codeRounds (inp : Input) (c : Cursor) : Nat := 8 * (inp.len - c.ip) + 9

/-- PREFIX_G (R133): the value bits of (value, continue) pairs up to a continue bit 0. -/
def readPairs (inp : Input) : Nat → Cursor → Except Stop (List Bool × Cursor)
  | 0, c => .error { cause := .streamExhausted, cursor := c }
  | rounds + 1, c =>
    match readBit inp c with
    | .error e => .error e
    | .ok (p, c1) =>
      match readBit inp c1 with
      | .error e => .error e
      | .ok (false, c2) => .ok ([p], c2)
      | .ok (true, c2) =>
        match readPairs inp rounds c2 with
        | .error e => .error e
        | .ok (ps, c3) => .ok (p :: ps, c3)

/-- PREFIX_N (R134): the value bits of (value, value, continue) triples up to a continue bit 0. -/
def readTriples (inp : Input) : Nat → Cursor → Except Stop (List (Bool × Bool) × Cursor)
  | 0, c => .error { cause := .streamExhausted, cursor := c }
  | rounds + 1, c =>
    match readBit inp c with
    | .error e => .error e
    | .ok (p, c1) =>
      match readBit inp c1 with
      | .error e => .error e
      | .ok (q, c2) =>
        match readBit inp c2 with
        | .error e => .error e
        | .ok (false, c3) => .ok ([(p, q)], c3)
        | .ok (true, c3) =>
          match readTriples inp rounds c3 with
          | .error e => .error e
          | .ok (ps, c4) => .ok ((p, q) :: ps, c4)

/-- One sample code under the DH in force (R135, R136). -/
def decodeCode (w16 : Bool) (dh : Nat) (inp : Input) (c : Cursor) : Except Stop (SampleCode × Cursor) :=
  if w16 = true ∧ dh < 5 then
    match readTriples inp (codeRounds inp c) c with
    | .error e => .error e
    | .ok (vals, c1) =>
      match readBits inp dh c1 with
      | .error e => .error e
      | .ok (raw, c2) => .ok (.narrow vals raw, c2)
  else
    match readPairs inp (codeRounds inp c) c with
    | .error e => .error e
    | .ok (vals, c1) =>
      match readBits inp dh c1 with
      | .error e => .error e
      | .ok (raw, c2) => .ok (.general vals raw, c2)

/-- The instruction form CONFIG selects (R143 to R146). -/
def sampleInstr (w16 pred : Bool) (code : SampleCode) : Instr :=
  match w16, pred with
  | false, false => .delta8Plain code
  | false, true => .delta8Pred code
  | true, false => .delta16Plain code
  | true, true => .delta16Pred code

/-- One sample (R143 to R146). -/
def decodeSample (w16 pred : Bool) (dh : Nat) (inp : Input) (c : Cursor) : Except Stop (Instr × Cursor) :=
  match decodeCode w16 dh inp c with
  | .error e => .error e
  | .ok (code, c1) => .ok (sampleInstr w16 pred code, c1)

/-! ## Tracks (R81) -/

/-- The two bytes of a command pair (R165). -/
def readPair (inp : Input) (c : Cursor) : Except Stop ((Byte × Byte) × Cursor) :=
  match fetch inp c with
  | .error e => .error e
  | .ok (code, c1) =>
    match fetch inp c1 with
    | .error e => .error e
    | .ok (op, c2) => .ok ((code, op), c2)

/-- `n` command pairs (R164). -/
def readPairBytes (inp : Input) : Nat → Cursor → Except Stop (List (Byte × Byte) × Cursor)
  | 0, c => .ok ([], c)
  | n + 1, c =>
    match readPair inp c with
    | .error e => .error e
    | .ok (p, c1) =>
      match readPairBytes inp n c1 with
      | .error e => .error e
      | .ok (ps, c2) => .ok (p :: ps, c2)

/-- An event with its pairs, or EVT_END (R162, R164). -/
def decodeTrack (inp : Input) (c : Cursor) : Except Stop (Instr × Cursor) :=
  match fetch inp c with
  | .error e => .error e
  | .ok (cb, c1) =>
    if cb = 0 then .ok (.evtEnd, c1)
    else
      match readPairBytes inp (cb.toNat % 16) c1 with
      | .error e => .error e
      | .ok (pairs, c2) => .ok (.evt (cb.extractLsb' 4 4) pairs, c2)

/-- The instruction of a command pair: its class selects the row (R166). -/
def pairInstr (code op : Byte) : Instr :=
  match cmdTable code with
  | .note => .cmdNote code op
  | .instr => .cmdInstr code op
  | .toneporta => .cmdToneporta code op
  | .vibrato => .cmdVibrato code op
  | .panning => .cmdPanning code op
  | .volume => .cmdVolume code op
  | .patternbreak => .cmdPatternbreak code op
  | .tempospeed => .cmdTempospeed code op
  | .volslide => .cmdVolslide code op
  | .fixedEff tag => .cmdFixedEff code tag op
  | .fixedVol tag => .cmdFixedVol code tag op
  | .unmapped => .cmdUnmapped code op

/-- One command pair on its own (R165). -/
def decodePair (inp : Input) (c : Cursor) : Except Stop (Instr × Cursor) :=
  match readPair inp c with
  | .error e => .error e
  | .ok (p, c1) => .ok (pairInstr p.1 p.2, c1)

/-! ## The decoder of a unit's next token -/

/-- What a unit expects at its cursor: the only context decoding has (R88, R112, R162). -/
inductive Format where
  | seed
  | lz
  | sample (w16 pred : Bool) (dh : Nat)
  | track
  | pair
deriving DecidableEq, Repr

/-- The decoder of a stream. -/
def decodeStream (f : Format) (inp : Input) (c : Cursor) : Except Stop (Instr × Cursor) :=
  match f with
  | .seed => decodeSeed inp c
  | .lz => decodeLz inp c
  | .sample w16 pred dh => decodeSample w16 pred dh inp c
  | .track => decodeTrack inp c
  | .pair => decodePair inp c

/-! ## Host accesses -/

/-- The base of a register bank (R25). -/
def bankBase : UnitId → Nat
  | .lzu => 0x00
  | .dsu => 0x40
  | .peu => 0x80

/-- The bank and the offset within it of an offset in the register window; none above the window (R25). -/
def bankOf (offset : Nat) : Option (UnitId × Nat) :=
  if offset < 0x40 then some (.lzu, offset)
  else if offset < 0x80 then some (.dsu, offset - 0x40)
  else if offset < 0xC0 then some (.peu, offset - 0x80)
  else none

/-- A register access is defined only as a whole aligned 32-bit word (R53). -/
def wordAccess (offset bytes : Nat) : Bool := bytes == 4 && offset % 4 == 0

/-- The instruction a host access is, if it is one: a word write of CTRL with bit 0 = 1 (R26, R211). -/
def decodeHost : HostOp → Option Instr
  | .writeReg offset bytes value =>
    if wordAccess offset bytes then
      match bankOf offset with
      | some (u, 0x00) => if value.getLsbD 0 then some (.hostStart u) else none
      | _ => none
    else none
  | _ => none

/-! ## The encoder -/

/-- An instruction's encoding: symbols of a stream, or a host bus write. -/
inductive Encoding where
  | stream (syms : List Sym)
  | bus (op : HostOp)
deriving DecidableEq, Repr

/-- The `n` low bits of `v`, most significant first (R51). -/
def bitsOf : Nat → Nat → List Bool
  | 0, _ => []
  | n + 1, v => v.testBit n :: bitsOf n v

/-- The pairs (d c) of a gamma code for the data bits `ds` (R72). -/
def gammaPairs : List Bool → List Bool
  | [] => []
  | [d] => [d, false]
  | d :: ds => d :: true :: gammaPairs ds

/-- GAMMA of a value g >= 2 (R72): the bits of g below its leading 1. -/
def encodeGamma (g : Nat) : List Bool := gammaPairs (bitsOf (Nat.log2 g) g)

/-- The length field (R74). -/
def encodeLengthCode : LengthCode → List Bool
  | .short l => [l.getLsbD 1, l.getLsbD 0]
  | .extended g2 => false :: false :: encodeGamma g2

/-- The triples (p p' c) of a narrow code (R79). -/
def narrowTriples : List (Bool × Bool) → List Bool
  | [] => []
  | [p] => [p.1, p.2, false]
  | p :: ps => p.1 :: p.2 :: true :: narrowTriples ps

/-- A sample code (R79). -/
def encodeCode : SampleCode → List Bool
  | .general vals raw => gammaPairs vals ++ raw
  | .narrow vals raw => narrowTriples vals ++ raw

/-- Control bits as symbols. -/
def bitSyms (bs : List Bool) : List Sym := bs.map .bit

/-- The two bytes of a command pair (R81). -/
def encodePair (code op : Byte) : Encoding := .stream [.byte code, .byte op]

/-- The encoding of an instruction (R74, R79, R81, R211). -/
def encode : Instr → Encoding
  | .seed b => .stream [.byte b]
  | .lit b => .stream [.bit false, .byte b]
  | .matchNew g x len =>
    .stream (.bit true :: bitSyms (encodeGamma g) ++ .byte x :: bitSyms (encodeLengthCode len))
  | .matchReuse len => .stream (.bit true :: bitSyms (encodeGamma 2) ++ bitSyms (encodeLengthCode len))
  | .delta8Plain code => .stream (bitSyms (encodeCode code))
  | .delta8Pred code => .stream (bitSyms (encodeCode code))
  | .delta16Plain code => .stream (bitSyms (encodeCode code))
  | .delta16Pred code => .stream (bitSyms (encodeCode code))
  | .evtEnd => .stream [.byte 0]
  | .evt rep pairs =>
    .stream (.byte (BitVec.ofNat 8 (rep.toNat * 16 + pairs.length % 16)) ::
      pairs.flatMap fun p => [.byte p.1, .byte p.2])
  | .cmdNote code op => encodePair code op
  | .cmdVolslide code op => encodePair code op
  | .cmdInstr code op => encodePair code op
  | .cmdToneporta code op => encodePair code op
  | .cmdVibrato code op => encodePair code op
  | .cmdPanning code op => encodePair code op
  | .cmdVolume code op => encodePair code op
  | .cmdPatternbreak code op => encodePair code op
  | .cmdTempospeed code op => encodePair code op
  | .cmdFixedEff code _ op => encodePair code op
  | .cmdFixedVol code _ op => encodePair code op
  | .cmdUnmapped code op => encodePair code op
  | .hostStart bank => .bus (.writeReg (bankBase bank) 4 1)

/-- The control bits among the symbols, in order. -/
def controlBits : List Sym → List Bool
  | [] => []
  | .bit b :: t => b :: controlBits t
  | .byte _ :: t => controlBits t

/-- A control byte holding up to eight bits, first bit in bit 7, the rest 0 (R71). -/
def controlByte (bs : List Bool) : Byte :=
  BitVec.ofNat 8 (((bs ++ List.replicate 8 false).take 8).foldl (fun v b => 2 * v + bitNat b) 0)

/-- The bytes of a stream of symbols when `left` bits of the current control byte are still undelivered (R70):
a control byte stands where its first bit is needed and holds the next eight control bits. -/
def pack : Nat → List Sym → List Byte
  | _, [] => []
  | left, .byte b :: t => b :: pack left t
  | 0, .bit b :: t => controlByte (b :: controlBits t) :: pack 7 t
  | left + 1, .bit _ :: t => pack left t

/-- The bytes of an instruction that stands at the start of a control byte; none for a host access. -/
def encodeBytes (i : Instr) : List Byte :=
  match encode i with
  | .stream syms => pack 0 syms
  | .bus _ => []

/-- Bytes as an input space. -/
def inputOf (bytes : List Byte) : Input := { len := bytes.length, get := fun a => bytes.getD a 0 }

/-- The format an instruction is read in; none for a host access. -/
def formatOf : Instr → Option Format
  | .seed _ => some .seed
  | .lit _ => some .lz
  | .matchNew _ _ _ => some .lz
  | .matchReuse _ => some .lz
  | .delta8Plain code => some (.sample false false (rawBits code).length)
  | .delta8Pred code => some (.sample false true (rawBits code).length)
  | .delta16Plain code => some (.sample true false (rawBits code).length)
  | .delta16Pred code => some (.sample true true (rawBits code).length)
  | .evtEnd => some .track
  | .evt _ _ => some .track
  | .cmdNote _ _ => some .pair
  | .cmdVolslide _ _ => some .pair
  | .cmdInstr _ _ => some .pair
  | .cmdToneporta _ _ => some .pair
  | .cmdVibrato _ _ => some .pair
  | .cmdPanning _ _ => some .pair
  | .cmdVolume _ _ => some .pair
  | .cmdPatternbreak _ _ => some .pair
  | .cmdTempospeed _ _ => some .pair
  | .cmdFixedEff _ _ _ => some .pair
  | .cmdFixedVol _ _ _ => some .pair
  | .cmdUnmapped _ _ => some .pair
  | .hostStart _ => none

/-! ## Words of the opcode table -/

/-- The bytes of a table word: bit 0 is the least significant bit of the first byte; zeros behind it. The longest
instruction of whole bytes, an event with 15 pairs, has 31. -/
def tableBytes (w : Nat) : List Byte := (List.range 32).map fun k => BitVec.ofNat 8 (w / 256 ^ k)

/-- The stream a table word stands in. The table does not say it, and one byte can stand in several: a one-byte
word is the row whose fixed bits it has (0x00 EVT_END, 0x01 CMD_NOTE, 0x22 CMD_VOLSLIDE), else the one other row of
exactly eight bits, SEED; two bytes are a command pair, more an event. -/
def tableFormat (nbits w : Nat) : Format :=
  if nbits ≤ 8 then
    if w % 256 = 0 then .track
    else if w % 256 = 0x01 ∨ w % 256 = 0x22 then .pair
    else .seed
  else if nbits ≤ 16 then .pair
  else .track

/-- The instruction the decoder reads from a table word. -/
def decodeTableWord (nbits w : Nat) : Option Instr :=
  match decodeStream (tableFormat nbits w) (inputOf (tableBytes w)) Cursor.fresh with
  | .ok (i, _) => some i
  | .error _ => none

end Sys2Proof
end

