-- ==== Sys2Proof/Machine/State.lean ====
section
/-! DEFINITION. The state of the machine as plain data, the reasons a step can stop, and the state after reset. -/

namespace Sys2Proof.Machine

/-- A space as the places something has been written to: addresses strictly rising (`storeWf`). An address that is
not listed has no written value; what a read of it gives is `byteAt` and `cellAt` (R231). -/
abbrev Store (α : Type) := List (Nat × α)

/-- The registers of one bank (R25 to R34) that every unit has. CTRL holds nothing (R26). -/
structure Bank where
  /-- STATUS.STATE (R27) -/
  state : RunState
  /-- STATUS.CAUSE (R27, R201) -/
  cause : Cause
  /-- IN_LEN (R28) -/
  inLen : Word
  /-- OUT_LEN (R29) -/
  outLen : Word
  /-- CONFIG (R30, R31) -/
  config : Word
  /-- IN_POS, the cursor `ip` (R22, R32) -/
  ip : Nat
  /-- IN_LEN as latched at START (R212, R236) -/
  len : Nat
  /-- the model's own: the host has read STATUS as DONE or FAIL since the last START (R60, R62) -/
  seen : Bool
deriving DecidableEq, Repr

/-- DATA and CARRY of a control-bit decoder (R20). -/
structure Cbd where
  data : Byte
  carry : Bool
deriving DecidableEq, Repr

/-- The LZ unit (R20, R38, R39). -/
structure Lzu where
  bank : Bank
  /-- IN (R38) -/
  input : Store Byte
  /-- OUT (R39) -/
  out : Store Byte
  /-- the model's own: OUT as it was before the last START (R60) -/
  outPre : Store Byte
  cbd : Cbd
  /-- N, latched at START (R110) -/
  n : Nat
  /-- W, also OUT_POS (R20, R23) -/
  w : Nat
  prevOff : Int
  off : Int
  g : Nat
  len : Nat
  adj : Nat
deriving DecidableEq, Repr

/-- The delta-sample unit (R20, R38, R40). -/
structure Dsu where
  bank : Bank
  /-- IN (R38) -/
  input : Store Byte
  /-- SMP, in bytes (R40) -/
  smp : Store Byte
  /-- the model's own: SMP as it was before the last START (R60) -/
  smpPre : Store Byte
  cbd : Cbd
  /-- W = 16, latched at START (R130) -/
  w16 : Bool
  /-- PRED, latched at START (R130) -/
  pred : Bool
  /-- C, latched at START (R130) -/
  chans : Nat
  /-- F, latched at START (R130) -/
  frames : Nat
  dh : Nat
  /-- V, zero-extended to 16 bits when W = 8 -/
  v : BitVec 16
  e : Nat
  prev : Int
  next : Int
  prevp : Int
  ch : Nat
  fr : Nat
  /-- samples written, also OUT_POS (R23, R131) -/
  count : Nat
deriving DecidableEq, Repr

/-- The pattern event unit (R20, R38, R41). -/
structure Peu where
  bank : Bank
  /-- IN (R38) -/
  input : Store Byte
  /-- CELL (R41) -/
  cells : Store Cell
  /-- the model's own: CELL as it was before the last START (R60) -/
  cellsPre : Store Cell
  /-- the model's own: CELL as the last START left it, its rows cleared if it was legal (R60, R160) -/
  cellsStart : Store Cell
  /-- D, latched at START (R160) -/
  dialect : Dialect
  /-- R, latched at START (R160) -/
  rows : Nat
  row : Nat
  cb : Byte
  k : Nat
  wcell : Cell
deriving DecidableEq, Repr

/-- The decoder block and, as the model's own fields, the inputs and free choices a step reads. -/
structure State where
  lzu : Lzu
  dsu : Dsu
  peu : Peu
  /-- pending host accesses, oldest first (R224) -/
  host : List HostOp
  /-- what host reads returned, newest first -/
  replies : List Reply
  /-- who is to move next (D2) -/
  agenda : List Agent
  /-- rounds of turns drawn so far -/
  rounds : Nat
  /-- free choices of unsynchronised host reads made so far (93 S4) -/
  draws : Nat
  /-- resets so far: which unspecified contents the spaces hold (R231) -/
  epoch : Nat
deriving DecidableEq, Repr

/-- Why a step stops with a fault. The faults of the units are no stops: they are next states (R206). -/
inductive Fault where
  /-- A host access to an index at or past the capacity of a space (R57). Raised by the host's byte and cell
  accesses only. Safe: the spec gives no such place. -/
  | noSuchAddress (space : Space) (index : Nat)
deriving DecidableEq, Repr

/-- Why a step is refused. -/
inductive Refusal where
  /-- An instruction that has no meaning yet; exec's arms only. Safe. -/
  | notModelled (mnemonic : String)
  /-- A register access that is not a whole aligned 32-bit word (R53, 93 S6); the host's register accesses. Safe: the
  spec asks a model to refuse it. -/
  | registerAccess (offset bytes : Nat)
  /-- A host write to IN or the output space of a BUSY unit (R233, R234, 93 S5); the host's writes. Safe: the spec
  asks a model to refuse it. -/
  | busyWrite (space : Space) (index : Nat)
deriving DecidableEq, Repr

/-- A bank after reset (R43); the last two fields are log entries 1 and 12. -/
def resetBank : Bank :=
  { state := .idle, cause := .none, inLen := 0, outLen := 0, config := 0, ip := 0, len := 0, seen := true }

/-- DATA and CARRY after reset (R24, R43; log entries 1 and 22). -/
def resetCbd : Cbd := { data := 0, carry := false }

/-- The LZU after reset (R43, R230); its context registers are log entry 1, its spaces entry 2. -/
def resetLzu : Lzu :=
  { bank := resetBank, input := [], out := [], outPre := [], cbd := resetCbd, n := 0, w := 0, prevOff := 0, off := 0,
    g := 0, len := 0, adj := 0 }

/-- The DSU after reset (R43, R230); its context registers are log entry 1, its spaces entry 2. -/
def resetDsu : Dsu :=
  { bank := resetBank, input := [], smp := [], smpPre := [], cbd := resetCbd, w16 := false, pred := false, chans := 0,
    frames := 0, dh := 0, v := 0, e := 0, prev := 0, next := 0, prevp := 0, ch := 0, fr := 0, count := 0 }

/-- The PEU after reset (R43, R230); its context registers are log entry 1, its spaces entry 2. -/
def resetPeu : Peu :=
  { bank := resetBank, input := [], cells := [], cellsPre := [], cellsStart := [], dialect := .it, rows := 0, row := 0,
    cb := 0, k := 0, wcell := emptyCell }

/-- The machine right after reset (R43, R230): every unit IDLE, no host access pending. -/
def State.reset : State :=
  { lzu := resetLzu, dsu := resetDsu, peu := resetPeu, host := [], replies := [], agenda := [], rounds := 0, draws := 0,
    epoch := 0 }

end Sys2Proof.Machine
end

