-- ==== Sys2Proof/Machine/Ops.lean ====
section
/-! DEFINITION. The shared operations: spaces, the registers of a bank, fault entry and the way back from it, the
starts of the units, the copy of a match, the reconstruction of a sample and the end of an event. -/

namespace Sys2Proof.Machine

/-! ## Spaces -/

/-- What has been written to an address, if anything has. -/
def storeGet {α : Type} : Store α → Nat → Option α
  | [], _ => none
  | (b, v) :: t, a => if b = a then some v else storeGet t a

/-- A write: the list stays sorted, one entry an address. -/
def storeSet {α : Type} : Store α → Nat → α → Store α
  | [], a, v => [(a, v)]
  | (b, w) :: t, a, v =>
    if a < b then (a, v) :: (b, w) :: t
    else if a = b then (a, v) :: t
    else (b, w) :: storeSet t a v

/-- Every address listed is at or above `lo`, and they strictly rise. -/
def storeFrom {α : Type} (lo : Nat) : Store α → Bool
  | [] => true
  | (a, _) :: t => decide (lo ≤ a) && storeFrom (a + 1) t

/-- The canonical form: addresses strictly rising. No entry can equal what an unlisted address reads as, since that
is no value at all; so equal lists are equal spaces. -/
def storeWf {α : Type} (m : Store α) : Bool := storeFrom 0 m

/-- The byte at an index; `blank` is what an index nothing has written holds (R231). -/
def byteAt (blank : Nat → Byte) (m : Store Byte) (a : Nat) : Byte := (storeGet m a).getD (blank a)

/-- The cell of a row; `blank` as in `byteAt`. -/
def cellAt (blank : Nat → Cell) (m : Store Cell) (a : Nat) : Cell := (storeGet m a).getD (blank a)

/-- What the unwritten indices of a byte space hold since the last reset. -/
def blankBytes (s : State) (space : Space) : Nat → Byte := Config.unwrittenByte space s.epoch

/-- What the unwritten rows of CELL hold since the last reset. -/
def blankCells (s : State) : Nat → Cell := Config.unwrittenCell s.epoch

/-- The written contents of a byte space; CELL is none. -/
def spaceBytes (s : State) : Space → Store Byte
  | .inLzu => s.lzu.input
  | .inDsu => s.dsu.input
  | .inPeu => s.peu.input
  | .out => s.lzu.out
  | .smp => s.dsu.smp
  | .cell => []

/-- The byte a space holds at an index. -/
def State.byte (s : State) (space : Space) (a : Nat) : Byte :=
  byteAt (blankBytes s space) (spaceBytes s space) a

/-- The cell CELL holds at a row. -/
def State.cell (s : State) (row : Nat) : Cell := cellAt (blankCells s) s.peu.cells row

/-- The bytes of a row of CELL as the platform lays a cell out (R37, D30; log entry 7). -/
def State.cellBytes (s : State) (row : Nat) : List Byte := Config.cellEncoding (s.cell row)

/-- All memory of the block is in canonical form. -/
def memoryWf (s : State) : Bool :=
  storeWf s.lzu.input && storeWf s.lzu.out && storeWf s.lzu.outPre &&
  storeWf s.dsu.input && storeWf s.dsu.smp && storeWf s.dsu.smpPre &&
  storeWf s.peu.input && storeWf s.peu.cells && storeWf s.peu.cellsPre && storeWf s.peu.cellsStart

/-! ## Replacing one unit -/

/-- The state with another LZU. -/
def State.setLzu (s : State) (u : Lzu) : State := { s with lzu := u }
/-- The state with another DSU. -/
def State.setDsu (s : State) (u : Dsu) : State := { s with dsu := u }
/-- The state with another PEU. -/
def State.setPeu (s : State) (u : Peu) : State := { s with peu := u }
/-- The state with the agenda of turns advanced. -/
def State.setAgenda (s : State) (agenda : List Agent) (rounds : Nat) : State :=
  { s with agenda := agenda, rounds := rounds }
/-- The state with the pending host accesses replaced. -/
def State.setHost (s : State) (ops : List HostOp) : State := { s with host := ops }
/-- The state after a host read returned `r`. -/
def State.reply (s : State) (r : Reply) : State := { s with replies := r :: s.replies }

/-! ## Fault entry, completion and the way back (R206, R214) -/

/-- Fault entry (R206): STATE <- FAIL, CAUSE <- the code; nothing else is saved or changed. -/
def enterFail (b : Bank) (c : Cause) : Bank := { b with state := .fail, cause := c }

/-- Completion (R121, R147, R180): STATE <- DONE; CAUSE stays. -/
def complete (b : Bank) : Bank := { b with state := .done }

/-- What every START does first (R211), and the only way back from a fault (R214): BUSY, no cause, IN_POS 0, and the
input length latched (R236). -/
def beginOperation (b : Bank) : Bank :=
  { b with state := .busy, cause := .none, ip := 0, len := b.inLen.toNat, seen := false }

/-- CBD start (R105). -/
def cbdStart : Cbd := { data := 0, carry := false }

/-! ## Cursors -/

/-- The LZU's cursor and CBD as the decoder reads them. -/
def lzuCursor (u : Lzu) : Cursor := { ip := u.bank.ip, data := u.cbd.data, carry := u.cbd.carry }
/-- The LZU with its cursor and CBD moved. -/
def lzuMove (u : Lzu) (c : Cursor) : Lzu :=
  { u with bank := { u.bank with ip := c.ip }, cbd := { data := c.data, carry := c.carry } }
/-- The DSU's cursor and CBD as the decoder reads them. -/
def dsuCursor (u : Dsu) : Cursor := { ip := u.bank.ip, data := u.cbd.data, carry := u.cbd.carry }
/-- The DSU with its cursor and CBD moved. -/
def dsuMove (u : Dsu) (c : Cursor) : Dsu :=
  { u with bank := { u.bank with ip := c.ip }, cbd := { data := c.data, carry := c.carry } }
/-- The PEU's cursor; it has no CBD (R20). -/
def peuCursor (u : Peu) : Cursor := { ip := u.bank.ip, data := 0, carry := false }
/-- The PEU with its cursor moved. -/
def peuMove (u : Peu) (c : Cursor) : Peu := { u with bank := { u.bank with ip := c.ip } }

/-- The input stream of the LZU: IN below the latched IN_LEN (R12, R38). -/
def lzuInput (s : State) : Input := { len := s.lzu.bank.len, get := s.byte .inLzu }
/-- The input stream of the DSU. -/
def dsuInput (s : State) : Input := { len := s.dsu.bank.len, get := s.byte .inDsu }
/-- The input stream of the PEU. -/
def peuInput (s : State) : Input := { len := s.peu.bank.len, get := s.byte .inPeu }

/-! ## LZU -/

/-- The LZU with a fault entered. -/
def lzuFail (u : Lzu) (c : Cause) : Lzu := { u with bank := enterFail u.bank c }

/-- The end of a token: DONE when the output is full (R121). -/
def lzuFinish (u : Lzu) : Lzu := if u.n ≤ u.w then { u with bank := complete u.bank } else u

/-- One output byte at W (R111, R113, R120). -/
def lzuPut (u : Lzu) (b : Byte) : Lzu := { u with out := storeSet u.out u.w b, w := u.w + 1 }

/-- COPY (R120), byte by byte: `n` more bytes from `W + off`. -/
def lzuCopy (blank : Nat → Byte) (off : Int) : Nat → Lzu → Lzu
  | 0, u => u
  | n + 1, u => lzuCopy blank off n (lzuPut u (byteAt blank u.out ((u.w : Int) + off).toNat))

/-- CHECK (R119), then COPY (R120) and completion (R121), on the OFF and LEN just computed. -/
def lzuMatch (blank : Nat → Byte) (u : Lzu) : Lzu :=
  if 0 ≤ u.off ∨ (u.w : Int) + u.off < 0 then lzuFail u .badOffset
  else if (u.n : Int) - u.w < u.len then lzuFail u .lengthOverrun
  else lzuFinish (lzuCopy blank u.off u.len u)

/-- LZU start (R110); IN_POS and OUT_POS are 0 whether or not it faults (R201, R211). -/
def lzuStart (u : Lzu) : Lzu :=
  let u0 : Lzu := { u with bank := beginOperation u.bank, w := 0, outPre := u.out }
  if Config.inCap.val < u.bank.inLen.toNat ∨ Config.outCap.val < u.bank.outLen.toNat then lzuFail u0 .configInvalid
  else
    let u1 : Lzu := { u0 with n := u.bank.outLen.toNat }
    if u.bank.outLen.toNat = 0 then lzuFail u1 .zeroLength
    else { u1 with prevOff := 0, cbd := cbdStart }

/-! ## DSU -/

/-- The DSU with a fault entered. -/
def dsuFail (u : Dsu) (c : Cause) : Dsu := { u with bank := enterFail u.bank c }

/-- INIT_CONTEXT (R130). -/
def dsuInit (u : Dsu) : Dsu := { u with dh := dhInit u.w16, prev := 0, next := 0, prevp := 0 }

/-- The registers V, E and DH of one sample (R136 to R138) in width `w`. -/
def dsuCode (w : Nat) (code : SampleCode) (u : Dsu) : Dsu :=
  let v := rawCode w code
  let e := extraLength w v
  { u with v := v.setWidth 16, e := e, dh := nextWidth u.dh e }

/-- Plain reconstruction (R140): PREV is the sample. -/
def dsuPlain (w : Nat) (d : Int) (u : Dsu) : Dsu := { u with prev := wrapS w (u.prev + d) }

/-- Predictive reconstruction (R141): PREVP is the sample. -/
def dsuPredict (w : Nat) (d : Int) (u : Dsu) : Dsu :=
  let value := wrapS w (u.next + d)
  { u with next := nextPredictor w value d u.prevp, prevp := value }

/-- The sample's place in SMP: `FR*C + CH` (R131). -/
def sampleIndex (u : Dsu) : Nat := u.fr * u.chans + u.ch

/-- MemWrite(SMP, j, 1, out): one byte, or two with the least significant first (R40, R50). -/
def putSample (w : Nat) (m : Store Byte) (j : Nat) (out : Int) : Store Byte :=
  let x := BitVec.ofInt 16 out
  if w = 8 then storeSet m j (x.setWidth 8)
  else storeSet (storeSet m (2 * j) (x.setWidth 8)) (2 * j + 1) (x.extractLsb' 8 8)

/-- The loop head of R131 after a sample: next frame, or next channel and its INIT_CONTEXT (R132). -/
def dsuAdvance (u : Dsu) : Dsu :=
  if u.fr + 1 < u.frames then { u with fr := u.fr + 1 }
  else
    let u1 : Dsu := { u with fr := 0, ch := u.ch + 1 }
    if u.ch + 1 < u.chans then (if Config.deltaChannelReset then dsuInit u1 else u1) else u1

/-- The end of a sample: DONE when count = F * C (R147). -/
def dsuFinish (u : Dsu) : Dsu := if u.frames * u.chans ≤ u.count then { u with bank := complete u.bank } else u

/-- The sample `out` written at its place (R131, R142), the loop advanced, the operation ended if it was the last. -/
def dsuEmit (w : Nat) (out : Int) (u : Dsu) : Dsu :=
  dsuFinish (dsuAdvance { u with smp := putSample w u.smp (sampleIndex u) out, count := u.count + 1 })

/-- DSU start (R130). -/
def dsuStart (u : Dsu) : Dsu :=
  let u0 : Dsu :=
    { u with
      bank := beginOperation u.bank, smpPre := u.smp, count := 0
      w16 := u.bank.config.getLsbD 0, pred := u.bank.config.getLsbD 1
      chans := (u.bank.config.extractLsb' 8 8).toNat, frames := u.bank.outLen.toNat }
  if Config.inCap.val < u.bank.inLen.toNat ∨ Config.smpCap.val < u0.frames * u0.chans then dsuFail u0 .configInvalid
  else
    let u1 : Dsu := dsuInit { u0 with cbd := cbdStart, ch := 0, fr := 0 }
    if u1.frames = 0 ∨ u1.chans = 0 then { u1 with bank := complete u1.bank } else u1

/-! ## PEU -/

/-- The PEU with a fault entered. -/
def peuFail (u : Peu) (c : Cause) : Peu := { u with bank := enterFail u.bank c }

/-- OUT_POS of the PEU: min(ROW, R) with the R of the operation (R23, R33). -/
def peuOutPos (u : Peu) : Nat := min u.row u.rows

/-- `span` copies of WCELL from `row` on; rows at or past R are not written (R164, R179). -/
def putRows (rows : Nat) (c : Cell) (row : Nat) : Nat → Store Cell → Store Cell
  | 0, m => m
  | span + 1, m => putRows rows c (row + 1) span (if row < rows then storeSet m row c else m)

/-- The end of an event: WCELL replicated over its span, ROW advanced, DONE when the rows are full (R164, R180). -/
def endEvent (u : Peu) : Peu :=
  let span := repSpan (u.cb.toNat / 16)
  let u1 : Peu := { u with cells := putRows u.rows u.wcell u.row span u.cells, row := u.row + span }
  if u1.rows ≤ u1.row then { u1 with bank := complete u1.bank } else u1

/-- One pair less to read; the last one ends the event (R164). With no event in progress (K = 0) nothing is counted. -/
def pairDone (u : Peu) : Peu :=
  match u.k with
  | 0 => u
  | 1 => endEvent { u with k := 0 }
  | k + 2 => { u with k := k + 1 }

/-- PAIR (R165) once its class is known: WCELL changes, the pair is counted. -/
def pairStep (f : Cell → Cell) (u : Peu) : Peu := pairDone { u with wcell := f u.wcell }

/-- PAIR (R165): the class CMD_TABLE gives the code is applied. -/
def applyPair (u : Peu) (p : Byte × Byte) : Peu := pairStep (applyClass (cmdTable p.1) u.dialect p.2) u

/-- The head of an event (R164): CB, K and an Empty WCELL; an event without pairs ends at once. -/
def beginEvent (rep : BitVec 4) (np : Nat) (u : Peu) : Peu :=
  let u1 : Peu := { u with cb := BitVec.ofNat 8 (rep.toNat * 16 + np % 16), k := np, wcell := emptyCell }
  if np = 0 then endEvent u1 else u1

/-- Empty written to rows 0..R-1 (R160). -/
def clearRows (m : Store Cell) : Nat → Store Cell
  | 0 => m
  | r + 1 => storeSet (clearRows m r) r emptyCell

/-- PEU start (R160). A START that faults clears no row, and IN_POS and OUT_POS are 0 all the same (R201, R211; K: log
entry 28). -/
def peuStart (u : Peu) : Peu :=
  let u0 : Peu :=
    { u with
      bank := beginOperation u.bank, cellsPre := u.cells, cellsStart := u.cells, row := 0, k := 0
      rows := u.bank.outLen.toNat, dialect := dialectOf (u.bank.config.setWidth 2) }
  if Config.inCap.val < u.bank.inLen.toNat ∨ Config.cellCap.val < u0.rows then peuFail u0 .configInvalid
  else
    let cleared := clearRows u0.cells u0.rows
    let u1 : Peu := { u0 with cells := cleared, cellsStart := cleared }
    if u1.rows = 0 then { u1 with bank := complete u1.bank } else u1

end Sys2Proof.Machine
end

