-- ==== Sys2Proof/Machine/Delta.lean ====
section
/-! DEFINITION. The sample codes (42_delta.md). The cursor and CARRY have moved past the code when its meaning runs. -/

namespace Sys2Proof.Machine

/-- One sample of the plain variant in width `w` (R136 to R140, R142). -/
def samplePlain (w : Nat) (code : SampleCode) (u : Dsu) : Dsu :=
  let u1 := dsuPlain w (deltaOf (rawCode w code)) (dsuCode w code u)
  dsuEmit w u1.prev u1

/-- One sample of the predictive variant in width `w` (R136 to R139, R141, R142). -/
def samplePred (w : Nat) (code : SampleCode) (u : Dsu) : Dsu :=
  let u1 := dsuPredict w (deltaOf (rawCode w code)) (dsuCode w code u)
  dsuEmit w u1.prevp u1

/-- DELTA8_PLAIN (R143). -/
def execDelta8Plain (code : SampleCode) (s : State) : Host.Outcome State Fault Refusal :=
  .next (s.setDsu (samplePlain 8 code s.dsu))

/-- DELTA8_PRED (R144). -/
def execDelta8Pred (code : SampleCode) (s : State) : Host.Outcome State Fault Refusal :=
  .next (s.setDsu (samplePred 8 code s.dsu))

/-- DELTA16_PLAIN (R145). -/
def execDelta16Plain (code : SampleCode) (s : State) : Host.Outcome State Fault Refusal :=
  .next (s.setDsu (samplePlain 16 code s.dsu))

/-- DELTA16_PRED (R146). -/
def execDelta16Pred (code : SampleCode) (s : State) : Host.Outcome State Fault Refusal :=
  .next (s.setDsu (samplePred 16 code s.dsu))

end Sys2Proof.Machine
end

