-- ==== Sys2Proof/Machine/HostBus.lean ====
section
/-! DEFINITION. What the host does to the block (60_exceptions.md, 10_state.md section 4): START, register accesses,
accesses to the spaces, reset. -/

namespace Sys2Proof.Machine

/-! ## Banks -/

/-- The bank of a unit. -/
def bankState (s : State) : UnitId → Bank
  | .lzu => s.lzu.bank
  | .dsu => s.dsu.bank
  | .peu => s.peu.bank

/-- The state with one bank replaced. -/
def setBank (s : State) (u : UnitId) (b : Bank) : State :=
  match u with
  | .lzu => s.setLzu { s.lzu with bank := b }
  | .dsu => s.setDsu { s.dsu with bank := b }
  | .peu => s.setPeu { s.peu with bank := b }

/-- OUT_POS (R23): W, the samples written, or min(ROW, R). -/
def outPos (s : State) : UnitId → Nat
  | .lzu => s.lzu.w
  | .dsu => s.dsu.count
  | .peu => peuOutPos s.peu

/-! ## START -/

/-- HOST_START (R211): ignored while BUSY, else the unit's start rule. -/
def execHostStart (bank : UnitId) (s : State) : Host.Outcome State Fault Refusal :=
  .next
    (if (bankState s bank).state = .busy then s
     else
       match bank with
       | .lzu => s.setLzu (lzuStart s.lzu)
       | .dsu => s.setDsu (dsuStart s.dsu)
       | .peu => s.setPeu (peuStart s.peu))

/-! ## Registers -/

/-- STATUS.STATE as a number (R27). -/
def stateCode : RunState → Nat
  | .idle => 0
  | .busy => 1
  | .done => 2
  | .fail => 3

/-- STATUS.CAUSE as a number (R201). -/
def causeCode : Cause → Nat
  | .none => 0
  | .zeroLength => 1
  | .streamExhausted => 2
  | .badOffset => 3
  | .lengthOverrun => 4
  | .lengthOverflow => 5
  | .configInvalid => 6

/-- STATUS (R27). -/
def statusWord (b : Bank) : Word := BitVec.ofNat 32 (causeCode b.cause * 16 + stateCode b.state)

/-- The CONFIG bits that exist: none for the LZU, W16, PRED and CHANNELS for the DSU, DIALECT for the PEU (R30, R31). -/
def configMask : UnitId → Word
  | .lzu => 0
  | .dsu => 0x0000FF03
  | .peu => 0x00000003

/-- The word at an offset of a bank (R25 to R33); offsets with no register read 0. -/
def readRegister (s : State) (u : UnitId) (reg : Nat) : Word :=
  let b := bankState s u
  if reg = 0x04 then statusWord b
  else if reg = 0x08 then b.inLen
  else if reg = 0x0C then b.outLen
  else if reg = 0x10 then b.config
  else if reg = 0x14 then BitVec.ofNat 32 b.ip
  else if reg = 0x18 then BitVec.ofNat 32 (outPos s u)
  else 0

/-- Has the operation ended. -/
def finished (b : Bank) : Bool := b.state == .done || b.state == .fail

/-- A STATUS read that shows DONE or FAIL is what makes a unit's outputs final for the host (R60, R62). -/
def noteStatusRead (b : Bank) (reg : Nat) : Bank :=
  if reg = 0x04 ∧ finished b = true then { b with seen := true } else b

/-- A write of IN_LEN, OUT_LEN or CONFIG to a bank that is not BUSY; every other write is ignored (R27 to R34, R212). -/
def writeRegister (u : UnitId) (b : Bank) (reg : Nat) (value : Word) : Bank :=
  if b.state = .busy then b
  else if reg = 0x08 then { b with inLen := value }
  else if reg = 0x0C then { b with outLen := value }
  else if reg = 0x10 then { b with config := value &&& configMask u }
  else b

/-- A register read (R25, R53, R223). -/
def hostReadReg (offset bytes : Nat) (s : State) : Host.Outcome State Fault Refusal :=
  if wordAccess offset bytes then
    match bankOf offset with
    | some (u, reg) =>
      .next ((setBank s u (noteStatusRead (bankState s u) reg)).reply (.word (readRegister s u reg)))
    | none => .next (s.reply (.word 0))
  else .refused (.registerAccess offset bytes)

/-- A register write that is no START (R25, R26, R53, R212). -/
def hostWriteReg (offset bytes : Nat) (value : Word) (s : State) : Host.Outcome State Fault Refusal :=
  if wordAccess offset bytes then
    match bankOf offset with
    | some (u, reg) => .next (setBank s u (writeRegister u (bankState s u) reg value))
    | none => .next s
  else .refused (.registerAccess offset bytes)

/-! ## Spaces -/

/-- The input space of a unit. -/
def inSpace : UnitId → Space
  | .lzu => .inLzu
  | .dsu => .inDsu
  | .peu => .inPeu

/-- How many bytes SMP has: one a sample, or two when CONFIG.W16 = 1 (R40, R57). -/
def smpBytes (s : State) : Nat :=
  if s.dsu.bank.config.getLsbD 0 then 2 * Config.smpCap.val else Config.smpCap.val

/-- Are a unit's outputs final for the host (R60). -/
def synced (b : Bank) : Bool := b.seen && b.state != .busy

/-- One of the values R60 allows, as the n-th free choice. -/
def staleChoice {α : Type} (n : Nat) (first : α) (others : List α) : α :=
  (others[Config.stalePick n % (others.length + 1)]?).getD first

/-- A host read of OUT or SMP: the byte, or before it is final one of the byte before START and the byte now (R60). -/
def hostReadBytes (space : Space) (b : Bank) (pre : Store Byte) (index : Nat) (s : State) : State :=
  if synced b then s.reply (.byte (s.byte space index))
  else
    { s with draws := s.draws + 1 }.reply
      (.byte (staleChoice s.draws (byteAt (blankBytes s space) pre index) [s.byte space index]))

/-- A host read of CELL: the row, or before it is final one of the row before START, the row now, and the row as START
left it, which is the Empty of R160 where START wrote one (R60; log entry 12). A START that faulted wrote none, and a
host write since then is in all three. -/
def hostReadRow (row : Nat) (s : State) : State :=
  if synced s.peu.bank then s.reply (.cell (s.cell row))
  else
    { s with draws := s.draws + 1 }.reply
      (.cell (staleChoice s.draws (cellAt (blankCells s) s.peu.cellsPre row)
        [s.cell row, cellAt (blankCells s) s.peu.cellsStart row]))

/-- A host write of an input byte. -/
def hostPutIn (u : UnitId) (index : Nat) (b : Byte) (s : State) : State :=
  match u with
  | .lzu => s.setLzu { s.lzu with input := storeSet s.lzu.input index b }
  | .dsu => s.setDsu { s.dsu with input := storeSet s.dsu.input index b }
  | .peu => s.setPeu { s.peu with input := storeSet s.peu.input index b }

/-- Reset (R230, R231): State.reset with new unspecified contents; the host's own accesses are not the block's. -/
def hostReset (s : State) : State :=
  { State.reset with
    host := s.host, replies := s.replies, agenda := s.agenda, rounds := s.rounds, draws := s.draws, epoch := s.epoch + 1 }

/-- A host access that is no instruction of the table (R53, R57, R224, R230). R57 grants a host read of IN only while the
unit is not BUSY, and no rule says what one gives while it is BUSY: the model answers the stored byte then too (DESIGN
CHOICE, log entry 30). -/
def hostAccess (op : HostOp) (s : State) : Host.Outcome State Fault Refusal :=
  match op with
  | .readReg offset bytes => hostReadReg offset bytes s
  | .writeReg offset bytes value => hostWriteReg offset bytes value s
  | .readIn u index =>
    if index < Config.inCap.val then .next (s.reply (.byte (s.byte (inSpace u) index)))
    else .fault (.noSuchAddress (inSpace u) index)
  | .writeIn u index b =>
    if Config.inCap.val ≤ index then .fault (.noSuchAddress (inSpace u) index)
    else if (bankState s u).state = .busy then .refused (.busyWrite (inSpace u) index)
    else .next (hostPutIn u index b s)
  | .readOut index =>
    if index < Config.outCap.val then .next (hostReadBytes .out s.lzu.bank s.lzu.outPre index s)
    else .fault (.noSuchAddress .out index)
  | .writeOut index b =>
    if Config.outCap.val ≤ index then .fault (.noSuchAddress .out index)
    else if s.lzu.bank.state = .busy then .refused (.busyWrite .out index)
    else .next (s.setLzu
      { s.lzu with out := storeSet s.lzu.out index b, outPre := storeSet s.lzu.outPre index b })
  | .readSmp index =>
    if index < smpBytes s then .next (hostReadBytes .smp s.dsu.bank s.dsu.smpPre index s)
    else .fault (.noSuchAddress .smp index)
  | .writeSmp index b =>
    if smpBytes s ≤ index then .fault (.noSuchAddress .smp index)
    else if s.dsu.bank.state = .busy then .refused (.busyWrite .smp index)
    else .next (s.setDsu
      { s.dsu with smp := storeSet s.dsu.smp index b, smpPre := storeSet s.dsu.smpPre index b })
  | .readCell row =>
    if row < Config.cellCap.val then .next (hostReadRow row s) else .fault (.noSuchAddress .cell row)
  | .writeCell row c =>
    if Config.cellCap.val ≤ row then .fault (.noSuchAddress .cell row)
    else if s.peu.bank.state = .busy then .refused (.busyWrite .cell row)
    else .next (s.setPeu
      { s.peu with
        cells := storeSet s.peu.cells row c, cellsPre := storeSet s.peu.cellsPre row c
        cellsStart := storeSet s.peu.cellsStart row c })
  | .reset => .next (hostReset s)

end Sys2Proof.Machine
end

