-- ==== Sys2Proof/Machine/Lz.lean ====
section
/-! DEFINITION. The LZ tokens (41_lz.md). The cursor and CARRY have moved past the token when its meaning runs. -/

namespace Sys2Proof.Machine

/-- SEED (R111): OUT[0] <- b, W <- 1. -/
def execSeed (b : Byte) (s : State) : Host.Outcome State Fault Refusal :=
  .next (s.setLzu (lzuFinish { s.lzu with out := storeSet s.lzu.out 0 b, w := 1 }))

/-- LIT (R113): OUT[W] <- b, W <- W + 1. -/
def execLit (b : Byte) (s : State) : Host.Outcome State Fault Refusal :=
  .next (s.setLzu (lzuFinish (lzuPut s.lzu b)))

/-- MATCH_NEW (R114, R115): G, OFF, ADJ, PREV_OFF, then LEN with the bonus (R117, R118), CHECK and COPY. -/
def execMatchNew (g : Nat) (x : Byte) (len : LengthCode) (s : State) : Host.Outcome State Fault Refusal :=
  let off := matchOffset g x
  let adj := matchBonus off
  .next (s.setLzu (lzuMatch (blankBytes s .out)
    { s.lzu with g := g, off := off, adj := adj, prevOff := off, len := lengthBase len + adj }))

/-- MATCH_REUSE (R114, R116): OFF <- PREV_OFF, no bonus (D14), then CHECK and COPY. -/
def execMatchReuse (len : LengthCode) (s : State) : Host.Outcome State Fault Refusal :=
  .next (s.setLzu (lzuMatch (blankBytes s .out)
    { s.lzu with g := 2, off := s.lzu.prevOff, adj := 0, len := lengthBase len }))

end Sys2Proof.Machine
end

