-- ==== Sys2Proof/Machine/Pattern.lean ====
section
/-! DEFINITION. The track tokens (43_pattern.md): EVT_END, EVT and the command pairs. A pair acts on the working cell
of the event in progress; the last pair of an event ends it (R164). The cursor has moved past the token when its meaning
runs. A pair's class has been looked up by the decoder, so a meaning does not read the code again. -/

namespace Sys2Proof.Machine

/-- EVT_END (R163): STATE <- DONE; rows ROW..R-1 keep the Empty written at START. CB holds the 0x00 that R162 fetched
into it. -/
def execEvtEnd (s : State) : Host.Outcome State Fault Refusal :=
  .next (s.setPeu { s.peu with bank := complete s.peu.bank, cb := 0x00 })

/-- EVT (R164): the head of the event, then its pairs in stream order (R165); the last one replicates WCELL. -/
def execEvt (rep : BitVec 4) (pairs : List (Byte × Byte)) (s : State) : Host.Outcome State Fault Refusal :=
  .next (s.setPeu (pairs.foldl applyPair (beginEvent rep pairs.length s.peu)))

/-- CMD_NOTE (R167). -/
def execCmdNote (op : Byte) (s : State) : Host.Outcome State Fault Refusal :=
  .next (s.setPeu (pairStep (noteCell s.peu.dialect op) s.peu))

/-- CMD_VOLSLIDE (R175). -/
def execCmdVolslide (op : Byte) (s : State) : Host.Outcome State Fault Refusal :=
  .next (s.setPeu (pairStep (volslideCell s.peu.dialect op) s.peu))

/-- CMD_INSTR (R168). -/
def execCmdInstr (op : Byte) (s : State) : Host.Outcome State Fault Refusal :=
  .next (s.setPeu (pairStep (instrCell op) s.peu))

/-- CMD_TONEPORTA (R169). -/
def execCmdToneporta (op : Byte) (s : State) : Host.Outcome State Fault Refusal :=
  .next (s.setPeu (pairStep (toneportaCell s.peu.dialect op) s.peu))

/-- CMD_VIBRATO (R170). -/
def execCmdVibrato (op : Byte) (s : State) : Host.Outcome State Fault Refusal :=
  .next (s.setPeu (pairStep (vibratoCell s.peu.dialect op) s.peu))

/-- CMD_PANNING (R171). -/
def execCmdPanning (op : Byte) (s : State) : Host.Outcome State Fault Refusal :=
  .next (s.setPeu (pairStep (panningCell s.peu.dialect op) s.peu))

/-- CMD_VOLUME (R172). -/
def execCmdVolume (op : Byte) (s : State) : Host.Outcome State Fault Refusal :=
  .next (s.setPeu (pairStep (volumeCell s.peu.dialect op) s.peu))

/-- CMD_PATTERNBREAK (R173). -/
def execCmdPatternbreak (op : Byte) (s : State) : Host.Outcome State Fault Refusal :=
  .next (s.setPeu (pairStep (patternbreakCell s.peu.dialect op) s.peu))

/-- CMD_TEMPOSPEED (R174). -/
def execCmdTempospeed (op : Byte) (s : State) : Host.Outcome State Fault Refusal :=
  .next (s.setPeu (pairStep (tempospeedCell op) s.peu))

/-- CMD_FIXED_EFF (R176). -/
def execCmdFixedEff (tag : Nat) (op : Byte) (s : State) : Host.Outcome State Fault Refusal :=
  .next (s.setPeu (pairStep (fixedEffCell tag op) s.peu))

/-- CMD_FIXED_VOL (R177). -/
def execCmdFixedVol (tag : Nat) (op : Byte) (s : State) : Host.Outcome State Fault Refusal :=
  .next (s.setPeu (pairStep (fixedVolCell tag op) s.peu))

/-- CMD_UNMAPPED (R178): WCELL stays; the pair is consumed. -/
def execCmdUnmapped (s : State) : Host.Outcome State Fault Refusal :=
  .next (s.setPeu (pairStep (fun c => c) s.peu))

end Sys2Proof.Machine
end

