-- ==== Sys2Proof/Machine/Dispatch.lean ====
section
/-! DEFINITION. exec: one arm for each instruction, each a direct call of its meaning. -/

namespace Sys2Proof.Machine

def exec (i : Instr) (s : State) : Host.Outcome State Fault Refusal :=
  match i with
  -- LZ tokens (41_lz.md)
  | .seed b => Sys2Proof.Machine.execSeed b s
  | .lit b => Sys2Proof.Machine.execLit b s
  | .matchNew g x len => Sys2Proof.Machine.execMatchNew g x len s
  | .matchReuse len => Sys2Proof.Machine.execMatchReuse len s
  -- sample codes (42_delta.md)
  | .delta8Plain code => Sys2Proof.Machine.execDelta8Plain code s
  | .delta8Pred code => Sys2Proof.Machine.execDelta8Pred code s
  | .delta16Plain code => Sys2Proof.Machine.execDelta16Plain code s
  | .delta16Pred code => Sys2Proof.Machine.execDelta16Pred code s
  -- track tokens and command pairs (43_pattern.md)
  | .evtEnd => Sys2Proof.Machine.execEvtEnd s
  | .evt rep pairs => Sys2Proof.Machine.execEvt rep pairs s
  | .cmdNote _ op => Sys2Proof.Machine.execCmdNote op s
  | .cmdVolslide _ op => Sys2Proof.Machine.execCmdVolslide op s
  | .cmdInstr _ op => Sys2Proof.Machine.execCmdInstr op s
  | .cmdToneporta _ op => Sys2Proof.Machine.execCmdToneporta op s
  | .cmdVibrato _ op => Sys2Proof.Machine.execCmdVibrato op s
  | .cmdPanning _ op => Sys2Proof.Machine.execCmdPanning op s
  | .cmdVolume _ op => Sys2Proof.Machine.execCmdVolume op s
  | .cmdPatternbreak _ op => Sys2Proof.Machine.execCmdPatternbreak op s
  | .cmdTempospeed _ op => Sys2Proof.Machine.execCmdTempospeed op s
  | .cmdFixedEff _ tag op => Sys2Proof.Machine.execCmdFixedEff tag op s
  | .cmdFixedVol _ tag op => Sys2Proof.Machine.execCmdFixedVol tag op s
  | .cmdUnmapped _ _ => Sys2Proof.Machine.execCmdUnmapped s
  -- host operation (60_exceptions.md)
  | .hostStart bank => Sys2Proof.Machine.execHostStart bank s

end Sys2Proof.Machine
end

