-- ==== Sys2Proof/Machine/Run.lean ====
section
/-! DEFINITION. What a step is: who moves (D2, R238), the step of each unit (fetch and decode one token, run it, or
enter FAIL), the step of the host, and how a word of the opcode table is put where the next step fetches. -/

namespace Sys2Proof.Machine

/-! ## Steps of the units -/

/-- What the LZU reads next: the seed into an empty output, else a token (R111, R112). -/
def lzuFormat (u : Lzu) : Format := if u.w = 0 then .seed else .lz

/-- One token of the LZU (R111, R112). A full output completes at once (R121); no run leaves a BUSY unit there. -/
def stepLzu (s : State) : Host.Outcome State Fault Refusal :=
  if s.lzu.n ≤ s.lzu.w then .next (s.setLzu { s.lzu with bank := complete s.lzu.bank })
  else
    match decodeStream (lzuFormat s.lzu) (lzuInput s) (lzuCursor s.lzu) with
    | .error e => .next (s.setLzu (lzuFail (lzuMove s.lzu e.cursor) e.cause))
    | .ok (i, c) => exec i (s.setLzu (lzuMove s.lzu c))

/-- What the DSU reads next, selected by CONFIG as latched and by DH (R135, R143 to R146). -/
def dsuFormat (u : Dsu) : Format := .sample u.w16 u.pred u.dh

/-- One sample of the DSU (R131). -/
def stepDsu (s : State) : Host.Outcome State Fault Refusal :=
  if s.dsu.frames * s.dsu.chans ≤ s.dsu.count then .next (s.setDsu { s.dsu with bank := complete s.dsu.bank })
  else
    match decodeStream (dsuFormat s.dsu) (dsuInput s) (dsuCursor s.dsu) with
    | .error e => .next (s.setDsu (dsuFail (dsuMove s.dsu e.cursor) e.cause))
    | .ok (i, c) => exec i (s.setDsu (dsuMove s.dsu c))

/-- What the PEU reads next: an event, or inside one (K > 0) its next pair (R162, R164). -/
def peuFormat (u : Peu) : Format := if u.k = 0 then .track else .pair

/-- One event of the PEU (R162), or one pair of an event in progress. -/
def stepPeu (s : State) : Host.Outcome State Fault Refusal :=
  if s.peu.k = 0 ∧ s.peu.rows ≤ s.peu.row then .next (s.setPeu { s.peu with bank := complete s.peu.bank })
  else
    match decodeStream (peuFormat s.peu) (peuInput s) (peuCursor s.peu) with
    | .error e => .next (s.setPeu (peuFail (peuMove s.peu e.cursor) e.cause))
    | .ok (i, c) => exec i (s.setPeu (peuMove s.peu c))

/-- The oldest pending host access: the instruction it is, or a plain access (R211, R224). -/
def stepHost (s : State) : Host.Outcome State Fault Refusal :=
  match s.host with
  | [] => .next s
  | op :: rest =>
    match decodeHost op with
    | some i => exec i (s.setHost rest)
    | none => hostAccess op (s.setHost rest)

/-- The step of one agent. -/
def stepAgent (a : Agent) (s : State) : Host.Outcome State Fault Refusal :=
  match a with
  | .host => stepHost s
  | .lzu => stepLzu s
  | .dsu => stepDsu s
  | .peu => stepPeu s

/-! ## Who moves -/

/-- Every agent. -/
def allAgents : List Agent := [.host, .lzu, .dsu, .peu]

/-- Can the agent move: a unit while BUSY (R221), the host while an access is pending, but not in the middle of an
event, which is atomic (R56). -/
def ready (s : State) : Agent → Bool
  | .host => !s.host.isEmpty && !(s.peu.bank.state == .busy && s.peu.k != 0)
  | .lzu => s.lzu.bank.state == .busy
  | .dsu => s.dsu.bank.state == .busy
  | .peu => s.peu.bank.state == .busy

/-- The first turn of an agenda whose agent can move, and the agenda behind it. -/
def nextTurn (can : Agent → Bool) : List Agent → Option (Agent × List Agent)
  | [] => none
  | a :: t => if can a then some (a, t) else nextTurn can t

/-- A round of turns: any turns at all, then those agents they leave out, so that every agent has one (D2). -/
def fairRound (n : Nat) : List Agent :=
  Config.turnRound n ++ allAgents.filter fun a => !(Config.turnRound n).contains a

/-- Who moves, and the state with the agenda advanced: nobody if no agent can, the one that can if it is alone, else
the next turn of the agenda, or of a new round when the agenda has none (D2, R238). -/
def choose (s : State) : Option (Agent × State) :=
  match allAgents.filter (ready s) with
  | [] => none
  | [a] => some (a, s)
  | a :: _ =>
    match nextTurn (ready s) s.agenda with
    | some (b, t) => some (b, s.setAgenda t s.rounds)
    | none =>
      match nextTurn (ready s) (fairRound s.rounds) with
      | some (b, t) => some (b, s.setAgenda t (s.rounds + 1))
      | none => some (a, s)

/-- One step of the machine. With nobody to move nothing changes (R221, 93 S10). -/
def runStep (s : State) : Host.Outcome State Fault Refusal :=
  match choose s with
  | none => .next s
  | some (a, s1) => stepAgent a s1

/-! ## Putting an instruction where the next step fetches -/

/-- Bytes as the written contents of an input space, from index `a` on. -/
def storeOfBytes : Nat → List Byte → Store Byte
  | _, [] => []
  | a, b :: t => (a, b) :: storeOfBytes (a + 1) t

/-- A bank in an operation that has read nothing of an input of `len` bytes. -/
def busyBank (len : Nat) (b : Bank) : Bank := { b with state := .busy, cause := .none, ip := 0, len := len }

/-- The state in which the next step reads a token of the given format at the start of `bytes`: the unit BUSY with its
cursor at 0, as much room in its output as a token needs, and the next turn its own. -/
def placeBytes (f : Format) (bytes : List Byte) (s : State) : State :=
  match f with
  | .seed =>
    (s.setLzu
      { s.lzu with
        bank := busyBank bytes.length s.lzu.bank, input := storeOfBytes 0 bytes, cbd := cbdStart
        w := 0, n := max s.lzu.n 1 }).setAgenda (.lzu :: s.agenda) s.rounds
  | .lz =>
    (s.setLzu
      { s.lzu with
        bank := busyBank bytes.length s.lzu.bank, input := storeOfBytes 0 bytes, cbd := cbdStart
        w := max s.lzu.w 1, n := max s.lzu.n (max s.lzu.w 1 + 1) }).setAgenda (.lzu :: s.agenda) s.rounds
  | .sample w16 pred dh =>
    (s.setDsu
      { s.dsu with
        bank := busyBank bytes.length s.dsu.bank, input := storeOfBytes 0 bytes, cbd := cbdStart
        w16 := w16, pred := pred, dh := dh, chans := max s.dsu.chans 1
        frames := max s.dsu.frames (s.dsu.count + 1) }).setAgenda (.dsu :: s.agenda) s.rounds
  | .track =>
    (s.setPeu
      { s.peu with
        bank := busyBank bytes.length s.peu.bank, input := storeOfBytes 0 bytes, k := 0
        rows := max s.peu.rows (s.peu.row + 1) }).setAgenda (.peu :: s.agenda) s.rounds
  | .pair =>
    (s.setPeu
      { s.peu with
        bank := busyBank bytes.length s.peu.bank, input := storeOfBytes 0 bytes, k := 1, cb := 0x01
        rows := max s.peu.rows (s.peu.row + 1) }).setAgenda (.peu :: s.agenda) s.rounds

end Sys2Proof.Machine
end

