-- ==== Sys2Proof/Machine/Step.lean ====
section
/-! DEFINITION. step, and the state in which the next step runs a given word of the opcode table. -/

namespace Sys2Proof.Machine

/-- One step of the machine (R7, R238). -/
def step (s : State) : Host.Outcome State Fault Refusal := runStep s

/-- The state with a table word stored where the next step fetches its instruction (log entries 10 and 11). -/
def State.withFetchWord (s : State) (nbits w : Nat) : State := placeBytes (tableFormat nbits w) (tableBytes w) s

end Sys2Proof.Machine
end

