-- ==== Sys2Proof/WellFormed.lean ====
section
/-! DEFINITION. Which instructions have an encoding: the operand ranges the spec gives each token. -/

namespace Sys2Proof

/-- A gamma value: at least 2 (R103), and below 2^32, where LengthOverflow begins (R102). -/
def gammaWf (g : Nat) : Bool := decide (2 ≤ g) && decide (g < 2 ^ 32)

/-- A length field: two bits that are not 00, or an extension gamma code (R74). -/
def lengthCodeWf : LengthCode → Bool
  | .short l => l != 0
  | .extended g2 => gammaWf g2

/-- An 8-bit sample code: the general format, at least one pair, DH in 1..7 raw bits (R79, R135, R149). -/
def sampleCode8Wf : SampleCode → Bool
  | .general vals raw => !vals.isEmpty && decide (1 ≤ raw.length) && decide (raw.length ≤ 7)
  | .narrow _ _ => false

/-- A 16-bit sample code: the narrow format exactly when DH < 5, DH in 1..15 (R79, R135, R149). -/
def sampleCode16Wf : SampleCode → Bool
  | .general vals raw => !vals.isEmpty && decide (5 ≤ raw.length) && decide (raw.length ≤ 15)
  | .narrow vals raw => !vals.isEmpty && decide (1 ≤ raw.length) && decide (raw.length < 5)

/-- The instruction is one its encoding admits. -/
def Instr.wf : Instr → Bool
  | .seed _ => true
  | .lit _ => true
  | .matchNew g _ len => decide (3 ≤ g) && gammaWf g && lengthCodeWf len
  | .matchReuse len => lengthCodeWf len
  | .delta8Plain code => sampleCode8Wf code
  | .delta8Pred code => sampleCode8Wf code
  | .delta16Plain code => sampleCode16Wf code
  | .delta16Pred code => sampleCode16Wf code
  | .evtEnd => true
  | .evt rep pairs => decide (pairs.length ≤ 15) && !(rep == 0 && pairs.isEmpty)
  | .cmdNote code _ => Machine.cmdTable code == .note
  | .cmdVolslide code _ => Machine.cmdTable code == .volslide
  | .cmdInstr code _ => Machine.cmdTable code == .instr
  | .cmdToneporta code _ => Machine.cmdTable code == .toneporta
  | .cmdVibrato code _ => Machine.cmdTable code == .vibrato
  | .cmdPanning code _ => Machine.cmdTable code == .panning
  | .cmdVolume code _ => Machine.cmdTable code == .volume
  | .cmdPatternbreak code _ => Machine.cmdTable code == .patternbreak
  | .cmdTempospeed code _ => Machine.cmdTable code == .tempospeed
  | .cmdFixedEff code tag _ => Machine.cmdTable code == .fixedEff tag
  | .cmdFixedVol code tag _ => Machine.cmdTable code == .fixedVol tag
  | .cmdUnmapped code _ => Machine.cmdTable code == .unmapped
  | .hostStart _ => true

end Sys2Proof
end

