-- ==== Sys2Proof/Safety.lean ====
section
/-! DEFINITION. What counts as a good state and a good operation, in the terms the claims use. -/

namespace Sys2Proof.Machine

/-- A bank's own promises: CAUSE is 0 unless FAIL and not 0 in FAIL (R27, R206), the reserved bits of CONFIG are 0
(R34), the cursor never passes the latched IN_LEN (R22). -/
def bankInv (u : UnitId) (b : Bank) : Prop :=
  (b.cause = .none ↔ b.state ≠ .fail) ∧ b.config &&& configMask u = b.config ∧ b.ip ≤ b.len

/-- The LZU's promises: a BUSY unit has room for its next token, a DONE one has written all N bytes (R20, R122). -/
def lzuInv (u : Lzu) : Prop :=
  bankInv .lzu u.bank ∧ (u.bank.state = .busy → u.w < u.n) ∧ (u.bank.state = .done → u.w = u.n)

/-- The sample registers stay in their width (R20, R149). -/
def dsuRanges (w : Nat) (u : Dsu) : Prop :=
  1 ≤ u.dh ∧ u.dh ≤ shiftOf w ∧
  -(2 ^ (w - 1) : Int) ≤ u.prev ∧ u.prev < (2 ^ (w - 1) : Int) ∧
  -(2 ^ (w - 1) : Int) ≤ u.next ∧ u.next < (2 ^ (w - 1) : Int) ∧
  -(2 ^ (w - 1) : Int) ≤ u.prevp ∧ u.prevp < (2 ^ (w - 1) : Int)

/-- The width W of the sample codes (R130). -/
def widthOf (w16 : Bool) : Nat := if w16 then 16 else 8

/-- The width of the operation (R130). -/
def dsuWidth (u : Dsu) : Nat := widthOf u.w16

/-- The DSU's promises: while BUSY its place is inside the F * C samples and is the count-th in channel order, and the
registers keep their ranges; when DONE all F * C samples are written (R20, R58, R131, R147, R149). -/
def dsuInv (u : Dsu) : Prop :=
  bankInv .dsu u.bank ∧
  (u.bank.state = .busy →
    u.fr < u.frames ∧ u.ch < u.chans ∧ u.count = u.ch * u.frames + u.fr ∧ dsuRanges (dsuWidth u) u) ∧
  (u.bank.state = .done → u.count = u.frames * u.chans)

/-- The PEU's promises: K is a pair count, and a BUSY unit between events has a row to write (R20, R162, R180). -/
def peuInv (u : Peu) : Prop :=
  bankInv .peu u.bank ∧ u.k ≤ 15 ∧ (u.bank.state = .busy → u.k = 0 → u.row < u.rows)

/-- An operation fits the spaces: what START checked holds as long as the unit is BUSY (R58, R207). -/
def fitsSpaces (s : State) : Prop :=
  (s.lzu.bank.state = .busy → s.lzu.bank.len ≤ Config.inCap.val ∧ s.lzu.n ≤ Config.outCap.val) ∧
  (s.dsu.bank.state = .busy →
    s.dsu.bank.len ≤ Config.inCap.val ∧ s.dsu.frames * s.dsu.chans ≤ Config.smpCap.val) ∧
  (s.peu.bank.state = .busy → s.peu.bank.len ≤ Config.inCap.val ∧ s.peu.rows ≤ Config.cellCap.val)

/-- The promises of the three units together. -/
def unitsInv (s : State) : Prop := lzuInv s.lzu ∧ dsuInv s.dsu ∧ peuInv s.peu

/-- No unit is BUSY and no host access is pending: there is nothing to do (R221). -/
def quiet (s : State) : Prop :=
  s.lzu.bank.state ≠ .busy ∧ s.dsu.bank.state ≠ .busy ∧ s.peu.bank.state ≠ .busy ∧ s.host = []

/-- The step of a unit. -/
def stepUnit (u : UnitId) (s : State) : Host.Outcome State Fault Refusal :=
  match u with
  | .lzu => stepLzu s
  | .dsu => stepDsu s
  | .peu => stepPeu s

/-- The agent a unit is. -/
def unitAgent : UnitId → Agent
  | .lzu => .lzu
  | .dsu => .dsu
  | .peu => .peu

/-- The unit `u`, its bank and spaces with it, is the same in both states. -/
def sameUnit (u : UnitId) (s t : State) : Prop :=
  match u with
  | .lzu => t.lzu = s.lzu
  | .dsu => t.dsu = s.dsu
  | .peu => t.peu = s.peu

/-- The state after a STATUS read of a unit whose operation has ended: the reply, and the mark that the host has seen the
end (R60, R62; log entry 12). -/
def afterEndSeen (u : UnitId) (s : State) : State :=
  setBank { s with replies := .word (readRegister s u 0x04) :: s.replies } u { bankState s u with seen := true }

/-- At most `n` steps of one unit, until it is no longer BUSY. -/
def runUnit (u : UnitId) : Nat → State → State
  | 0, s => s
  | n + 1, s =>
    if (bankState s u).state = .busy then
      match stepUnit u s with
      | .next t => runUnit u n t
      | .fault _ => s
      | .refused _ => s
    else s

/-- Tokens decoded one after another, each in the format given for it. -/
def decodeTokens (inp : Input) : List Format → Cursor → Option (List Instr)
  | [], _ => some []
  | f :: fs, c =>
    match decodeStream f inp c with
    | .error _ => none
    | .ok (i, c1) => (decodeTokens inp fs c1).map fun l => i :: l

/-- `n` sample codes decoded one after another, each under the DH the codes before it leave (R135, R138). -/
def decodeCodes (w16 : Bool) (inp : Input) : Nat → Nat → Cursor → Option (List SampleCode)
  | 0, _, _ => some []
  | n + 1, dh, c =>
    match decodeCode w16 dh inp c with
    | .error _ => none
    | .ok (code, c1) =>
      (decodeCodes w16 inp n (nextWidth dh (extraLength (widthOf w16) (rawCode (widthOf w16) code))) c1).map
        fun l => code :: l

/-- Sample codes that can stand one behind another from a DH on: each well-formed, with as many raw bits as the DH in
force, which adapts from code to code (R79, R138). -/
def codesFollow (w16 : Bool) : Nat → List SampleCode → Bool
  | _, [] => true
  | dh, code :: rest =>
    (if w16 then sampleCode16Wf code else sampleCode8Wf code) && (rawBits code).length == dh &&
      codesFollow w16 (nextWidth dh (extraLength (widthOf w16) (rawCode (widthOf w16) code))) rest

/-- The symbols of a stream instruction; none for a host access. -/
def symbolsOf (i : Instr) : List Sym :=
  match encode i with
  | .stream syms => syms
  | .bus _ => []

/-- Bits as a number, most significant first (R51). -/
def bitsValue (v : Nat) (bs : List Bool) : Nat := bs.foldl (fun v b => 2 * v + bitNat b) v

/-- One of the gamma codes of a match stops with `e`, the match standing at `c`: the first, behind the control bit 1, or
the extension behind the offset byte, if there is one, and the length bits 00 (R74, R114 to R117). -/
def matchGammaStops (inp : Input) (c : Cursor) (e : Stop) : Prop :=
  ∃ c1, readBit inp c = .ok (true, c1) ∧
    (decodeLength inp c1 = .error e ∨
      ∃ g c2 c3 c4, decodeLength inp c1 = .ok (g, c2) ∧
        (if g = 2 then c3 = c2 else ∃ x, fetch inp c2 = .ok (x, c3)) ∧
        readBits inp 2 c3 = .ok ([false, false], c4) ∧ decodeLength inp c4 = .error e)

/-- A bank in FAIL with a cause, nothing else changed (R206). -/
def failedBank (b : Bank) (c : Cause) : Bank := { b with state := .fail, cause := c }

/-- A bank in DONE if `full`, else unchanged (R121, R147, R180). -/
def doneIf (full : Prop) [Decidable full] (b : Bank) : Bank := if full then { b with state := .done } else b

/-- How many bytes of SMP the F * C samples of the operation take (R40). -/
def sampleBytes (u : Dsu) : Nat := (if u.w16 then 2 else 1) * (u.frames * u.chans)

end Sys2Proof.Machine
end

