-- ==== Sys2Proof/Certificates/Slice0/Obligations.lean ====
section
/-! DEFINITION. The statements about the machine, made from the numbered rules of spec/. Each says which rule it
formalises; where it rests on a choice of the model, the docstring names the log entry. -/

open Sys2Proof
open Sys2Proof.Machine

/-! ## Encoding -/

/-- A few words written out from the encodings of R74, R79, R81 and R211 decode to the instructions they stand for. -/
def Obligations.WrittenWordsDecode : Prop :=
  decodeStream .seed (inputOf [0x48]) Cursor.fresh = .ok (.seed 0x48, { ip := 1, data := 0, carry := false }) ∧
  decodeStream .lz (inputOf [0x00, 0x45]) Cursor.fresh = .ok (.lit 0x45, { ip := 2, data := 0x01, carry := false }) ∧
  decodeStream .lz (inputOf [0xC8, 0x01]) Cursor.fresh =
    .ok (.matchNew 3 0x01 (.short 1), { ip := 2, data := 0x10, carry := true }) ∧
  decodeStream .lz (inputOf [0x98]) Cursor.fresh =
    .ok (.matchReuse (.short 3), { ip := 1, data := 0x10, carry := true }) ∧
  decodeStream (.sample false false 4) (inputOf [0x04]) Cursor.fresh =
    .ok (.delta8Plain (.general [false] [false, false, false, true]), { ip := 1, data := 0x20, carry := true }) ∧
  decodeStream (.sample true true 4) (inputOf [0x42]) Cursor.fresh =
    .ok (.delta16Pred (.narrow [(false, true)] [false, false, false, true]), { ip := 1, data := 0x40, carry := true }) ∧
  decodeStream .track (inputOf [0x11, 0x01, 0x3C]) Cursor.fresh =
    .ok (.evt 1 [(0x01, 0x3C)], { ip := 3, data := 0, carry := false }) ∧
  decodeStream .pair (inputOf [0x22, 0x0F]) Cursor.fresh =
    .ok (.cmdVolslide 0x22 0x0F, { ip := 2, data := 0, carry := false }) ∧
  decodeHost (.writeReg 0x40 4 0x00000001) = some (.hostStart .dsu)

/-- Decode and encode agree on every stream instruction: the bytes of a well-formed one, standing at the start of a
control byte, decode to it and are consumed whole (R72, R74, R79, R81). -/
def Obligations.DecodeOfEncode : Prop :=
  ∀ (i : Instr) (f : Format), i.wf = true → formatOf i = some f →
    ∃ c, decodeStream f (inputOf (encodeBytes i)) Cursor.fresh = .ok (i, c) ∧ c.ip = (encodeBytes i).length

/-- Tokens one behind another that share control bytes decode back in order: LZ tokens, sample codes, track tokens and
pairs, each read in its own format (R70, R74, R79, R81, R88); and sample codes decode back under the DH that adapts from
code to code, whichever width (R78, R135, R138). -/
def Obligations.TokenSequencesDecodeBack : Prop :=
  (∀ toks : List Instr, (∀ i ∈ toks, i.wf = true ∧ formatOf i ≠ none) →
    decodeTokens (inputOf (pack 0 (toks.flatMap symbolsOf))) (toks.filterMap formatOf) Cursor.fresh = some toks) ∧
  ∀ (w16 : Bool) (dh : Nat) (codes : List SampleCode), codesFollow w16 dh codes = true →
    decodeCodes w16 (inputOf (pack 0 (codes.flatMap fun code => bitSyms (encodeCode code)))) codes.length dh
      Cursor.fresh = some codes

/-- A host access is an instruction exactly when it is a whole word write of a bank's CTRL with bit 0 = 1, and then it
is that bank's START (R26, R53, R211). -/
def Obligations.HostStartEncoding : Prop :=
  ∀ (op : HostOp) (i : Instr),
    decodeHost op = some i ↔
      ∃ (u : UnitId) (v : Word), op = .writeReg (bankBase u) 4 v ∧ v.getLsbD 0 = true ∧ i = .hostStart u

/-- DecodeLength returns g exactly when the control bits ahead, wherever the cursor stands, are a gamma code of k pairs
(d1 1)(d2 1)..(dk 0) with 1 <= k <= 31, g is the binary number 1 d1 .. dk, and the cursor ends behind them; a code of k
pairs has a value of 2^k .. 2^(k+1) - 1 (R72, R102, R103). It stops exactly in two cases: LengthOverflow at the 32nd data
bit behind 31 continue bits 1, the cursor behind that bit; and the StreamExhausted of the ReadBit that finds no byte to
fetch, at any data or continue bit up to that 32nd data bit (R100, R102, R203, R205, R208). -/
def Obligations.GammaCodeValue : Prop :=
  (∀ (inp : Input) (c c' : Cursor) (g : Nat),
    decodeLength inp c = .ok (g, c') ↔
      ∃ ds : List Bool, ds ≠ [] ∧ ds.length ≤ 31 ∧ readBits inp (2 * ds.length) c = .ok (gammaPairs ds, c') ∧
        g = bitsValue 1 ds) ∧
  (∀ ds : List Bool, ds ≠ [] →
    2 ^ ds.length ≤ bitsValue 1 ds ∧ bitsValue 1 ds ≤ 2 ^ (ds.length + 1) - 1 ∧ 2 ≤ bitsValue 1 ds) ∧
  (∀ (inp : Input) (c : Cursor) (e : Stop),
    decodeLength inp c = .error e ↔
      (∃ (ds : List Bool) (d : Bool) (c' : Cursor), ds.length = 31 ∧
        readBits inp 63 c = .ok (ds.flatMap (fun b => [b, true]) ++ [d], c') ∧
        e = { cause := .lengthOverflow, cursor := c' }) ∨
      ∃ (ds : List Bool) (c1 : Cursor), ds.length ≤ 31 ∧
        readBits inp (2 * ds.length) c = .ok (ds.flatMap (fun b => [b, true]), c1) ∧
        (readBit inp c1 = .error e ∨
          ds.length ≤ 30 ∧ ∃ d c2, readBit inp c1 = .ok (d, c2) ∧ readBit inp c2 = .error e)) ∧
  ∀ (inp : Input) (c : Cursor) (e : Stop),
    readBit inp c = .error e ↔
      inp.len ≤ c.ip ∧ 2 * c.data.toNat % 256 = 0 ∧
        e = { cause := .streamExhausted, cursor := { ip := c.ip, data := 0, carry := c.data.getLsbD 7 } }

/-- From DATA = 0 the first k ReadBits (1 <= k <= 8) deliver b[7], b[6], .. of the next byte b, leave DATA =
({b[6:0], 1} << (k-1))[7:0], and take that one byte; from DATA = 0x80 the next ReadBit takes the byte behind it
(R71, R101). -/
def Obligations.ControlByteDelivery : Prop :=
  ∀ (inp : Input) (c : Cursor), c.ip < inp.len →
    (c.data = 0 → ∀ k, 1 ≤ k → k ≤ 8 →
      readBits inp k c =
        .ok ((List.range k).map (fun j => (inp.get c.ip).getLsbD (7 - j)),
          { ip := c.ip + 1
            data := BitVec.ofNat 8 ((2 * (inp.get c.ip).toNat + 1) * 2 ^ (k - 1))
            carry := (inp.get c.ip).getLsbD (8 - k) })) ∧
    (c.data = 0x80 →
      readBit inp c =
        .ok ((inp.get c.ip).getLsbD 7,
          { ip := c.ip + 1
            data := BitVec.ofNat 8 (2 * (inp.get c.ip).toNat + 1)
            carry := (inp.get c.ip).getLsbD 7 }))

/-- The magnitude bonuses depend on the gamma value alone: the thresholds -1280 and -32000 are passed exactly from
g = 8 and g = 128 on, and ADJ is 1, 2 or 3 (R76); and every L of 1 .. 2^32 + 1 has exactly one length field, the two
length bits for 1 .. 3 and an extension from 4 on (R75 to R77; above that the gamma code overflows, R102). -/
def Obligations.MatchLengthOperands : Prop :=
  (∀ (g : Nat) (x : Byte), 3 ≤ g →
    (matchOffset g x < -1280 ↔ 8 ≤ g) ∧ (matchOffset g x < -32000 ↔ 128 ≤ g) ∧
    matchBonus (matchOffset g x) = (if g ≤ 7 then 1 else if g ≤ 127 then 2 else 3)) ∧
  ∀ l : Nat, 1 ≤ l → l ≤ 2 ^ 32 + 1 →
    ∃ len, (lengthCodeWf len = true ∧ lengthBase len = l) ∧ ((∃ k, len = .short k) ↔ l ≤ 3) ∧
      ∀ len', lengthCodeWf len' = true → lengthBase len' = l → len' = len

/-- The raw code of a sample is truncW(P * 2^DH + r), P the value bits and r the raw bits read as numbers (R79, R136). -/
def Obligations.RawCodeValue : Prop :=
  ∀ (w : Nat) (code : SampleCode),
    (rawCode w code).toNat =
      (bitsValue 0 (valueBits code) * 2 ^ (rawBits code).length + bitsValue 0 (rawBits code)) % 2 ^ w

/-- Every W-bit delta has exactly one raw code: V = 2d + 1 for d >= 0 and V = -2d - 2 for d < 0 (R80, R139), for W = 8
and W = 16. -/
def Obligations.DeltaHasOneRawCode : Prop :=
  ∀ (w : Nat), w = 8 ∨ w = 16 → ∀ (v : BitVec w) (d : Int),
    -(2 ^ (w - 1) : Int) ≤ deltaOf v ∧ deltaOf v < (2 ^ (w - 1) : Int) ∧
    (-(2 ^ (w - 1) : Int) ≤ d → d < (2 ^ (w - 1) : Int) →
      (deltaOf v = d ↔ (v.toNat : Int) = if 0 ≤ d then 2 * d + 1 else -2 * d - 2))

/-- E is in 1..S(W) and the new width stays in 1..S(W), for both widths (R137, R138, R149). -/
def Obligations.WidthStaysInRange : Prop :=
  ∀ (w : Nat), w = 8 ∨ w = 16 → ∀ (v : BitVec w) (dh : Nat),
    (1 ≤ extraLength w v ∧ extraLength w v ≤ shiftOf w) ∧
    (1 ≤ dh → dh ≤ shiftOf w →
      1 ≤ nextWidth dh (extraLength w v) ∧ nextWidth dh (extraLength w v) ≤ shiftOf w) ∧
    (1 ≤ dhInit false ∧ dhInit false ≤ shiftOf 8 ∧ 1 ≤ dhInit true ∧ dhInit true ≤ shiftOf 16)

/-! ## LZ tokens -/

/-- SEED completes from every state: OUT[0] = b, W = 1, DONE if that is the whole output; nothing else changes (R111). -/
def Obligations.SeedCompletes : Prop :=
  ∀ (b : Byte) (s : State),
    ∃ m, exec (.seed b) s =
        .next { s with lzu := { s.lzu with out := m, w := 1, bank := doneIf (s.lzu.n ≤ 1) s.lzu.bank } } ∧
      ∀ a, byteAt (blankBytes s .out) m a = if a = 0 then b else s.byte .out a

/-- LIT completes from every state: OUT[W] = b, W + 1, DONE if the output is full; nothing else changes (R113). -/
def Obligations.LitCompletes : Prop :=
  ∀ (b : Byte) (s : State),
    ∃ m, exec (.lit b) s =
        .next { s with
          lzu := { s.lzu with
            out := m, w := s.lzu.w + 1, bank := doneIf (s.lzu.n ≤ s.lzu.w + 1) s.lzu.bank } } ∧
      ∀ a, byteAt (blankBytes s .out) m a = if a = s.lzu.w then b else s.byte .out a

/-- MATCH_NEW completes whenever its source lies in the output and its length fits: G, OFF, ADJ, PREV_OFF and LEN are as
R115 and R117 say, W grows by LEN, each byte written is the byte OFF before it, and nothing else changes. -/
def Obligations.MatchNewCompletes : Prop :=
  ∀ (g : Nat) (x : Byte) (len : LengthCode) (s : State),
    let off : Int := -(256 * ((g : Int) - 3) + x.toNat) - 1
    let adj : Nat := (if off < -1280 then 1 else 0) + 1 + (if off < -32000 then 1 else 0)
    let total : Nat := (match len with | .short l => l.toNat | .extended g2 => g2 + 2) + adj
    (Instr.matchNew g x len).wf = true → 0 ≤ (s.lzu.w : Int) + off → (total : Int) ≤ s.lzu.n - s.lzu.w →
    ∃ m, exec (.matchNew g x len) s =
        .next { s with
          lzu := { s.lzu with
            g := g, off := off, adj := adj, prevOff := off, len := total, out := m, w := s.lzu.w + total
            bank := doneIf (s.lzu.n ≤ s.lzu.w + total) s.lzu.bank } } ∧
      (∀ a, a < s.lzu.w ∨ s.lzu.w + total ≤ a → byteAt (blankBytes s .out) m a = s.byte .out a) ∧
      ∀ i, i < total →
        byteAt (blankBytes s .out) m (s.lzu.w + i) =
          byteAt (blankBytes s .out) m (((s.lzu.w + i : Nat) : Int) + off).toNat

/-- MATCH_REUSE completes whenever PREV_OFF points into the output and its length fits: OFF is PREV_OFF, no bonus, and
the rest as for MATCH_NEW (R116, R117). -/
def Obligations.MatchReuseCompletes : Prop :=
  ∀ (len : LengthCode) (s : State),
    let off : Int := s.lzu.prevOff
    let total : Nat := match len with | .short l => l.toNat | .extended g2 => g2 + 2
    (Instr.matchReuse len).wf = true → off < 0 → 0 ≤ (s.lzu.w : Int) + off →
    (total : Int) ≤ s.lzu.n - s.lzu.w →
    ∃ m, exec (.matchReuse len) s =
        .next { s with
          lzu := { s.lzu with
            g := 2, off := off, adj := 0, len := total, out := m, w := s.lzu.w + total
            bank := doneIf (s.lzu.n ≤ s.lzu.w + total) s.lzu.bank } } ∧
      (∀ a, a < s.lzu.w ∨ s.lzu.w + total ≤ a → byteAt (blankBytes s .out) m a = s.byte .out a) ∧
      ∀ i, i < total →
        byteAt (blankBytes s .out) m (s.lzu.w + i) =
          byteAt (blankBytes s .out) m (((s.lzu.w + i : Nat) : Int) + off).toNat

/-- CHECK of both match forms: a source at or after W or before 0 is BadOffset, tested first; a length past N is
LengthOverrun; both enter FAIL, write no byte and leave W (R119, R206, R208). -/
def Obligations.MatchChecks : Prop :=
  (∀ (g : Nat) (x : Byte) (len : LengthCode) (s : State), 3 ≤ g →
    let off := matchOffset g x
    let total := lengthBase len + matchBonus off
    ((s.lzu.w : Int) + off < 0 →
      exec (.matchNew g x len) s =
        .next { s with
          lzu := { s.lzu with
            g := g, off := off, adj := matchBonus off, prevOff := off, len := total
            bank := failedBank s.lzu.bank .badOffset } }) ∧
    (0 ≤ (s.lzu.w : Int) + off → (s.lzu.n : Int) - s.lzu.w < total →
      exec (.matchNew g x len) s =
        .next { s with
          lzu := { s.lzu with
            g := g, off := off, adj := matchBonus off, prevOff := off, len := total
            bank := failedBank s.lzu.bank .lengthOverrun } })) ∧
  (∀ (len : LengthCode) (s : State),
    let off := s.lzu.prevOff
    (0 ≤ off ∨ (s.lzu.w : Int) + off < 0 →
      exec (.matchReuse len) s =
        .next { s with
          lzu := { s.lzu with
            g := 2, off := off, adj := 0, len := lengthBase len, bank := failedBank s.lzu.bank .badOffset } }) ∧
    (off < 0 → 0 ≤ (s.lzu.w : Int) + off → (s.lzu.n : Int) - s.lzu.w < lengthBase len →
      exec (.matchReuse len) s =
        .next { s with
          lzu := { s.lzu with
            g := 2, off := off, adj := 0, len := lengthBase len
            bank := failedBank s.lzu.bank .lengthOverrun } }))

/-- COPY with OFF = -k repeats the k bytes before W, whatever its length: W grows by it, byte W + i is byte
W - k + (i mod k), and nothing else changes (R120). -/
def Obligations.CopyRepeatsPeriod : Prop :=
  ∀ (blank : Nat → Byte) (u : Lzu) (k n : Nat), 1 ≤ k → k ≤ u.w →
    let v := lzuCopy blank (-(k : Int)) n u
    v = { u with out := v.out, w := u.w + n } ∧
    (∀ i, i < n → byteAt blank v.out (u.w + i) = byteAt blank u.out (u.w - k + i % k)) ∧
    ∀ a, a < u.w ∨ u.w + n ≤ a → byteAt blank v.out a = byteAt blank u.out a

/-- Every LZU operation ends within N - W further tokens, in DONE with W = N or in FAIL (R122, R124). -/
def Obligations.LzuOperationEnds : Prop :=
  ∀ s : State, lzuInv s.lzu → s.lzu.bank.state = .busy →
    let t := runUnit .lzu (s.lzu.n - s.lzu.w) s
    (t.lzu.bank.state = .done ∧ t.lzu.w = s.lzu.n) ∨ t.lzu.bank.state = .fail

/-- A stream whose control bits are all 0 decodes to the seed and the literal bytes in order, control bytes left out
(R123). -/
def Obligations.LiteralStreamDecodes : Prop :=
  ∀ (b : Byte) (bs : List Byte) (s : State),
    let bytes := pack 0 (.byte b :: bs.flatMap fun x => [.bit false, .byte x])
    s.lzu.bank.state = .busy → s.lzu.w = 0 → s.lzu.n = bs.length + 1 → s.lzu.cbd = cbdStart →
    s.lzu.bank.ip = 0 → s.lzu.bank.len = bytes.length → s.lzu.input = storeOfBytes 0 bytes →
    let t := runUnit .lzu (bs.length + 1) s
    t.lzu.bank.state = .done ∧ ∀ i (h : i < (b :: bs).length), t.byte .out i = (b :: bs)[i]

/-! ## Sample codes -/

/-- The plain forms DELTA8_PLAIN and DELTA16_PLAIN complete from every state: V, E (1 for V < 4, else the place of V's
top bit) and DH; PREV is the old PREV plus d, wrapped to the width; PREV is written at place FR*C + CH, the least
significant byte first; then the loop of R131 goes on. Nothing else changes (R137 to R140, R142, R143, R145). -/
def Obligations.PlainSampleCompletes : Prop :=
  ∀ (w16 : Bool) (code : SampleCode) (s : State),
    let w := if w16 then 16 else 8
    let v := rawCode w code
    let j := s.dsu.fr * s.dsu.chans + s.dsu.ch
    ∃ (m : Store Byte) (e : Nat) (out : Int),
      exec (if w16 then .delta16Plain code else .delta8Plain code) s =
        .next { s with
          dsu := dsuFinish (dsuAdvance
            { s.dsu with
              v := v.setWidth 16, e := e, dh := (s.dsu.dh + e) / 2, prev := out, smp := m
              count := s.dsu.count + 1 }) } ∧
      (v.toNat < 4 → e = 1) ∧ (4 ≤ v.toNat → 2 ^ e ≤ v.toNat ∧ v.toNat < 2 ^ (e + 1)) ∧
      -(2 ^ (w - 1) : Int) ≤ out ∧ out < (2 ^ (w - 1) : Int) ∧
      (∃ k : Int, out = s.dsu.prev + deltaOf v + k * 2 ^ w) ∧
      ∀ a, byteAt (blankBytes s .smp) m a =
        if w16 then
          (if a = 2 * j then BitVec.ofInt 8 out
           else if a = 2 * j + 1 then BitVec.ofInt 8 (out / 256) else s.byte .smp a)
        else if a = j then BitVec.ofInt 8 out else s.byte .smp a

/-- The predictive forms DELTA8_PRED and DELTA16_PRED complete from every state: the sample is NEXT + d wrapped to the
width, NEXT becomes clamp(2*value + floor(d/2) - PREVP) in the type's range, PREVP the sample; the rest as for the
plain forms (R141, R144, R146). -/
def Obligations.PredictiveSampleCompletes : Prop :=
  ∀ (w16 : Bool) (code : SampleCode) (s : State),
    let w := if w16 then 16 else 8
    let v := rawCode w code
    let j := s.dsu.fr * s.dsu.chans + s.dsu.ch
    ∃ (m : Store Byte) (e : Nat) (out next : Int),
      exec (if w16 then .delta16Pred code else .delta8Pred code) s =
        .next { s with
          dsu := dsuFinish (dsuAdvance
            { s.dsu with
              v := v.setWidth 16, e := e, dh := (s.dsu.dh + e) / 2, next := next, prevp := out, smp := m
              count := s.dsu.count + 1 }) } ∧
      (v.toNat < 4 → e = 1) ∧ (4 ≤ v.toNat → 2 ^ e ≤ v.toNat ∧ v.toNat < 2 ^ (e + 1)) ∧
      -(2 ^ (w - 1) : Int) ≤ out ∧ out < (2 ^ (w - 1) : Int) ∧
      (∃ k : Int, out = s.dsu.next + deltaOf v + k * 2 ^ w) ∧
      next = min (max (2 * out + deltaOf v / 2 - s.dsu.prevp) (-(2 ^ (w - 1) : Int))) (2 ^ (w - 1) - 1 : Int) ∧
      ∀ a, byteAt (blankBytes s .smp) m a =
        if w16 then
          (if a = 2 * j then BitVec.ofInt 8 out
           else if a = 2 * j + 1 then BitVec.ofInt 8 (out / 256) else s.byte .smp a)
        else if a = j then BitVec.ofInt 8 out else s.byte .smp a

/-- The loop of R131 behind a sample, and its end: the next frame of the channel; behind the last frame the next channel
at frame 0, with DH, PREV, NEXT and PREVP at their initial values exactly if DELTA_CHANNEL_RESET (R132); DONE when
count = F * C, and no other register changes (R147). That FR = 0 and CH = C stand behind the last sample of the operation is
the model's choice (log entry 1): R131's loops end there, and 93 S1 leaves both any value between operations. -/
def Obligations.SampleLoop : Prop :=
  ∀ u : Dsu,
    (u.fr + 1 < u.frames → dsuAdvance u = { u with fr := u.fr + 1 }) ∧
    (u.fr + 1 = u.frames → u.ch + 1 < u.chans →
      dsuAdvance u =
        if Config.deltaChannelReset then
          { u with fr := 0, ch := u.ch + 1, dh := if u.w16 then 8 else 4, prev := 0, next := 0, prevp := 0 }
        else { u with fr := 0, ch := u.ch + 1 }) ∧
    (u.fr + 1 = u.frames → u.ch + 1 = u.chans → dsuAdvance u = { u with fr := 0, ch := u.chans }) ∧
    (u.count < u.frames * u.chans → dsuFinish u = u) ∧
    (u.count = u.frames * u.chans → dsuFinish u = { u with bank := { u.bank with state := .done } })

/-- A zero delta (raw code 1) writes a PREV that is in range once more, for both plain forms and every frame, the last one
too; and PREV stays, but where a next channel begins with a fresh context, DELTA_CHANNEL_RESET (R132, R150). -/
def Obligations.ZeroDeltaKeepsPrev : Prop :=
  ∀ (w16 : Bool) (code : SampleCode) (s : State),
    let w := if w16 then 16 else 8
    let j := s.dsu.fr * s.dsu.chans + s.dsu.ch
    rawCode w code = 1 → -(2 ^ (w - 1) : Int) ≤ s.dsu.prev → s.dsu.prev < (2 ^ (w - 1) : Int) →
    ∃ t, exec (if w16 then .delta16Plain code else .delta8Plain code) s = .next t ∧
      (if w16 then t.byte .smp (2 * j) = BitVec.ofInt 8 s.dsu.prev ∧
          t.byte .smp (2 * j + 1) = BitVec.ofInt 8 (s.dsu.prev / 256)
        else t.byte .smp j = BitVec.ofInt 8 s.dsu.prev) ∧
      t.dsu.prev =
        if s.dsu.frames ≤ s.dsu.fr + 1 ∧ s.dsu.ch + 1 < s.dsu.chans ∧ Config.deltaChannelReset = true then 0
        else s.dsu.prev

/-- Every DSU operation ends within the samples it still has to write, in DONE with all F * C written or in FAIL
(R147, R151). -/
def Obligations.DsuOperationEnds : Prop :=
  ∀ s : State, dsuInv s.dsu → s.dsu.bank.state = .busy →
    let t := runUnit .dsu (s.dsu.frames * s.dsu.chans - s.dsu.count) s
    (t.dsu.bank.state = .done ∧ t.dsu.count = s.dsu.frames * s.dsu.chans) ∨ t.dsu.bank.state = .fail

/-! ## Track tokens -/

/-- EVT_END completes from every state: STATE is DONE and CB the 0x00 fetched; no cell, row or other register changes
(R162, R163). -/
def Obligations.EvtEndCompletes : Prop :=
  ∀ s : State,
    exec .evtEnd s = .next { s with peu := { s.peu with bank := { s.peu.bank with state := .done }, cb := 0x00 } }

/-- EVT completes from every state: WCELL is the pairs applied in order to Empty, K is 0, rows ROW .. ROW + REP that lie
below R hold it and no other row changes, ROW grows by REP + 1, DONE if it reaches R; nothing else changes (R164, R165,
R179). -/
def Obligations.EvtCompletes : Prop :=
  ∀ (rep : BitVec 4) (pairs : List (Byte × Byte)) (s : State), pairs.length ≤ 15 →
    let wcell := pairs.foldl (fun c p => applyClass (cmdTable p.1) s.peu.dialect p.2 c) emptyCell
    let row := s.peu.row + rep.toNat + 1
    ∃ m, exec (.evt rep pairs) s =
        .next { s with
          peu := { s.peu with
            cb := rep ++ BitVec.ofNat 4 pairs.length, k := 0, wcell := wcell, cells := m, row := row
            bank := doneIf (s.peu.rows ≤ row) s.peu.bank } } ∧
      ∀ r, cellAt (blankCells s) m r = if s.peu.row ≤ r ∧ r < row ∧ r < s.peu.rows then wcell else s.cell r

/-- An event is its head and then each of its pairs as an instruction of its own, in stream order: running the pairs'
instructions one by one from the head gives what EVT gives (R165, R166). -/
def Obligations.EvtIsItsPairs : Prop :=
  ∀ (rep : BitVec 4) (pairs : List (Byte × Byte)) (s : State),
    exec (.evt rep pairs) s =
      pairs.foldl
        (fun r p => match r with
          | .next t => exec (pairInstr p.1 p.2) t
          | .fault e => .fault e
          | .refused e => .refused e)
        (.next { s with peu := beginEvent rep pairs.length s.peu })

/-- A pair inside an event is counted, and the last one ends the event: WCELL goes to the rows of its span below R, ROW
grows by REP + 1, DONE when it reaches R (R164). Outside an event nothing is counted (log entry 19). -/
def Obligations.PairCounting : Prop :=
  ∀ (u : Peu) (blank : Nat → Cell),
    (u.k = 0 → pairDone u = u) ∧
    (2 ≤ u.k → pairDone u = { u with k := u.k - 1 }) ∧
    (u.k = 1 →
      let row := u.row + u.cb.toNat / 16 + 1
      ∃ m, pairDone u = { u with k := 0, cells := m, row := row, bank := doneIf (u.rows ≤ row) u.bank } ∧
        ∀ r, cellAt blank m r = if u.row ≤ r ∧ r < row ∧ r < u.rows then u.wcell else cellAt blank u.cells r)

/-- CMD_NOTE completes from every state: the note of the working cell is Off, Cut, Note(OP + NOTE_ORIGIN) or Fade by the
operand, the pair is counted, nothing else changes (R167). -/
def Obligations.NoteCompletes : Prop :=
  ∀ (code op : Byte) (s : State),
    ∃ note, exec (.cmdNote code op) s =
        .next { s with peu := pairDone { s.peu with wcell := { s.peu.wcell with note := note } } } ∧
      (op = 0xFF → note = .off) ∧ (op = 0xFE → note = .cut) ∧
      (op.toNat < 120 → note = .note ((op.toNat : Int) + Config.noteOrigin s.peu.dialect)) ∧
      (120 ≤ op.toNat → op.toNat ≤ 0xFD → note = .fade)

/-- CMD_INSTR, CMD_FIXED_EFF, CMD_FIXED_VOL and CMD_UNMAPPED complete from every state: the operand is the instrument
reference, the effect of the table's tag, the volume command of the table's tag, or nothing at all; the pair is counted,
nothing else changes (R168, R176, R177, R178). -/
def Obligations.FixedCommandsComplete : Prop :=
  ∀ (code op : Byte) (tag : Nat) (s : State),
    exec (.cmdInstr code op) s =
      .next { s with peu := pairDone { s.peu with wcell := { s.peu.wcell with instr := some op } } } ∧
    exec (.cmdFixedEff code tag op) s =
      .next { s with peu := pairDone { s.peu with wcell := { s.peu.wcell with eff := some (.other tag, op) } } } ∧
    exec (.cmdFixedVol code tag op) s =
      .next { s with peu := pairDone { s.peu with wcell := { s.peu.wcell with vol := some (.other tag, op) } } } ∧
    exec (.cmdUnmapped code op) s = .next { s with peu := pairDone s.peu }

/-- CMD_TONEPORTA and CMD_PANNING complete from every state: the volume column takes the command exactly on the operands
the dialect's rule names, the effect column on all others; the pair is counted, nothing else changes (R169, R171). -/
def Obligations.PortaAndPanningComplete : Prop :=
  ∀ (code op : Byte) (s : State),
    let d := s.peu.dialect
    (((d = .xm ∧ op.toNat % 16 = 0) ∨ (d = .it ∧ op ∈ itVolTpSet)) →
      exec (.cmdToneporta code op) s =
        .next { s with peu := pairDone { s.peu with wcell := { s.peu.wcell with vol := some (.toneporta, op) } } }) ∧
    (¬((d = .xm ∧ op.toNat % 16 = 0) ∨ (d = .it ∧ op ∈ itVolTpSet)) →
      exec (.cmdToneporta code op) s =
        .next { s with peu := pairDone { s.peu with wcell := { s.peu.wcell with eff := some (.toneporta, op) } } }) ∧
    (((d = .it ∧ op.toNat = 255) ∨ (op.toNat % 4 = 0 ∧ Config.panVolRange d op = true)) →
      exec (.cmdPanning code op) s =
        .next { s with peu := pairDone { s.peu with wcell := { s.peu.wcell with vol := some (.panning, op) } } }) ∧
    (¬((d = .it ∧ op.toNat = 255) ∨ (op.toNat % 4 = 0 ∧ Config.panVolRange d op = true)) →
      exec (.cmdPanning code op) s =
        .next { s with peu := pairDone { s.peu with wcell := { s.peu.wcell with eff := some (.panning8, op) } } })

/-- CMD_VIBRATO and CMD_VOLUME complete from every state: vibrato depth in the volume column for operands below 10 on
IT, volume in the volume column for operands up to 64 on every dialect but MOD, else the effect column; the pair is
counted, nothing else changes (R170, R172). -/
def Obligations.VibratoAndVolumeComplete : Prop :=
  ∀ (code op : Byte) (s : State),
    let d := s.peu.dialect
    ((op.toNat ≤ 9 ∧ d = .it) →
      exec (.cmdVibrato code op) s =
        .next { s with peu := pairDone { s.peu with wcell := { s.peu.wcell with vol := some (.vibDepth, op) } } }) ∧
    ((10 ≤ op.toNat ∨ d ≠ .it) →
      exec (.cmdVibrato code op) s =
        .next { s with peu := pairDone { s.peu with wcell := { s.peu.wcell with eff := some (.vibrato, op) } } }) ∧
    ((op.toNat ≤ 64 ∧ d ≠ .mod) →
      exec (.cmdVolume code op) s =
        .next { s with peu := pairDone { s.peu with wcell := { s.peu.wcell with vol := some (.volume, op) } } }) ∧
    ((65 ≤ op.toNat ∨ d = .mod) →
      exec (.cmdVolume code op) s =
        .next { s with peu := pairDone { s.peu with wcell := { s.peu.wcell with eff := some (.volume, op) } } })

/-- CMD_PATTERNBREAK and CMD_TEMPOSPEED complete from every state: the break row is the operand on IT and hi*10 + lo on
the others, with no clamp; operands below 0x20 are a speed, the rest a tempo; the pair is counted, nothing else changes
(R173, R174). -/
def Obligations.BreakAndTempoComplete : Prop :=
  ∀ (code op : Byte) (s : State),
    (∃ row : Byte,
      exec (.cmdPatternbreak code op) s =
        .next { s with
          peu := pairDone { s.peu with wcell := { s.peu.wcell with eff := some (.patternbreak, row) } } } ∧
      (s.peu.dialect = .it → row = op) ∧
      (s.peu.dialect ≠ .it → row.toNat = op.toNat / 16 * 10 + op.toNat % 16)) ∧
    (op.toNat < 32 →
      exec (.cmdTempospeed code op) s =
        .next { s with peu := pairDone { s.peu with wcell := { s.peu.wcell with eff := some (.speed, op) } } }) ∧
    (32 ≤ op.toNat →
      exec (.cmdTempospeed code op) s =
        .next { s with peu := pairDone { s.peu with wcell := { s.peu.wcell with eff := some (.tempo, op) } } })

/-- CMD_VOLSLIDE completes from every state: on IT and S3M an effect-column tone portamento or vibrato becomes the
combined command, everything else a plain volume slide, always with the slide's operand; the pair is counted, nothing
else changes (R175). -/
def Obligations.VolslideCompletes : Prop :=
  ∀ (code op : Byte) (s : State),
    ∃ cmd, exec (.cmdVolslide code op) s =
        .next { s with peu := pairDone { s.peu with wcell := { s.peu.wcell with eff := some (cmd, op) } } } ∧
      ((s.peu.dialect = .it ∨ s.peu.dialect = .s3m) →
        (∀ x, s.peu.wcell.eff = some (.toneporta, x) → cmd = .tonePortaVol) ∧
        (∀ x, s.peu.wcell.eff = some (.vibrato, x) → cmd = .vibratoVol) ∧
        ((∀ x, s.peu.wcell.eff ≠ some (.toneporta, x) ∧ s.peu.wcell.eff ≠ some (.vibrato, x)) → cmd = .volslide)) ∧
      ((s.peu.dialect = .xm ∨ s.peu.dialect = .mod) → cmd = .volslide)

/-- Every PEU operation ends within as many events as rows are left, in DONE or in FAIL (R183). -/
def Obligations.PeuOperationEnds : Prop :=
  ∀ s : State, peuInv s.peu → s.peu.bank.state = .busy → s.peu.k = 0 →
    let t := runUnit .peu (s.peu.rows - s.peu.row) s
    t.peu.bank.state = .done ∨ t.peu.bank.state = .fail

/-- The source's track 11 01 3C 00 on any dialect and row count R >= 1, from a column of Empty rows: rows 0 and 1 hold
Note(60 + NOTE_ORIGIN), every other row below R is Empty, and the unit is DONE; the terminator is read exactly if a row
is left for it (R182). -/
def Obligations.SourceTrackExample : Prop :=
  ∀ s : State,
    s.peu.bank.state = .busy → s.peu.k = 0 → s.peu.row = 0 → 1 ≤ s.peu.rows → s.peu.bank.ip = 0 →
    s.peu.bank.len = 4 → s.peu.input = storeOfBytes 0 [0x11, 0x01, 0x3C, 0x00] →
    (∀ r, r < s.peu.rows → s.cell r = emptyCell) →
    let t := runUnit .peu 2 s
    t.peu.bank.state = .done ∧ t.peu.bank.ip = (if 3 ≤ s.peu.rows then 4 else 3) ∧
    peuOutPos t.peu = min 2 s.peu.rows ∧
    ∀ r, r < s.peu.rows →
      t.cell r =
        if r < 2 then { emptyCell with note := .note (60 + Config.noteOrigin s.peu.dialect) } else emptyCell

/-! ## START, faults, registers, reset -/

/-- HOST_START of the LZU completes from every state: ignored while BUSY; else IN_POS and OUT_POS are 0 and IN_LEN is
latched; ConfigInvalid comes before ZeroLength; a legal start is BUSY with N latched, PREV_OFF 0 and an empty CBD. IN,
OUT, the written registers and everything outside the LZU stay (R105, R110, R207, R211). -/
def Obligations.LzuStartCompletes : Prop :=
  ∀ s : State,
    let b := s.lzu.bank
    let bad := Config.inCap.val < b.inLen.toNat ∨ Config.outCap.val < b.outLen.toNat
    exec (.hostStart .lzu) s =
      if b.state = .busy then .next s
      else
        .next { s with
          lzu := { s.lzu with
            bank := { b with
              state := if bad ∨ b.outLen = 0 then .fail else .busy
              cause := if bad then .configInvalid else if b.outLen = 0 then .zeroLength else .none
              ip := 0, len := b.inLen.toNat, seen := false }
            outPre := s.lzu.out, w := 0
            n := if bad then s.lzu.n else b.outLen.toNat
            prevOff := if bad ∨ b.outLen = 0 then s.lzu.prevOff else 0
            cbd := if bad ∨ b.outLen = 0 then s.lzu.cbd else { data := 0, carry := false } } }

/-- HOST_START of the DSU completes from every state: ignored while BUSY; else IN_POS and OUT_POS are 0 and W16, PRED,
CHANNELS, F and IN_LEN are latched; ConfigInvalid if F * C samples do not fit; DONE at once for F = 0 or C = 0; else
BUSY; the context is initial and the CBD empty unless it faulted. IN, SMP, the written registers and everything outside
the DSU stay (R105, R130, R207, R211). -/
def Obligations.DsuStartCompletes : Prop :=
  ∀ s : State,
    let b := s.dsu.bank
    let frames := b.outLen.toNat
    let chans := b.config.toNat / 256 % 256
    let wide := b.config.getLsbD 0
    let bad := Config.inCap.val < b.inLen.toNat ∨ Config.smpCap.val < frames * chans
    exec (.hostStart .dsu) s =
      if b.state = .busy then .next s
      else
        .next { s with
          dsu := { s.dsu with
            bank := { b with
              state := if bad then .fail else if frames = 0 ∨ chans = 0 then .done else .busy
              cause := if bad then .configInvalid else .none
              ip := 0, len := b.inLen.toNat, seen := false }
            smpPre := s.dsu.smp, count := 0
            w16 := wide, pred := b.config.getLsbD 1, chans := chans, frames := frames
            cbd := if bad then s.dsu.cbd else { data := 0, carry := false }
            dh := if bad then s.dsu.dh else if wide then 8 else 4
            prev := if bad then s.dsu.prev else 0
            next := if bad then s.dsu.next else 0
            prevp := if bad then s.dsu.prevp else 0
            ch := if bad then s.dsu.ch else 0
            fr := if bad then s.dsu.fr else 0 } }

/-- HOST_START of the PEU completes from every state: ignored while BUSY; else IN_POS, ROW and K are 0 and R, the
dialect and IN_LEN are latched; ConfigInvalid if R rows do not fit, and then no cell changes; else rows 0 .. R-1 and no
others become Empty, and the unit is DONE for R = 0 and BUSY for R > 0. IN, the written registers and everything outside
the PEU stay (R160, R161, R207, R211; that START clears K, which R160 does not name, is log entry 28; the copies cellsPre
and cellsStart and the mark seen are the model's own, log entry 12). -/
def Obligations.PeuStartCompletes : Prop :=
  ∀ s : State,
    let b := s.peu.bank
    let rows := b.outLen.toNat
    let d := b.config.toNat % 4
    let bad := Config.inCap.val < b.inLen.toNat ∨ Config.cellCap.val < rows
    (b.state = .busy → exec (.hostStart .peu) s = .next s) ∧
    (b.state ≠ .busy →
      ∃ m, exec (.hostStart .peu) s =
          .next { s with
            peu := { s.peu with
              bank := { b with
                state := if bad then .fail else if rows = 0 then .done else .busy
                cause := if bad then .configInvalid else .none
                ip := 0, len := b.inLen.toNat, seen := false }
              cells := m, cellsPre := s.peu.cells, cellsStart := m, row := 0, k := 0, rows := rows
              dialect := if d = 0 then .it else if d = 1 then .s3m else if d = 2 then .xm else .mod } } ∧
        ∀ r, cellAt (blankCells s) m r = if ¬bad ∧ r < rows then emptyCell else s.cell r)

/-- A fresh context: two LZUs, two DSUs or two PEUs that agree on the registers and spaces a host can reach start
operations that agree on STATE, CAUSE and the positions and, unless they fault at once, on every register but those each
token sets before it reads them, whatever an earlier operation, failed or not, left behind (R21, R214; K of the PEU: log
entry 28). -/
def Obligations.StartForgetsOldContext : Prop :=
  (∀ u v : Lzu, u.bank.inLen = v.bank.inLen → u.bank.outLen = v.bank.outLen → u.bank.config = v.bank.config →
    u.input = v.input → u.out = v.out →
    (lzuStart u).bank = (lzuStart v).bank ∧ (lzuStart u).w = (lzuStart v).w ∧
    ((lzuStart u).bank.state = .fail ∨
      lzuStart u = { lzuStart v with off := u.off, g := u.g, len := u.len, adj := u.adj })) ∧
  (∀ u v : Dsu, u.bank.inLen = v.bank.inLen → u.bank.outLen = v.bank.outLen → u.bank.config = v.bank.config →
    u.input = v.input → u.smp = v.smp →
    (dsuStart u).bank = (dsuStart v).bank ∧ (dsuStart u).count = (dsuStart v).count ∧
    ((dsuStart u).bank.state = .fail ∨ dsuStart u = { dsuStart v with v := u.v, e := u.e })) ∧
  (∀ u v : Peu, u.bank.inLen = v.bank.inLen → u.bank.outLen = v.bank.outLen → u.bank.config = v.bank.config →
    u.input = v.input → u.cells = v.cells →
    (peuStart u).bank = (peuStart v).bank ∧ peuOutPos (peuStart u) = peuOutPos (peuStart v) ∧
    peuStart u = { peuStart v with cb := u.cb, wcell := u.wcell })

/-- Fault entry of a stream fault, for each unit: where decoding stops, the unit enters FAIL with the cause, its cursor
at the point of detection, and its output, its output position and the other units as they were; a StreamExhausted
leaves IN_POS at the latched IN_LEN, and only the LZU can meet a LengthOverflow, in a gamma code of a match, whose stop is
the unit's (R201, R203, R205, R206, R208). What a unit reads is written out: its own IN below the latched IN_LEN, from its
own cursor, in the format its state selects. That the
registers of the broken token (G, OFF, ADJ, PREV_OFF, LEN, V, CB, K, WCELL) stay as they were, where the pseudocode has
set some of them, is log entry 16, the model's reading; no rule reads them. -/
def Obligations.StreamFaultEntry : Prop :=
  ∀ (s : State) (e : Stop),
    (s.lzu.w < s.lzu.n → s.lzu.bank.ip ≤ s.lzu.bank.len →
      decodeStream (if s.lzu.w = 0 then .seed else .lz) { len := s.lzu.bank.len, get := s.byte .inLzu }
        { ip := s.lzu.bank.ip, data := s.lzu.cbd.data, carry := s.lzu.cbd.carry } = .error e →
      stepLzu s = .next { s with
        lzu := { s.lzu with
          bank := { s.lzu.bank with state := .fail, cause := e.cause, ip := e.cursor.ip }
          cbd := { data := e.cursor.data, carry := e.cursor.carry } } } ∧
      (e.cause = .streamExhausted ∧ e.cursor.ip = s.lzu.bank.len ∨ e.cause = .lengthOverflow) ∧
      (let stops := matchGammaStops { len := s.lzu.bank.len, get := s.byte .inLzu }
        { ip := s.lzu.bank.ip, data := s.lzu.cbd.data, carry := s.lzu.cbd.carry }
       (e.cause = .lengthOverflow → s.lzu.w ≠ 0 ∧ stops e) ∧ ∀ e', s.lzu.w ≠ 0 → stops e' → e' = e)) ∧
    (s.dsu.count < s.dsu.frames * s.dsu.chans → s.dsu.bank.ip ≤ s.dsu.bank.len →
      decodeStream (.sample s.dsu.w16 s.dsu.pred s.dsu.dh) { len := s.dsu.bank.len, get := s.byte .inDsu }
        { ip := s.dsu.bank.ip, data := s.dsu.cbd.data, carry := s.dsu.cbd.carry } = .error e →
      stepDsu s = .next { s with
        dsu := { s.dsu with
          bank := { s.dsu.bank with state := .fail, cause := e.cause, ip := e.cursor.ip }
          cbd := { data := e.cursor.data, carry := e.cursor.carry } } } ∧
      e.cause = .streamExhausted ∧ e.cursor.ip = s.dsu.bank.len) ∧
    (s.peu.row < s.peu.rows → s.peu.bank.ip ≤ s.peu.bank.len →
      decodeStream (if s.peu.k = 0 then .track else .pair) { len := s.peu.bank.len, get := s.byte .inPeu }
        { ip := s.peu.bank.ip, data := 0, carry := false } = .error e →
      stepPeu s = .next { s with
        peu := { s.peu with
          bank := { s.peu.bank with state := .fail, cause := e.cause, ip := e.cursor.ip } } } ∧
      e.cause = .streamExhausted ∧ e.cursor.ip = s.peu.bank.len)

/-- A read of STATUS gives STATE in bits 1:0, the code of CAUSE in bits 7:4, and 0 in every other bit; the codes 7..15
never show (R27, R201). -/
def Obligations.StatusWordLayout : Prop :=
  ∀ (s : State) (u : UnitId),
    let word := readRegister s u 0x04
    let b := bankState s u
    word.toNat = causeCode b.cause * 16 + stateCode b.state ∧ stateCode b.state < 4 ∧ causeCode b.cause < 7 ∧
    (stateCode .idle = 0 ∧ stateCode .busy = 1 ∧ stateCode .done = 2 ∧ stateCode .fail = 3) ∧
    (causeCode .none = 0 ∧ causeCode .zeroLength = 1 ∧ causeCode .streamExhausted = 2 ∧ causeCode .badOffset = 3 ∧
      causeCode .lengthOverrun = 4 ∧ causeCode .lengthOverflow = 5 ∧ causeCode .configInvalid = 6)

/-- While a unit is BUSY every host write to its bank is ignored, CTRL included; in every state a write to a read-only
register, to an offset with no register, or of CTRL with bit 0 = 0 is ignored (R25 to R27, R211, R212). -/
def Obligations.IgnoredRegisterWrites : Prop :=
  ∀ (s : State) (u : UnitId) (reg : Nat) (value : Word), reg < 0x40 → reg % 4 = 0 →
    ((bankState s u).state = .busy →
      stepHost { s with host := [.writeReg (bankBase u + reg) 4 value] } = .next { s with host := [] }) ∧
    (reg ≠ 0x08 → reg ≠ 0x0C → reg ≠ 0x10 → (reg = 0 → value.getLsbD 0 = false) →
      stepHost { s with host := [.writeReg (bankBase u + reg) 4 value] } = .next { s with host := [] })

/-- A write of IN_LEN, OUT_LEN or CONFIG to a bank that is not BUSY changes that register and nothing else: a read of it
gives the value written, CONFIG with its reserved bits 0, none of its bits being real in the LZU; every other register of
every bank reads as before, STATUS, IN_POS and OUT_POS among them, and the latched values, the context registers and the
spaces stay (R28 to R34, R236; that OUT_POS of the PEU keeps the R of the operation is log entry 14). -/
def Obligations.RegisterWriteReadBack : Prop :=
  ∀ (s : State) (u : UnitId) (value : Word), (bankState s u).state ≠ .busy →
    (∃ t, t = setBank s u { bankState s u with inLen := value } ∧
      hostAccess (.writeReg (bankBase u + 0x08) 4 value) s = .next t ∧ readRegister t u 0x08 = value ∧
      ∀ v reg, v ≠ u ∨ reg ≠ 0x08 → readRegister t v reg = readRegister s v reg) ∧
    (∃ t, t = setBank s u { bankState s u with outLen := value } ∧
      hostAccess (.writeReg (bankBase u + 0x0C) 4 value) s = .next t ∧ readRegister t u 0x0C = value ∧
      ∀ v reg, v ≠ u ∨ reg ≠ 0x0C → readRegister t v reg = readRegister s v reg) ∧
    ∃ config t, t = setBank s u { bankState s u with config := config } ∧
      hostAccess (.writeReg (bankBase u + 0x10) 4 value) s = .next t ∧ readRegister t u 0x10 = config ∧
      (∀ v reg, v ≠ u ∨ reg ≠ 0x10 → readRegister t v reg = readRegister s v reg) ∧
      ∀ k, k < 32 → config.getLsbD k =
        (value.getLsbD k &&
          match u with
          | .lzu => false
          | .dsu => k == 0 || k == 1 || (8 ≤ k && k ≤ 15)
          | .peu => k == 0 || k == 1)

/-- A register read replies the register's word and changes nothing but the reply and, for a STATUS read, the model's
own mark that the host has seen the operation end, which is set exactly when STATUS shows DONE or FAIL (R55, R60, R62,
R223; the mark is log entry 12). IN_LEN, OUT_LEN and CONFIG
give what the bank holds, IN_POS the cursor, OUT_POS W, the samples written or min(ROW, R) (R of the operation: log entry
14), CTRL and the absent offsets 0; an aligned word at or above 0xC0 reads 0 and ignores writes (R22, R23, R25, R26, R32,
R33; log entry 25). -/
def Obligations.RegisterReadsOnlyReply : Prop :=
  (∀ (s : State) (u : UnitId) (reg : Nat), reg < 0x40 → reg % 4 = 0 →
    ∃ m, hostAccess (.readReg (bankBase u + reg) 4) s =
        .next (setBank { s with replies := .word (readRegister s u reg) :: s.replies } u
          { bankState s u with seen := m }) ∧
      m = ((bankState s u).seen ||
        (reg == 0x04 && ((bankState s u).state == .done || (bankState s u).state == .fail)))) ∧
  (∀ (s : State) (u : UnitId),
    readRegister s u 0x08 = (bankState s u).inLen ∧ readRegister s u 0x0C = (bankState s u).outLen ∧
    readRegister s u 0x10 = (bankState s u).config ∧
    readRegister s u 0x14 = BitVec.ofNat 32 (bankState s u).ip ∧
    readRegister s u 0x18 =
      BitVec.ofNat 32 (match u with
        | .lzu => s.lzu.w
        | .dsu => s.dsu.count
        | .peu => min s.peu.row s.peu.rows) ∧
    ∀ reg, reg = 0 ∨ 0x1C ≤ reg → readRegister s u reg = 0) ∧
  ∀ (s : State) (offset : Nat) (value : Word), 0xC0 ≤ offset → offset % 4 = 0 →
    hostAccess (.readReg offset 4) s = .next { s with replies := .word 0 :: s.replies } ∧
    hostAccess (.writeReg offset 4 value) s = .next s

/-- A register access that is not a whole word at a multiple of 4 is refused (R53). -/
def Obligations.MalformedRegisterAccessRefused : Prop :=
  ∀ (s : State) (offset bytes : Nat) (value : Word), bytes ≠ 4 ∨ offset % 4 ≠ 0 →
    stepHost { s with host := [.readReg offset bytes] } = .refused (.registerAccess offset bytes) ∧
    stepHost { s with host := [.writeReg offset bytes value] } = .refused (.registerAccess offset bytes)

/-- A host write to the IN space or the output space of a BUSY unit has no step: it is refused at every index the space
has, and there is no other index to write (R233, R234). To a unit that is not BUSY it completes: the place holds the
value, a read of it gives the value back, every other place and everything else stays (R38 to R41, R55, R57, R60). An
index past the space is log entry 18, the bytes of SMP by the live CONFIG.W16 entry 13, the copies outPre, smpPre,
cellsPre and cellsStart, in which the write lands too, and the counter draws entry 12. -/
def Obligations.HostSpaceWrites : Prop :=
  (∀ (s : State) (index : Nat) (b : Byte) (c : Cell),
    (∀ u, (bankState s u).state = .busy →
      hostAccess (.writeIn u index b) s =
        if index < Config.inCap.val then .refused (.busyWrite (inSpace u) index)
        else .fault (.noSuchAddress (inSpace u) index)) ∧
    (s.lzu.bank.state = .busy →
      hostAccess (.writeOut index b) s =
        if index < Config.outCap.val then .refused (.busyWrite .out index) else .fault (.noSuchAddress .out index)) ∧
    (s.dsu.bank.state = .busy →
      hostAccess (.writeSmp index b) s =
        if index < smpBytes s then .refused (.busyWrite .smp index) else .fault (.noSuchAddress .smp index)) ∧
    (s.peu.bank.state = .busy →
      hostAccess (.writeCell index c) s =
        if index < Config.cellCap.val then .refused (.busyWrite .cell index)
        else .fault (.noSuchAddress .cell index))) ∧
  (∀ (s : State) (u : UnitId) (index : Nat) (b : Byte), (bankState s u).state ≠ .busy →
    ∃ m,
      let t : State := match u with
        | .lzu => { s with lzu := { s.lzu with input := m } }
        | .dsu => { s with dsu := { s.dsu with input := m } }
        | .peu => { s with peu := { s.peu with input := m } }
      (hostAccess (.writeIn u index b) s =
        if index < Config.inCap.val then .next t else .fault (.noSuchAddress (inSpace u) index)) ∧
      (∀ a, byteAt (blankBytes s (inSpace u)) m a = if a = index then b else s.byte (inSpace u) a) ∧
      (hostAccess (.readIn u index) t =
        if index < Config.inCap.val then .next { t with replies := .byte b :: t.replies }
        else .fault (.noSuchAddress (inSpace u) index))) ∧
  (∀ (s : State) (index : Nat) (b : Byte), s.lzu.bank.state ≠ .busy →
    ∃ m pre d,
      let t : State := { s with lzu := { s.lzu with out := m, outPre := pre } }
      (hostAccess (.writeOut index b) s =
        if index < Config.outCap.val then .next t else .fault (.noSuchAddress .out index)) ∧
      (∀ a, byteAt (blankBytes s .out) m a = if a = index then b else s.byte .out a) ∧
      (∀ a, byteAt (blankBytes s .out) pre a =
        if a = index then b else byteAt (blankBytes s .out) s.lzu.outPre a) ∧
      (hostAccess (.readOut index) t =
        if index < Config.outCap.val then .next { t with replies := .byte b :: t.replies, draws := d }
        else .fault (.noSuchAddress .out index))) ∧
  (∀ (s : State) (index : Nat) (b : Byte), s.dsu.bank.state ≠ .busy →
    ∃ m pre d,
      let t : State := { s with dsu := { s.dsu with smp := m, smpPre := pre } }
      (hostAccess (.writeSmp index b) s =
        if index < smpBytes s then .next t else .fault (.noSuchAddress .smp index)) ∧
      (∀ a, byteAt (blankBytes s .smp) m a = if a = index then b else s.byte .smp a) ∧
      (∀ a, byteAt (blankBytes s .smp) pre a =
        if a = index then b else byteAt (blankBytes s .smp) s.dsu.smpPre a) ∧
      (hostAccess (.readSmp index) t =
        if index < smpBytes s then .next { t with replies := .byte b :: t.replies, draws := d }
        else .fault (.noSuchAddress .smp index))) ∧
  ∀ (s : State) (row : Nat) (c : Cell), s.peu.bank.state ≠ .busy →
    ∃ m pre start d,
      let t : State := { s with peu := { s.peu with cells := m, cellsPre := pre, cellsStart := start } }
      (hostAccess (.writeCell row c) s =
        if row < Config.cellCap.val then .next t else .fault (.noSuchAddress .cell row)) ∧
      (∀ r, cellAt (blankCells s) m r = if r = row then c else s.cell r) ∧
      (∀ r, cellAt (blankCells s) pre r = if r = row then c else cellAt (blankCells s) s.peu.cellsPre r) ∧
      (∀ r, cellAt (blankCells s) start r = if r = row then c else cellAt (blankCells s) s.peu.cellsStart r) ∧
      (hostAccess (.readCell row) t =
        if row < Config.cellCap.val then .next { t with replies := .cell c :: t.replies, draws := d }
        else .fault (.noSuchAddress .cell row))

/-- What a host read of OUT, SMP or CELL gives: before STATUS has shown the operation's end, one of the value before
START, the value now and, for CELL, the value START left, which is the Empty of R160 where START wrote one; once it has,
the value the space holds. It changes nothing but the replies and, before that, the counter draws (R55, R60, R62). What
shows the end is a STATUS read of the unit in DONE or FAIL, and it does so for that unit alone. How the choice is made is
log entry 12, an index past the space entry 18, the bytes of SMP by the live CONFIG.W16 entry 13. A read of IN gives the
stored byte at every index and changes nothing but the replies (R55, R57; that of a BUSY unit's IN is log entry 30). -/
def Obligations.HostSpaceReads : Prop :=
  (∀ (s : State) (u : UnitId), (bankState s u).state = .done ∨ (bankState s u).state = .fail →
    hostAccess (.readReg (bankBase u + 0x04) 4) s = .next (afterEndSeen u s) ∧
    (bankState (afterEndSeen u s) u).seen = true ∧ (bankState (afterEndSeen u s) u).state ≠ .busy ∧
    (∀ v, v ≠ u → sameUnit v s (afterEndSeen u s)) ∧
    (∀ space a, (afterEndSeen u s).byte space a = s.byte space a) ∧ ∀ r, (afterEndSeen u s).cell r = s.cell r) ∧
  ∀ (s : State) (a : Nat),
    (∃ b d,
      (hostAccess (.readOut a) s =
        if a < Config.outCap.val then .next { s with replies := .byte b :: s.replies, draws := d }
        else .fault (.noSuchAddress .out a)) ∧
      (b = byteAt (blankBytes s .out) s.lzu.outPre a ∨ b = s.byte .out a) ∧
      (s.lzu.bank.seen = true → s.lzu.bank.state ≠ .busy → b = s.byte .out a ∧ d = s.draws)) ∧
    (∃ b d,
      (hostAccess (.readSmp a) s =
        if a < smpBytes s then .next { s with replies := .byte b :: s.replies, draws := d }
        else .fault (.noSuchAddress .smp a)) ∧
      (b = byteAt (blankBytes s .smp) s.dsu.smpPre a ∨ b = s.byte .smp a) ∧
      (s.dsu.bank.seen = true → s.dsu.bank.state ≠ .busy → b = s.byte .smp a ∧ d = s.draws)) ∧
    (∃ c d,
      (hostAccess (.readCell a) s =
        if a < Config.cellCap.val then .next { s with replies := .cell c :: s.replies, draws := d }
        else .fault (.noSuchAddress .cell a)) ∧
      (c = cellAt (blankCells s) s.peu.cellsPre a ∨ c = s.cell a ∨
        c = cellAt (blankCells s) s.peu.cellsStart a) ∧
      (s.peu.bank.seen = true → s.peu.bank.state ≠ .busy → c = s.cell a ∧ d = s.draws)) ∧
    ∀ u, hostAccess (.readIn u a) s =
      if a < Config.inCap.val then .next { s with replies := .byte (s.byte (inSpace u) a) :: s.replies }
      else .fault (.noSuchAddress (inSpace u) a)

/-- Reset at any time, from any state: every unit IDLE with CAUSE 0, every host-visible register of every bank 0, and
only the host's own accesses still pending (R43, R230). -/
def Obligations.ResetRule : Prop :=
  ∀ s : State,
    ∃ t, hostAccess .reset s = .next t ∧ t.host = s.host ∧
      ∀ u, (bankState t u).state = .idle ∧ (bankState t u).cause = .none ∧
        (∀ reg, readRegister t u reg = 0) ∧
        (bankState State.reset u).state = .idle ∧ (∀ reg, readRegister State.reset u reg = 0)

/-! ## The machine -/

/-- A step runs the decoded instruction: when a unit is the one to move, has room, and its stream decodes to i, the
step is exec of i in the state with the agenda and the unit's cursor moved; when the host is, and its oldest access is
an instruction, the step is exec of that with the access taken off the list, and when it is none, the access itself on
the same state. A unit's stream is its own IN below the latched IN_LEN, read from its own cursor: the LZU reads the seed
into an empty output and else a token, the DSU a sample in the width and variant latched at START under the DH in force,
the PEU an event, or a pair inside one (R22, R38, R112, R131, R135, R143 to R146, R162, R211, R224, R236; a pair as a step
of its own is log entry 8). -/
def Obligations.StepRunsDecoded : Prop :=
  ∀ (s s1 : State) (i : Instr) (c : Cursor) (op : HostOp) (rest : List HostOp),
    (choose s = some (.lzu, s1) → s1.lzu.w < s1.lzu.n →
      decodeStream (if s1.lzu.w = 0 then .seed else .lz) { len := s1.lzu.bank.len, get := s1.byte .inLzu }
        { ip := s1.lzu.bank.ip, data := s1.lzu.cbd.data, carry := s1.lzu.cbd.carry } = .ok (i, c) →
      step s = exec i { s1 with
        lzu := { s1.lzu with bank := { s1.lzu.bank with ip := c.ip }, cbd := { data := c.data, carry := c.carry } } }) ∧
    (choose s = some (.dsu, s1) → s1.dsu.count < s1.dsu.frames * s1.dsu.chans →
      decodeStream (.sample s1.dsu.w16 s1.dsu.pred s1.dsu.dh) { len := s1.dsu.bank.len, get := s1.byte .inDsu }
        { ip := s1.dsu.bank.ip, data := s1.dsu.cbd.data, carry := s1.dsu.cbd.carry } = .ok (i, c) →
      step s = exec i { s1 with
        dsu := { s1.dsu with bank := { s1.dsu.bank with ip := c.ip }, cbd := { data := c.data, carry := c.carry } } }) ∧
    (choose s = some (.peu, s1) → s1.peu.row < s1.peu.rows →
      decodeStream (if s1.peu.k = 0 then .track else .pair) { len := s1.peu.bank.len, get := s1.byte .inPeu }
        { ip := s1.peu.bank.ip, data := 0, carry := false } = .ok (i, c) →
      step s = exec i { s1 with peu := { s1.peu with bank := { s1.peu.bank with ip := c.ip } } }) ∧
    (choose s = some (.host, s1) → s1.host = op :: rest → decodeHost op = some i →
      step s = exec i { s1 with host := rest }) ∧
    (choose s = some (.host, s1) → s1.host = op :: rest → decodeHost op = none →
      step s = hostAccess op { s1 with host := rest })

/-- A word of the opcode table, stored where withFetchWord stores it, is the instruction the very next step runs, from
every state: the step is exec of it in the placed state with the unit's cursor where the decoder of the word ends and,
unless no other agent can move, the unit's turn taken off the agenda (log entries 9, 10 and 11). Placing it touches
nothing but the LZU or the PEU and the agenda. -/
def Obligations.PlacedWordRuns : Prop :=
  ∀ (s : State) (nbits w : Nat) (i : Instr), decodeTableWord nbits w = some i →
    let p := s.withFetchWord nbits w
    let q := { p with agenda := if (allAgents.filter (ready p)).length = 1 then p.agenda else s.agenda }
    ∃ c, decodeStream (tableFormat nbits w) (inputOf (tableBytes w)) Cursor.fresh = .ok (i, c) ∧
      step p = exec i
        (match tableFormat nbits w with
          | .seed => { q with lzu := lzuMove p.lzu c }
          | .lz => { q with lzu := lzuMove p.lzu c }
          | .sample _ _ _ => { q with dsu := dsuMove p.dsu c }
          | .track => { q with peu := peuMove p.peu c }
          | .pair => { q with peu := peuMove p.peu c }) ∧
      p = { s with lzu := p.lzu, peu := p.peu, agenda := p.agenda }

/-- Only a BUSY unit performs steps (R206, R214, R221). Whoever is chosen can move: a unit that is BUSY, or the host with
an access pending; with neither a step changes nothing (log entry 26). A step leaves a unit in IDLE, DONE or FAIL whole
unless it is an access of the host, and then its STATE, CAUSE, IN_POS and OUT_POS stay too, unless that access is the
unit's START or a reset. -/
def Obligations.OnlyBusyUnitsStep : Prop :=
  (∀ s : State, quiet s → step s = .next s) ∧
  (∀ (s s1 : State) (a : Agent), choose s = some (a, s1) →
    (a = .host → s.host ≠ []) ∧ ∀ u, a = unitAgent u → (bankState s u).state = .busy) ∧
  ∀ (s t : State) (u : UnitId), step s = .next t → (bankState s u).state ≠ .busy →
    sameUnit u s t ∨
    ∃ s1 op rest, choose s = some (.host, s1) ∧ s1.host = op :: rest ∧
      (op = .reset ∨ decodeHost op = some (.hostStart u) ∨
        ((bankState t u).state = (bankState s u).state ∧ (bankState t u).cause = (bankState s u).cause ∧
          (bankState t u).ip = (bankState s u).ip ∧ outPos t u = outPos s u))

/-- No stream stops the machine: a step of a unit always answers a next state, and so does every instruction from every
state (R85, R86). -/
def Obligations.UnitsNeverStop : Prop :=
  (∀ (u : UnitId) (s : State), ∃ t, stepUnit u s = .next t) ∧ (∀ (i : Instr) (s : State), ∃ t, exec i s = .next t)

/-- No unit reads its input at or past IN_LEN: two inputs that agree below it decode alike (R22, R58). -/
def Obligations.ReadsStayBelowInLen : Prop :=
  ∀ (f : Format) (inp inp' : Input) (c : Cursor), inp.len = inp'.len → (∀ a, a < inp.len → inp.get a = inp'.get a) →
    decodeStream f inp c = decodeStream f inp' c

/-- A unit writes its output only inside its operation's buffer and touches no other space: OUT below N, SMP below the
bytes of F * C samples, CELL below R (R57, R58, R179). -/
def Obligations.UnitWritesStayInside : Prop :=
  ∀ s t : State,
    (lzuInv s.lzu → s.lzu.bank.state = .busy → stepLzu s = .next t →
      t = { s with lzu := t.lzu } ∧ t.lzu.input = s.lzu.input ∧
      ∀ a, a < s.lzu.w ∨ s.lzu.n ≤ a → t.byte .out a = s.byte .out a) ∧
    (dsuInv s.dsu → s.dsu.bank.state = .busy → stepDsu s = .next t →
      t = { s with dsu := t.dsu } ∧ t.dsu.input = s.dsu.input ∧
      ∀ a, sampleBytes s.dsu ≤ a → t.byte .smp a = s.byte .smp a) ∧
    (s.peu.bank.state = .busy → stepPeu s = .next t →
      t = { s with peu := t.peu } ∧ t.peu.input = s.peu.input ∧
      ∀ r, r < s.peu.row ∨ s.peu.rows ≤ r → t.cell r = s.cell r)

/-- The steps of two different units commute: no unit can observe another, so no result depends on how their steps
interleave (R61, R217, R238). -/
def Obligations.UnitStepsCommute : Prop :=
  ∀ (u v : UnitId) (s a b : State), u ≠ v → stepUnit u s = .next a → stepUnit v s = .next b →
    ∃ t, stepUnit v a = .next t ∧ stepUnit u b = .next t

/-- Every step keeps all memory of the block in its canonical form, which is the model's own way to hold the spaces (log
entry 2). -/
def Obligations.StepKeepsMemoryCanonical : Prop :=
  ∀ s t : State, memoryWf s = true → step s = .next t → memoryWf t = true

/-- Every step keeps the promises of the units: CAUSE 0 exactly outside FAIL, reserved CONFIG bits 0, cursors within
IN_LEN, outputs within their lengths, the sample registers in their ranges, DONE only with the whole output written
(R20, R22, R27, R34, R122, R149); and it keeps that the operations under way fit the capacities (R58, R207). -/
def Obligations.StepKeepsUnitsInv : Prop :=
  (∀ s t : State, unitsInv s → step s = .next t → unitsInv t) ∧
  (∀ s t : State, fitsSpaces s → step s = .next t → fitsSpaces t)

/-- The state after reset meets the invariants of the model: every unit is IDLE with CAUSE 0 and every host-visible
register is 0 (R230), so nothing is under way that could break them. That K and the latched lengths are 0 is the model's
choice of log entry 1, and that memory lists nothing, and so is in canonical form, that of log entry 2. -/
def Obligations.ResetIsGood : Prop :=
  unitsInv State.reset ∧ fitsSpaces State.reset ∧ memoryWf State.reset = true

/-- The open command table and operand set meet the constraints the spec puts on them: 0x01 is NOTE, 0x22 is VOLSLIDE,
each of the seven named classes has a code, and IT_VOLTP_SET has exactly ten members (R83, R169). -/
def Obligations.OpenTablesMeetConstraints : Prop :=
  cmdTable 0x01 = .note ∧ cmdTable 0x22 = .volslide ∧
  (∀ cls, cls ∈ [CmdClass.instr, .toneporta, .vibrato, .panning, .volume, .patternbreak, .tempospeed] →
    ∃ code, cmdTable code = cls) ∧
  itVolTpSet.Nodup ∧ itVolTpSet.length = 10

/-- Fairness (D2, R237; the agenda is log entry 9). Where an agent that can move is not the one chosen, the agenda gets
shorter and the agent's turn, if it has one in it, stays; a new round is drawn only when no turn of the agenda can be
taken, and what is left of it has the agent's turn. A unit that is BUSY stays BUSY while others move, a reset apart. So an agent that can
move all along moves within as many steps as the agenda and the next round have turns. -/
def Obligations.ReadyAgentMovesInTime : Prop :=
  (∀ (s s1 : State) (a b : Agent), ready s a = true → choose s = some (b, s1) → b ≠ a →
    s1 = { s with agenda := s1.agenda, rounds := s1.rounds } ∧
    (a ∈ s.agenda → a ∈ s1.agenda ∧ s1.agenda.length < s.agenda.length ∧ s1.rounds = s.rounds) ∧
    (a ∉ s.agenda →
      (s1.agenda.length < s.agenda.length ∧ s1.rounds = s.rounds) ∨
      ((∀ c ∈ s.agenda, ready s c = false) ∧ a ∈ s1.agenda ∧
        s1.agenda.length < (fairRound s.rounds).length ∧ s1.rounds = s.rounds + 1))) ∧
  (∀ (u : UnitId) (b : Agent) (s t : State), b ≠ unitAgent u → stepAgent b s = .next t →
    (bankState s u).state = .busy → (b = .host → ∀ rest, s.host ≠ .reset :: rest) →
    (bankState t u).state = .busy) ∧
  ∀ (a : Agent) (run : Nat → State),
    let n := (run 0).agenda.length + (fairRound (run 0).rounds).length
    (∀ k, k < n → ready (run k) a = true ∧ step (run k) = .next (run (k + 1))) →
    ∃ k s1, k < n ∧ choose (run k) = some (a, s1)
end

