-- ==== Sys2Proof/Laws/Decode.lean ====
section
/-! SUPPORT. What a decoder can answer: where its cursor ends, with which cause it can stop, and which instructions
each format gives. -/

namespace Sys2Proof

open Sys2Proof.Machine

/-! ## Fetch and ReadBit, once -/

theorem fetch_cases {inp : Input} {c : Cursor} {r : Except Stop (Byte × Cursor)} (h : fetch inp c = r) :
    (c.ip < inp.len ∧ r = .ok (inp.get c.ip, { c with ip := c.ip + 1 })) ∨
    (inp.len ≤ c.ip ∧ r = .error { cause := .streamExhausted, cursor := c }) := by
  unfold fetch at h
  split at h
  · exact .inl ⟨‹_›, h.symm⟩
  · exact .inr ⟨by omega, h.symm⟩

/-- The cursor moved forward and not past the end of the input. -/
def Forward (inp : Input) (c c' : Cursor) : Prop := c.ip ≤ c'.ip ∧ (c.ip ≤ inp.len → c'.ip ≤ inp.len)

/-- A decoder's answer: a forward cursor, and on a stop one of the two causes a stream has (R203, R205). -/
def Sound {α : Type} (inp : Input) (c : Cursor) (r : Except Stop (α × Cursor)) : Prop :=
  match r with
  | .ok (_, c') => Forward inp c c'
  | .error e => Forward inp c e.cursor ∧ (e.cause = .streamExhausted ∨ e.cause = .lengthOverflow)

theorem Forward.refl (inp : Input) (c : Cursor) : Forward inp c c := ⟨le_refl _, id⟩

theorem Forward.trans {inp : Input} {a b c : Cursor} (h : Forward inp a b) (k : Forward inp b c) : Forward inp a c :=
  ⟨le_trans h.1 k.1, fun ha => k.2 (h.2 ha)⟩

theorem Sound.of_forward {α : Type} {inp : Input} {c c' : Cursor} {r : Except Stop (α × Cursor)}
    (h : Forward inp c c') (k : Sound inp c' r) : Sound inp c r := by
  unfold Sound at *
  split at k
  · exact h.trans k
  · exact ⟨h.trans k.1, k.2⟩

theorem Sound.ok {α : Type} {inp : Input} {c c' : Cursor} {r : Except Stop (α × Cursor)} {x : α}
    (k : Sound inp c r) (h : r = .ok (x, c')) : Forward inp c c' := by subst h; exact k

theorem Sound.error {α β : Type} {inp : Input} {c : Cursor} {r : Except Stop (α × Cursor)} {e : Stop}
    (k : Sound inp c r) (h : r = .error e) : Sound inp c (.error e : Except Stop (β × Cursor)) := by
  subst h; exact k

theorem fetch_sound (inp : Input) (c : Cursor) : Sound inp c (fetch inp c) := by
  rcases fetch_cases (rfl : fetch inp c = _) with ⟨h, k⟩ | ⟨_, k⟩ <;> rw [k]
  · exact ⟨Nat.le_succ _, fun _ => h⟩
  · exact ⟨Forward.refl _ _, .inl rfl⟩

theorem readBit_sound (inp : Input) (c : Cursor) : Sound inp c (readBit inp c) := by
  simp only [readBit]
  split
  · have h := fetch_sound inp { c with carry := (shiftOut c.data).1, data := (shiftOut c.data).2 }
    split
    · rename_i k
      exact Sound.error (β := Bool) h k
    · rename_i k
      have hk := h.ok k
      exact ⟨hk.1, hk.2⟩
  · exact Forward.refl _ _

theorem readBits_sound (inp : Input) (n : Nat) (c : Cursor) : Sound inp c (readBits inp n c) := by
  induction n generalizing c with
  | zero => exact Forward.refl _ _
  | succ n ih =>
    simp only [readBits]
    split
    · exact (readBit_sound inp c).error ‹_›
    · rename_i h
      have h1 := (readBit_sound inp c).ok h
      split
      · exact Sound.of_forward h1 ((ih _).error ‹_›)
      · exact h1.trans ((ih _).ok ‹_›)

theorem gammaLoop_sound (inp : Input) (n v : Nat) (c : Cursor) : Sound inp c (gammaLoop inp n v c) := by
  induction n generalizing v c with
  | zero => exact ⟨Forward.refl _ _, .inr rfl⟩
  | succ n ih =>
    simp only [gammaLoop]
    split
    · exact (readBit_sound inp c).error ‹_›
    · rename_i h
      have h1 := (readBit_sound inp c).ok h
      split
      · exact ⟨h1, .inr rfl⟩
      · split
        · exact Sound.of_forward h1 ((readBit_sound inp _).error ‹_›)
        · rename_i k
          have h2 := h1.trans ((readBit_sound inp _).ok k)
          split
          · exact Sound.of_forward h2 (ih _ _)
          · exact h2

theorem decodeLength_sound (inp : Input) (c : Cursor) : Sound inp c (decodeLength inp c) := gammaLoop_sound _ _ _ _

theorem decodeSeed_sound (inp : Input) (c : Cursor) : Sound inp c (decodeSeed inp c) := by
  unfold decodeSeed
  split
  · exact (fetch_sound inp c).error ‹_›
  · exact (fetch_sound inp c).ok ‹_›

theorem decodeLengthCode_sound (inp : Input) (c : Cursor) : Sound inp c (decodeLengthCode inp c) := by
  unfold decodeLengthCode
  split
  · exact (readBit_sound inp c).error ‹_›
  · rename_i h
    have h1 := (readBit_sound inp c).ok h
    split
    · exact Sound.of_forward h1 ((readBit_sound inp _).error ‹_›)
    · rename_i k
      have h2 := h1.trans ((readBit_sound inp _).ok k)
      split
      · exact h2
      · split
        · exact Sound.of_forward h2 ((decodeLength_sound inp _).error ‹_›)
        · exact h2.trans ((decodeLength_sound inp _).ok ‹_›)

theorem decodeMatch_sound (inp : Input) (c : Cursor) : Sound inp c (decodeMatch inp c) := by
  unfold decodeMatch
  split
  · exact (decodeLength_sound inp c).error ‹_›
  · rename_i h
    have h1 := (decodeLength_sound inp c).ok h
    split
    · split
      · exact Sound.of_forward h1 ((decodeLengthCode_sound inp _).error ‹_›)
      · exact h1.trans ((decodeLengthCode_sound inp _).ok ‹_›)
    · split
      · exact Sound.of_forward h1 ((fetch_sound inp _).error ‹_›)
      · rename_i k
        have h2 := h1.trans ((fetch_sound inp _).ok k)
        split
        · exact Sound.of_forward h2 ((decodeLengthCode_sound inp _).error ‹_›)
        · exact h2.trans ((decodeLengthCode_sound inp _).ok ‹_›)

theorem decodeLz_sound (inp : Input) (c : Cursor) : Sound inp c (decodeLz inp c) := by
  unfold decodeLz
  split
  · exact (readBit_sound inp c).error ‹_›
  · rename_i h
    exact Sound.of_forward ((readBit_sound inp c).ok h) (decodeMatch_sound inp _)
  · rename_i h
    have h1 := (readBit_sound inp c).ok h
    split
    · exact Sound.of_forward h1 ((fetch_sound inp _).error ‹_›)
    · exact h1.trans ((fetch_sound inp _).ok ‹_›)

theorem readPairs_sound (inp : Input) (n : Nat) (c : Cursor) : Sound inp c (readPairs inp n c) := by
  induction n generalizing c with
  | zero => exact ⟨Forward.refl _ _, .inl rfl⟩
  | succ n ih =>
    simp only [readPairs]
    split
    · exact (readBit_sound inp c).error ‹_›
    · rename_i h
      have h1 := (readBit_sound inp c).ok h
      split
      · exact Sound.of_forward h1 ((readBit_sound inp _).error ‹_›)
      · exact h1.trans ((readBit_sound inp _).ok ‹_›)
      · rename_i k
        have h2 := h1.trans ((readBit_sound inp _).ok k)
        split
        · exact Sound.of_forward h2 ((ih _).error ‹_›)
        · exact h2.trans ((ih _).ok ‹_›)

theorem readTriples_sound (inp : Input) (n : Nat) (c : Cursor) : Sound inp c (readTriples inp n c) := by
  induction n generalizing c with
  | zero => exact ⟨Forward.refl _ _, .inl rfl⟩
  | succ n ih =>
    simp only [readTriples]
    split
    · exact (readBit_sound inp c).error ‹_›
    · rename_i h
      have h1 := (readBit_sound inp c).ok h
      split
      · exact Sound.of_forward h1 ((readBit_sound inp _).error ‹_›)
      · rename_i k
        have h2 := h1.trans ((readBit_sound inp _).ok k)
        split
        · exact Sound.of_forward h2 ((readBit_sound inp _).error ‹_›)
        · exact h2.trans ((readBit_sound inp _).ok ‹_›)
        · rename_i k'
          have h3 := h2.trans ((readBit_sound inp _).ok k')
          split
          · exact Sound.of_forward h3 ((ih _).error ‹_›)
          · exact h3.trans ((ih _).ok ‹_›)

theorem decodeCode_sound (w16 : Bool) (dh : Nat) (inp : Input) (c : Cursor) :
    Sound inp c (decodeCode w16 dh inp c) := by
  unfold decodeCode
  split
  · split
    · exact (readTriples_sound inp _ c).error ‹_›
    · rename_i h
      have h1 := (readTriples_sound inp _ c).ok h
      split
      · exact Sound.of_forward h1 ((readBits_sound inp dh _).error ‹_›)
      · exact h1.trans ((readBits_sound inp dh _).ok ‹_›)
  · split
    · exact (readPairs_sound inp _ c).error ‹_›
    · rename_i h
      have h1 := (readPairs_sound inp _ c).ok h
      split
      · exact Sound.of_forward h1 ((readBits_sound inp dh _).error ‹_›)
      · exact h1.trans ((readBits_sound inp dh _).ok ‹_›)

theorem decodeSample_sound (w16 pred : Bool) (dh : Nat) (inp : Input) (c : Cursor) :
    Sound inp c (decodeSample w16 pred dh inp c) := by
  unfold decodeSample
  split
  · exact (decodeCode_sound w16 dh inp c).error ‹_›
  · exact (decodeCode_sound w16 dh inp c).ok ‹_›

theorem readPair_sound (inp : Input) (c : Cursor) : Sound inp c (readPair inp c) := by
  unfold readPair
  split
  · exact (fetch_sound inp c).error ‹_›
  · rename_i h
    have h1 := (fetch_sound inp c).ok h
    split
    · exact Sound.of_forward h1 ((fetch_sound inp _).error ‹_›)
    · exact h1.trans ((fetch_sound inp _).ok ‹_›)

theorem readPairBytes_sound (inp : Input) (n : Nat) (c : Cursor) : Sound inp c (readPairBytes inp n c) := by
  induction n generalizing c with
  | zero => exact Forward.refl _ _
  | succ n ih =>
    simp only [readPairBytes]
    split
    · exact (readPair_sound inp c).error ‹_›
    · rename_i h
      have h1 := (readPair_sound inp c).ok h
      split
      · exact Sound.of_forward h1 ((ih _).error ‹_›)
      · exact h1.trans ((ih _).ok ‹_›)

theorem decodeTrack_sound (inp : Input) (c : Cursor) : Sound inp c (decodeTrack inp c) := by
  unfold decodeTrack
  split
  · exact (fetch_sound inp c).error ‹_›
  · rename_i h
    have h1 := (fetch_sound inp c).ok h
    split
    · exact h1
    · split
      · exact Sound.of_forward h1 ((readPairBytes_sound inp _ _).error ‹_›)
      · exact h1.trans ((readPairBytes_sound inp _ _).ok ‹_›)

theorem decodePair_sound (inp : Input) (c : Cursor) : Sound inp c (decodePair inp c) := by
  unfold decodePair
  split
  · exact (readPair_sound inp c).error ‹_›
  · exact (readPair_sound inp c).ok ‹_›

/-- Every decoder's answer is sound. -/
theorem decodeStream_sound (f : Format) (inp : Input) (c : Cursor) : Sound inp c (decodeStream f inp c) := by
  cases f
  · exact decodeSeed_sound _ _
  · exact decodeLz_sound _ _
  · exact decodeSample_sound _ _ _ _ _
  · exact decodeTrack_sound _ _
  · exact decodePair_sound _ _

/-! ## Which instructions a format gives -/

theorem decodeSeed_instr {inp : Input} {c c' : Cursor} {i : Instr} (h : decodeSeed inp c = .ok (i, c')) :
    ∃ b, i = .seed b := by
  unfold decodeSeed at h
  split at h
  · cases h
  · cases h; exact ⟨_, rfl⟩

theorem decodeMatch_instr {inp : Input} {c c' : Cursor} {i : Instr} (h : decodeMatch inp c = .ok (i, c')) :
    (∃ g x len, i = .matchNew g x len) ∨ (∃ len, i = .matchReuse len) := by
  unfold decodeMatch at h
  split at h
  · cases h
  · split at h
    · split at h
      · cases h
      · cases h; exact .inr ⟨_, rfl⟩
    · split at h
      · cases h
      · split at h
        · cases h
        · cases h; exact .inl ⟨_, _, _, rfl⟩

theorem decodeLz_instr {inp : Input} {c c' : Cursor} {i : Instr} (h : decodeLz inp c = .ok (i, c')) :
    (∃ b, i = .lit b) ∨ (∃ g x len, i = .matchNew g x len) ∨ (∃ len, i = .matchReuse len) := by
  unfold decodeLz at h
  split at h
  · cases h
  · exact .inr (decodeMatch_instr h)
  · split at h
    · cases h
    · cases h; exact .inl ⟨_, rfl⟩

theorem decodeSample_instr {w16 pred : Bool} {dh : Nat} {inp : Input} {c c' : Cursor} {i : Instr}
    (h : decodeSample w16 pred dh inp c = .ok (i, c')) : ∃ code, i = sampleInstr w16 pred code := by
  unfold decodeSample at h
  split at h
  · cases h
  · cases h; exact ⟨_, rfl⟩

theorem readPairBytes_length {inp : Input} {n : Nat} {c c' : Cursor} {ps : List (Byte × Byte)}
    (h : readPairBytes inp n c = .ok (ps, c')) : ps.length = n := by
  induction n generalizing c c' ps with
  | zero => simp only [readPairBytes] at h; cases h; rfl
  | succ n ih =>
    simp only [readPairBytes] at h
    split at h
    · cases h
    · split at h
      · cases h
      · rename_i k; cases h; simp [ih k]

theorem decodeTrack_instr {inp : Input} {c c' : Cursor} {i : Instr} (h : decodeTrack inp c = .ok (i, c')) :
    i = .evtEnd ∨ ∃ rep pairs, i = .evt rep pairs ∧ pairs.length ≤ 15 := by
  unfold decodeTrack at h
  split at h
  · cases h
  · split at h
    · cases h; exact .inl rfl
    · split at h
      · cases h
      · rename_i k
        cases h
        exact .inr ⟨_, _, rfl, by rw [readPairBytes_length k]; omega⟩

theorem decodePair_instr {inp : Input} {c c' : Cursor} {i : Instr} (h : decodePair inp c = .ok (i, c')) :
    ∃ code op, i = pairInstr code op := by
  unfold decodePair at h
  split at h
  · cases h
  · cases h; exact ⟨_, _, rfl⟩

end Sys2Proof
end

