-- ==== Sys2Proof/Laws/Memory.lean ====
section
/-! SUPPORT. The laws of the spaces: read after write, and the canonical form is kept by every operation that writes. -/

namespace Sys2Proof.Machine

variable {α : Type}

/-! ## Read after write -/

theorem storeGet_storeSet (m : Store α) (a b : Nat) (v : α) :
    storeGet (storeSet m a v) b = if b = a then some v else storeGet m b := by
  induction m with
  | nil => simp [storeSet, storeGet, eq_comm]
  | cons p t ih =>
    obtain ⟨c, w⟩ := p
    simp only [eq_comm (a := b) (b := a)] at ih ⊢
    by_cases h1 : a < c
    · simp [storeSet, storeGet, h1]
    · by_cases h2 : a = c
      · subst h2
        by_cases hb : a = b <;> simp [storeSet, storeGet, hb]
      · by_cases hc : c = b
        · have hab : ¬a = b := by omega
          subst hc
          simp [storeSet, storeGet, h1, hab]
        · simp [storeSet, storeGet, h1, h2, hc, ih]

theorem storeGet_storeSet_self (m : Store α) (a : Nat) (v : α) : storeGet (storeSet m a v) a = some v := by
  simp [storeGet_storeSet]

theorem storeGet_storeSet_of_ne (m : Store α) {a b : Nat} (v : α) (h : b ≠ a) :
    storeGet (storeSet m a v) b = storeGet m b := by
  simp [storeGet_storeSet, h]

theorem byteAt_storeSet (blank : Nat → Byte) (m : Store Byte) (a b : Nat) (v : Byte) :
    byteAt blank (storeSet m a v) b = if b = a then v else byteAt blank m b := by
  unfold byteAt
  rw [storeGet_storeSet]
  split <;> rfl

theorem cellAt_storeSet (blank : Nat → Cell) (m : Store Cell) (a b : Nat) (v : Cell) :
    cellAt blank (storeSet m a v) b = if b = a then v else cellAt blank m b := by
  unfold cellAt
  rw [storeGet_storeSet]
  split <;> rfl

/-! ## The canonical form -/

theorem storeFrom_mono {lo hi : Nat} (h : lo ≤ hi) {m : Store α} (hm : storeFrom hi m = true) :
    storeFrom lo m = true := by
  cases m with
  | nil => rfl
  | cons p t =>
    simp only [storeFrom, Bool.and_eq_true, decide_eq_true_eq] at hm ⊢
    exact ⟨by omega, hm.2⟩

theorem storeFrom_storeSet {lo : Nat} {m : Store α} {a : Nat} (v : α) (ha : lo ≤ a) (hm : storeFrom lo m = true) :
    storeFrom lo (storeSet m a v) = true := by
  induction m generalizing lo with
  | nil => simp [storeSet, storeFrom, ha]
  | cons p t ih =>
    obtain ⟨c, w⟩ := p
    simp only [storeFrom, Bool.and_eq_true, decide_eq_true_eq] at hm
    simp only [storeSet]
    split_ifs with h1 h2
    · simp only [storeFrom, Bool.and_eq_true, decide_eq_true_eq]
      exact ⟨ha, by omega, hm.2⟩
    · subst h2
      simp only [storeFrom, Bool.and_eq_true, decide_eq_true_eq]
      exact hm
    · simp only [storeFrom, Bool.and_eq_true, decide_eq_true_eq]
      exact ⟨hm.1, ih (by omega) hm.2⟩

/-- A write keeps the canonical form. -/
theorem storeSet_wf {m : Store α} (a : Nat) (v : α) (hm : storeWf m = true) : storeWf (storeSet m a v) = true :=
  storeFrom_storeSet v (Nat.zero_le a) hm

theorem storeGet_of_storeFrom {lo : Nat} {m : Store α} (hm : storeFrom lo m = true) {a : Nat} (ha : a < lo) :
    storeGet m a = none := by
  induction m generalizing lo with
  | nil => rfl
  | cons p t ih =>
    obtain ⟨c, w⟩ := p
    simp only [storeFrom, Bool.and_eq_true, decide_eq_true_eq] at hm
    simp only [storeGet]
    rw [if_neg (by omega)]
    exact ih hm.2 (by omega)

/-- In canonical form, spaces that read the same are the same data. -/
theorem store_ext {lo : Nat} {m n : Store α} (hm : storeFrom lo m = true) (hn : storeFrom lo n = true)
    (h : ∀ a, storeGet m a = storeGet n a) : m = n := by
  induction m generalizing lo n with
  | nil =>
    cases n with
    | nil => rfl
    | cons q u => have := h q.1; simp [storeGet] at this
  | cons p t ih =>
    obtain ⟨c, w⟩ := p
    simp only [storeFrom, Bool.and_eq_true, decide_eq_true_eq] at hm
    cases n with
    | nil => have := h c; simp [storeGet] at this
    | cons q u =>
      obtain ⟨d, x⟩ := q
      simp only [storeFrom, Bool.and_eq_true, decide_eq_true_eq] at hn
      have hcd : c = d := by
        rcases Nat.lt_trichotomy c d with hlt | heq | hgt
        · have h1 := h c
          simp only [storeGet, if_true, if_neg (show ¬ d = c by omega)] at h1
          rw [storeGet_of_storeFrom hn.2 (show c < d + 1 by omega)] at h1
          cases h1
        · exact heq
        · have h1 := h d
          simp only [storeGet, if_true, if_neg (show ¬ c = d by omega)] at h1
          rw [storeGet_of_storeFrom hm.2 (show d < c + 1 by omega)] at h1
          cases h1
      subst hcd
      have hw : w = x := by
        have h1 := h c
        simpa [storeGet] using h1
      subst hw
      congr 1
      refine ih hm.2 hn.2 fun a => ?_
      rcases Nat.lt_or_ge a (c + 1) with hlt | hge
      · rw [storeGet_of_storeFrom hm.2 hlt, storeGet_of_storeFrom hn.2 hlt]
      · have h1 := h a
        simpa only [storeGet, if_neg (show ¬ c = a by omega)] using h1

/-! ## The operations that write -/

theorem lzuPut_wf {u : Lzu} (b : Byte) (h : storeWf u.out = true) : storeWf (lzuPut u b).out = true :=
  storeSet_wf _ _ h

theorem lzuCopy_wf (blank : Nat → Byte) (off : Int) (n : Nat) {u : Lzu} (h : storeWf u.out = true) :
    storeWf (lzuCopy blank off n u).out = true := by
  induction n generalizing u with
  | zero => exact h
  | succ n ih => exact ih (lzuPut_wf _ h)

theorem putSample_wf (w : Nat) {m : Store Byte} (j : Nat) (out : Int) (h : storeWf m = true) :
    storeWf (putSample w m j out) = true := by
  unfold putSample
  dsimp only
  split
  · exact storeSet_wf _ _ h
  · exact storeSet_wf _ _ (storeSet_wf _ _ h)

theorem putRows_wf (rows : Nat) (c : Cell) (row span : Nat) {m : Store Cell} (h : storeWf m = true) :
    storeWf (putRows rows c row span m) = true := by
  induction span generalizing row m with
  | zero => exact h
  | succ n ih =>
    simp only [putRows]
    split
    · exact ih _ (storeSet_wf _ _ h)
    · exact ih _ h

theorem clearRows_wf {m : Store Cell} (r : Nat) (h : storeWf m = true) : storeWf (clearRows m r) = true := by
  induction r with
  | zero => exact h
  | succ r ih => exact storeSet_wf _ _ ih

theorem reset_memoryWf : memoryWf State.reset = true := by decide

/-! ## What a multi-place write reads as -/

theorem cellAt_clearRows (blank : Nat → Cell) (m : Store Cell) (r a : Nat) :
    cellAt blank (clearRows m r) a = if a < r then emptyCell else cellAt blank m a := by
  induction r with
  | zero => simp [clearRows]
  | succ r ih =>
    simp only [clearRows, cellAt_storeSet, ih]
    split_ifs <;> first | rfl | omega

theorem cellAt_putRows (blank : Nat → Cell) (rows : Nat) (c : Cell) (row span : Nat) (m : Store Cell) (a : Nat) :
    cellAt blank (putRows rows c row span m) a =
      if row ≤ a ∧ a < row + span ∧ a < rows then c else cellAt blank m a := by
  induction span generalizing row m with
  | zero => simp only [putRows]; rw [if_neg (by omega)]
  | succ n ih =>
    simp only [putRows, ih]
    by_cases h : row < rows
    · simp only [h, if_true, cellAt_storeSet]
      split_ifs <;> first | rfl | omega
    · simp only [h, if_false]
      split_ifs <;> first | rfl | omega

/-- An 8-bit sample is one byte, a 16-bit sample two with the least significant first (R40, R50). -/
theorem byteAt_putSample (blank : Nat → Byte) (w : Nat) (m : Store Byte) (j : Nat) (out : Int) (a : Nat) :
    byteAt blank (putSample w m j out) a =
      if w = 8 then (if a = j then (BitVec.ofInt 16 out).setWidth 8 else byteAt blank m a)
      else if a = 2 * j + 1 then (BitVec.ofInt 16 out).extractLsb' 8 8
      else if a = 2 * j then (BitVec.ofInt 16 out).setWidth 8
      else byteAt blank m a := by
  unfold putSample
  dsimp only
  split
  · exact byteAt_storeSet ..
  · rw [byteAt_storeSet, byteAt_storeSet]

end Sys2Proof.Machine
end

