-- ==== Sys2Proof/Laws/State.lean ====
section
/-! SUPPORT. What each update of a record leaves in each field: one lemma per field per update, all by rfl, so that no
proof unfolds an update. -/

namespace Sys2Proof.Machine

/-! ## State -/

@[simp] theorem setLzu_lzu (s : State) (u : Lzu) : (s.setLzu u).lzu = u := rfl
@[simp] theorem setLzu_dsu (s : State) (u : Lzu) : (s.setLzu u).dsu = s.dsu := rfl
@[simp] theorem setLzu_peu (s : State) (u : Lzu) : (s.setLzu u).peu = s.peu := rfl
@[simp] theorem setLzu_host (s : State) (u : Lzu) : (s.setLzu u).host = s.host := rfl
@[simp] theorem setLzu_replies (s : State) (u : Lzu) : (s.setLzu u).replies = s.replies := rfl
@[simp] theorem setLzu_agenda (s : State) (u : Lzu) : (s.setLzu u).agenda = s.agenda := rfl
@[simp] theorem setLzu_rounds (s : State) (u : Lzu) : (s.setLzu u).rounds = s.rounds := rfl
@[simp] theorem setLzu_draws (s : State) (u : Lzu) : (s.setLzu u).draws = s.draws := rfl
@[simp] theorem setLzu_epoch (s : State) (u : Lzu) : (s.setLzu u).epoch = s.epoch := rfl

@[simp] theorem setDsu_lzu (s : State) (u : Dsu) : (s.setDsu u).lzu = s.lzu := rfl
@[simp] theorem setDsu_dsu (s : State) (u : Dsu) : (s.setDsu u).dsu = u := rfl
@[simp] theorem setDsu_peu (s : State) (u : Dsu) : (s.setDsu u).peu = s.peu := rfl
@[simp] theorem setDsu_host (s : State) (u : Dsu) : (s.setDsu u).host = s.host := rfl
@[simp] theorem setDsu_replies (s : State) (u : Dsu) : (s.setDsu u).replies = s.replies := rfl
@[simp] theorem setDsu_agenda (s : State) (u : Dsu) : (s.setDsu u).agenda = s.agenda := rfl
@[simp] theorem setDsu_rounds (s : State) (u : Dsu) : (s.setDsu u).rounds = s.rounds := rfl
@[simp] theorem setDsu_draws (s : State) (u : Dsu) : (s.setDsu u).draws = s.draws := rfl
@[simp] theorem setDsu_epoch (s : State) (u : Dsu) : (s.setDsu u).epoch = s.epoch := rfl

@[simp] theorem setPeu_lzu (s : State) (u : Peu) : (s.setPeu u).lzu = s.lzu := rfl
@[simp] theorem setPeu_dsu (s : State) (u : Peu) : (s.setPeu u).dsu = s.dsu := rfl
@[simp] theorem setPeu_peu (s : State) (u : Peu) : (s.setPeu u).peu = u := rfl
@[simp] theorem setPeu_host (s : State) (u : Peu) : (s.setPeu u).host = s.host := rfl
@[simp] theorem setPeu_replies (s : State) (u : Peu) : (s.setPeu u).replies = s.replies := rfl
@[simp] theorem setPeu_agenda (s : State) (u : Peu) : (s.setPeu u).agenda = s.agenda := rfl
@[simp] theorem setPeu_rounds (s : State) (u : Peu) : (s.setPeu u).rounds = s.rounds := rfl
@[simp] theorem setPeu_draws (s : State) (u : Peu) : (s.setPeu u).draws = s.draws := rfl
@[simp] theorem setPeu_epoch (s : State) (u : Peu) : (s.setPeu u).epoch = s.epoch := rfl

@[simp] theorem setAgenda_lzu (s : State) (l : List Agent) (n : Nat) : (s.setAgenda l n).lzu = s.lzu := rfl
@[simp] theorem setAgenda_dsu (s : State) (l : List Agent) (n : Nat) : (s.setAgenda l n).dsu = s.dsu := rfl
@[simp] theorem setAgenda_peu (s : State) (l : List Agent) (n : Nat) : (s.setAgenda l n).peu = s.peu := rfl
@[simp] theorem setAgenda_host (s : State) (l : List Agent) (n : Nat) : (s.setAgenda l n).host = s.host := rfl
@[simp] theorem setAgenda_replies (s : State) (l : List Agent) (n : Nat) : (s.setAgenda l n).replies = s.replies := rfl
@[simp] theorem setAgenda_agenda (s : State) (l : List Agent) (n : Nat) : (s.setAgenda l n).agenda = l := rfl
@[simp] theorem setAgenda_rounds (s : State) (l : List Agent) (n : Nat) : (s.setAgenda l n).rounds = n := rfl
@[simp] theorem setAgenda_draws (s : State) (l : List Agent) (n : Nat) : (s.setAgenda l n).draws = s.draws := rfl
@[simp] theorem setAgenda_epoch (s : State) (l : List Agent) (n : Nat) : (s.setAgenda l n).epoch = s.epoch := rfl

@[simp] theorem setHost_lzu (s : State) (l : List HostOp) : (s.setHost l).lzu = s.lzu := rfl
@[simp] theorem setHost_dsu (s : State) (l : List HostOp) : (s.setHost l).dsu = s.dsu := rfl
@[simp] theorem setHost_peu (s : State) (l : List HostOp) : (s.setHost l).peu = s.peu := rfl
@[simp] theorem setHost_host (s : State) (l : List HostOp) : (s.setHost l).host = l := rfl
@[simp] theorem setHost_replies (s : State) (l : List HostOp) : (s.setHost l).replies = s.replies := rfl
@[simp] theorem setHost_agenda (s : State) (l : List HostOp) : (s.setHost l).agenda = s.agenda := rfl
@[simp] theorem setHost_rounds (s : State) (l : List HostOp) : (s.setHost l).rounds = s.rounds := rfl
@[simp] theorem setHost_draws (s : State) (l : List HostOp) : (s.setHost l).draws = s.draws := rfl
@[simp] theorem setHost_epoch (s : State) (l : List HostOp) : (s.setHost l).epoch = s.epoch := rfl

@[simp] theorem reply_lzu (s : State) (r : Reply) : (s.reply r).lzu = s.lzu := rfl
@[simp] theorem reply_dsu (s : State) (r : Reply) : (s.reply r).dsu = s.dsu := rfl
@[simp] theorem reply_peu (s : State) (r : Reply) : (s.reply r).peu = s.peu := rfl
@[simp] theorem reply_host (s : State) (r : Reply) : (s.reply r).host = s.host := rfl
@[simp] theorem reply_replies (s : State) (r : Reply) : (s.reply r).replies = r :: s.replies := rfl
@[simp] theorem reply_agenda (s : State) (r : Reply) : (s.reply r).agenda = s.agenda := rfl
@[simp] theorem reply_rounds (s : State) (r : Reply) : (s.reply r).rounds = s.rounds := rfl
@[simp] theorem reply_draws (s : State) (r : Reply) : (s.reply r).draws = s.draws := rfl
@[simp] theorem reply_epoch (s : State) (r : Reply) : (s.reply r).epoch = s.epoch := rfl

/-! ## Bank -/

@[simp] theorem enterFail_state (b : Bank) (c : Cause) : (enterFail b c).state = .fail := rfl
@[simp] theorem enterFail_cause (b : Bank) (c : Cause) : (enterFail b c).cause = c := rfl
@[simp] theorem enterFail_inLen (b : Bank) (c : Cause) : (enterFail b c).inLen = b.inLen := rfl
@[simp] theorem enterFail_outLen (b : Bank) (c : Cause) : (enterFail b c).outLen = b.outLen := rfl
@[simp] theorem enterFail_config (b : Bank) (c : Cause) : (enterFail b c).config = b.config := rfl
@[simp] theorem enterFail_ip (b : Bank) (c : Cause) : (enterFail b c).ip = b.ip := rfl
@[simp] theorem enterFail_len (b : Bank) (c : Cause) : (enterFail b c).len = b.len := rfl
@[simp] theorem enterFail_seen (b : Bank) (c : Cause) : (enterFail b c).seen = b.seen := rfl

@[simp] theorem complete_state (b : Bank) : (complete b).state = .done := rfl
@[simp] theorem complete_cause (b : Bank) : (complete b).cause = b.cause := rfl
@[simp] theorem complete_inLen (b : Bank) : (complete b).inLen = b.inLen := rfl
@[simp] theorem complete_outLen (b : Bank) : (complete b).outLen = b.outLen := rfl
@[simp] theorem complete_config (b : Bank) : (complete b).config = b.config := rfl
@[simp] theorem complete_ip (b : Bank) : (complete b).ip = b.ip := rfl
@[simp] theorem complete_len (b : Bank) : (complete b).len = b.len := rfl
@[simp] theorem complete_seen (b : Bank) : (complete b).seen = b.seen := rfl

@[simp] theorem beginOperation_state (b : Bank) : (beginOperation b).state = .busy := rfl
@[simp] theorem beginOperation_cause (b : Bank) : (beginOperation b).cause = .none := rfl
@[simp] theorem beginOperation_inLen (b : Bank) : (beginOperation b).inLen = b.inLen := rfl
@[simp] theorem beginOperation_outLen (b : Bank) : (beginOperation b).outLen = b.outLen := rfl
@[simp] theorem beginOperation_config (b : Bank) : (beginOperation b).config = b.config := rfl
@[simp] theorem beginOperation_ip (b : Bank) : (beginOperation b).ip = 0 := rfl
@[simp] theorem beginOperation_len (b : Bank) : (beginOperation b).len = b.inLen.toNat := rfl
@[simp] theorem beginOperation_seen (b : Bank) : (beginOperation b).seen = false := rfl

/-! ## LZU -/

@[simp] theorem lzuMove_bank (u : Lzu) (c : Cursor) : (lzuMove u c).bank = { u.bank with ip := c.ip } := rfl
@[simp] theorem lzuMove_input (u : Lzu) (c : Cursor) : (lzuMove u c).input = u.input := rfl
@[simp] theorem lzuMove_out (u : Lzu) (c : Cursor) : (lzuMove u c).out = u.out := rfl
@[simp] theorem lzuMove_outPre (u : Lzu) (c : Cursor) : (lzuMove u c).outPre = u.outPre := rfl
@[simp] theorem lzuMove_cbd (u : Lzu) (c : Cursor) : (lzuMove u c).cbd = { data := c.data, carry := c.carry } := rfl
@[simp] theorem lzuMove_n (u : Lzu) (c : Cursor) : (lzuMove u c).n = u.n := rfl
@[simp] theorem lzuMove_w (u : Lzu) (c : Cursor) : (lzuMove u c).w = u.w := rfl
@[simp] theorem lzuMove_prevOff (u : Lzu) (c : Cursor) : (lzuMove u c).prevOff = u.prevOff := rfl
@[simp] theorem lzuMove_off (u : Lzu) (c : Cursor) : (lzuMove u c).off = u.off := rfl
@[simp] theorem lzuMove_g (u : Lzu) (c : Cursor) : (lzuMove u c).g = u.g := rfl
@[simp] theorem lzuMove_len (u : Lzu) (c : Cursor) : (lzuMove u c).len = u.len := rfl
@[simp] theorem lzuMove_adj (u : Lzu) (c : Cursor) : (lzuMove u c).adj = u.adj := rfl

@[simp] theorem lzuFail_bank (u : Lzu) (c : Cause) : (lzuFail u c).bank = enterFail u.bank c := rfl
@[simp] theorem lzuFail_input (u : Lzu) (c : Cause) : (lzuFail u c).input = u.input := rfl
@[simp] theorem lzuFail_out (u : Lzu) (c : Cause) : (lzuFail u c).out = u.out := rfl
@[simp] theorem lzuFail_outPre (u : Lzu) (c : Cause) : (lzuFail u c).outPre = u.outPre := rfl
@[simp] theorem lzuFail_cbd (u : Lzu) (c : Cause) : (lzuFail u c).cbd = u.cbd := rfl
@[simp] theorem lzuFail_n (u : Lzu) (c : Cause) : (lzuFail u c).n = u.n := rfl
@[simp] theorem lzuFail_w (u : Lzu) (c : Cause) : (lzuFail u c).w = u.w := rfl
@[simp] theorem lzuFail_prevOff (u : Lzu) (c : Cause) : (lzuFail u c).prevOff = u.prevOff := rfl
@[simp] theorem lzuFail_off (u : Lzu) (c : Cause) : (lzuFail u c).off = u.off := rfl
@[simp] theorem lzuFail_g (u : Lzu) (c : Cause) : (lzuFail u c).g = u.g := rfl
@[simp] theorem lzuFail_len (u : Lzu) (c : Cause) : (lzuFail u c).len = u.len := rfl
@[simp] theorem lzuFail_adj (u : Lzu) (c : Cause) : (lzuFail u c).adj = u.adj := rfl

@[simp] theorem lzuPut_bank (u : Lzu) (b : Byte) : (lzuPut u b).bank = u.bank := rfl
@[simp] theorem lzuPut_input (u : Lzu) (b : Byte) : (lzuPut u b).input = u.input := rfl
@[simp] theorem lzuPut_out (u : Lzu) (b : Byte) : (lzuPut u b).out = storeSet u.out u.w b := rfl
@[simp] theorem lzuPut_outPre (u : Lzu) (b : Byte) : (lzuPut u b).outPre = u.outPre := rfl
@[simp] theorem lzuPut_cbd (u : Lzu) (b : Byte) : (lzuPut u b).cbd = u.cbd := rfl
@[simp] theorem lzuPut_n (u : Lzu) (b : Byte) : (lzuPut u b).n = u.n := rfl
@[simp] theorem lzuPut_w (u : Lzu) (b : Byte) : (lzuPut u b).w = u.w + 1 := rfl
@[simp] theorem lzuPut_prevOff (u : Lzu) (b : Byte) : (lzuPut u b).prevOff = u.prevOff := rfl
@[simp] theorem lzuPut_off (u : Lzu) (b : Byte) : (lzuPut u b).off = u.off := rfl
@[simp] theorem lzuPut_g (u : Lzu) (b : Byte) : (lzuPut u b).g = u.g := rfl
@[simp] theorem lzuPut_len (u : Lzu) (b : Byte) : (lzuPut u b).len = u.len := rfl
@[simp] theorem lzuPut_adj (u : Lzu) (b : Byte) : (lzuPut u b).adj = u.adj := rfl

/-! ## DSU -/

@[simp] theorem dsuMove_bank (u : Dsu) (c : Cursor) : (dsuMove u c).bank = { u.bank with ip := c.ip } := rfl
@[simp] theorem dsuMove_input (u : Dsu) (c : Cursor) : (dsuMove u c).input = u.input := rfl
@[simp] theorem dsuMove_smp (u : Dsu) (c : Cursor) : (dsuMove u c).smp = u.smp := rfl
@[simp] theorem dsuMove_smpPre (u : Dsu) (c : Cursor) : (dsuMove u c).smpPre = u.smpPre := rfl
@[simp] theorem dsuMove_cbd (u : Dsu) (c : Cursor) : (dsuMove u c).cbd = { data := c.data, carry := c.carry } := rfl
@[simp] theorem dsuMove_w16 (u : Dsu) (c : Cursor) : (dsuMove u c).w16 = u.w16 := rfl
@[simp] theorem dsuMove_pred (u : Dsu) (c : Cursor) : (dsuMove u c).pred = u.pred := rfl
@[simp] theorem dsuMove_chans (u : Dsu) (c : Cursor) : (dsuMove u c).chans = u.chans := rfl
@[simp] theorem dsuMove_frames (u : Dsu) (c : Cursor) : (dsuMove u c).frames = u.frames := rfl
@[simp] theorem dsuMove_dh (u : Dsu) (c : Cursor) : (dsuMove u c).dh = u.dh := rfl
@[simp] theorem dsuMove_v (u : Dsu) (c : Cursor) : (dsuMove u c).v = u.v := rfl
@[simp] theorem dsuMove_e (u : Dsu) (c : Cursor) : (dsuMove u c).e = u.e := rfl
@[simp] theorem dsuMove_prev (u : Dsu) (c : Cursor) : (dsuMove u c).prev = u.prev := rfl
@[simp] theorem dsuMove_next (u : Dsu) (c : Cursor) : (dsuMove u c).next = u.next := rfl
@[simp] theorem dsuMove_prevp (u : Dsu) (c : Cursor) : (dsuMove u c).prevp = u.prevp := rfl
@[simp] theorem dsuMove_ch (u : Dsu) (c : Cursor) : (dsuMove u c).ch = u.ch := rfl
@[simp] theorem dsuMove_fr (u : Dsu) (c : Cursor) : (dsuMove u c).fr = u.fr := rfl
@[simp] theorem dsuMove_count (u : Dsu) (c : Cursor) : (dsuMove u c).count = u.count := rfl

@[simp] theorem dsuFail_bank (u : Dsu) (c : Cause) : (dsuFail u c).bank = enterFail u.bank c := rfl
@[simp] theorem dsuFail_input (u : Dsu) (c : Cause) : (dsuFail u c).input = u.input := rfl
@[simp] theorem dsuFail_smp (u : Dsu) (c : Cause) : (dsuFail u c).smp = u.smp := rfl
@[simp] theorem dsuFail_smpPre (u : Dsu) (c : Cause) : (dsuFail u c).smpPre = u.smpPre := rfl
@[simp] theorem dsuFail_cbd (u : Dsu) (c : Cause) : (dsuFail u c).cbd = u.cbd := rfl
@[simp] theorem dsuFail_w16 (u : Dsu) (c : Cause) : (dsuFail u c).w16 = u.w16 := rfl
@[simp] theorem dsuFail_pred (u : Dsu) (c : Cause) : (dsuFail u c).pred = u.pred := rfl
@[simp] theorem dsuFail_chans (u : Dsu) (c : Cause) : (dsuFail u c).chans = u.chans := rfl
@[simp] theorem dsuFail_frames (u : Dsu) (c : Cause) : (dsuFail u c).frames = u.frames := rfl
@[simp] theorem dsuFail_dh (u : Dsu) (c : Cause) : (dsuFail u c).dh = u.dh := rfl
@[simp] theorem dsuFail_v (u : Dsu) (c : Cause) : (dsuFail u c).v = u.v := rfl
@[simp] theorem dsuFail_e (u : Dsu) (c : Cause) : (dsuFail u c).e = u.e := rfl
@[simp] theorem dsuFail_prev (u : Dsu) (c : Cause) : (dsuFail u c).prev = u.prev := rfl
@[simp] theorem dsuFail_next (u : Dsu) (c : Cause) : (dsuFail u c).next = u.next := rfl
@[simp] theorem dsuFail_prevp (u : Dsu) (c : Cause) : (dsuFail u c).prevp = u.prevp := rfl
@[simp] theorem dsuFail_ch (u : Dsu) (c : Cause) : (dsuFail u c).ch = u.ch := rfl
@[simp] theorem dsuFail_fr (u : Dsu) (c : Cause) : (dsuFail u c).fr = u.fr := rfl
@[simp] theorem dsuFail_count (u : Dsu) (c : Cause) : (dsuFail u c).count = u.count := rfl

@[simp] theorem dsuInit_bank (u : Dsu) : (dsuInit u).bank = u.bank := rfl
@[simp] theorem dsuInit_input (u : Dsu) : (dsuInit u).input = u.input := rfl
@[simp] theorem dsuInit_smp (u : Dsu) : (dsuInit u).smp = u.smp := rfl
@[simp] theorem dsuInit_smpPre (u : Dsu) : (dsuInit u).smpPre = u.smpPre := rfl
@[simp] theorem dsuInit_cbd (u : Dsu) : (dsuInit u).cbd = u.cbd := rfl
@[simp] theorem dsuInit_w16 (u : Dsu) : (dsuInit u).w16 = u.w16 := rfl
@[simp] theorem dsuInit_pred (u : Dsu) : (dsuInit u).pred = u.pred := rfl
@[simp] theorem dsuInit_chans (u : Dsu) : (dsuInit u).chans = u.chans := rfl
@[simp] theorem dsuInit_frames (u : Dsu) : (dsuInit u).frames = u.frames := rfl
@[simp] theorem dsuInit_dh (u : Dsu) : (dsuInit u).dh = dhInit u.w16 := rfl
@[simp] theorem dsuInit_v (u : Dsu) : (dsuInit u).v = u.v := rfl
@[simp] theorem dsuInit_e (u : Dsu) : (dsuInit u).e = u.e := rfl
@[simp] theorem dsuInit_prev (u : Dsu) : (dsuInit u).prev = 0 := rfl
@[simp] theorem dsuInit_next (u : Dsu) : (dsuInit u).next = 0 := rfl
@[simp] theorem dsuInit_prevp (u : Dsu) : (dsuInit u).prevp = 0 := rfl
@[simp] theorem dsuInit_ch (u : Dsu) : (dsuInit u).ch = u.ch := rfl
@[simp] theorem dsuInit_fr (u : Dsu) : (dsuInit u).fr = u.fr := rfl
@[simp] theorem dsuInit_count (u : Dsu) : (dsuInit u).count = u.count := rfl

@[simp] theorem dsuCode_bank (w : Nat) (c : SampleCode) (u : Dsu) : (dsuCode w c u).bank = u.bank := rfl
@[simp] theorem dsuCode_input (w : Nat) (c : SampleCode) (u : Dsu) : (dsuCode w c u).input = u.input := rfl
@[simp] theorem dsuCode_smp (w : Nat) (c : SampleCode) (u : Dsu) : (dsuCode w c u).smp = u.smp := rfl
@[simp] theorem dsuCode_smpPre (w : Nat) (c : SampleCode) (u : Dsu) : (dsuCode w c u).smpPre = u.smpPre := rfl
@[simp] theorem dsuCode_cbd (w : Nat) (c : SampleCode) (u : Dsu) : (dsuCode w c u).cbd = u.cbd := rfl
@[simp] theorem dsuCode_w16 (w : Nat) (c : SampleCode) (u : Dsu) : (dsuCode w c u).w16 = u.w16 := rfl
@[simp] theorem dsuCode_pred (w : Nat) (c : SampleCode) (u : Dsu) : (dsuCode w c u).pred = u.pred := rfl
@[simp] theorem dsuCode_chans (w : Nat) (c : SampleCode) (u : Dsu) : (dsuCode w c u).chans = u.chans := rfl
@[simp] theorem dsuCode_frames (w : Nat) (c : SampleCode) (u : Dsu) : (dsuCode w c u).frames = u.frames := rfl
@[simp] theorem dsuCode_dh (w : Nat) (c : SampleCode) (u : Dsu) : (dsuCode w c u).dh = nextWidth u.dh (extraLength w (rawCode w c)) := rfl
@[simp] theorem dsuCode_v (w : Nat) (c : SampleCode) (u : Dsu) : (dsuCode w c u).v = (rawCode w c).setWidth 16 := rfl
@[simp] theorem dsuCode_e (w : Nat) (c : SampleCode) (u : Dsu) : (dsuCode w c u).e = extraLength w (rawCode w c) := rfl
@[simp] theorem dsuCode_prev (w : Nat) (c : SampleCode) (u : Dsu) : (dsuCode w c u).prev = u.prev := rfl
@[simp] theorem dsuCode_next (w : Nat) (c : SampleCode) (u : Dsu) : (dsuCode w c u).next = u.next := rfl
@[simp] theorem dsuCode_prevp (w : Nat) (c : SampleCode) (u : Dsu) : (dsuCode w c u).prevp = u.prevp := rfl
@[simp] theorem dsuCode_ch (w : Nat) (c : SampleCode) (u : Dsu) : (dsuCode w c u).ch = u.ch := rfl
@[simp] theorem dsuCode_fr (w : Nat) (c : SampleCode) (u : Dsu) : (dsuCode w c u).fr = u.fr := rfl
@[simp] theorem dsuCode_count (w : Nat) (c : SampleCode) (u : Dsu) : (dsuCode w c u).count = u.count := rfl

@[simp] theorem dsuPlain_bank (w : Nat) (d : Int) (u : Dsu) : (dsuPlain w d u).bank = u.bank := rfl
@[simp] theorem dsuPlain_input (w : Nat) (d : Int) (u : Dsu) : (dsuPlain w d u).input = u.input := rfl
@[simp] theorem dsuPlain_smp (w : Nat) (d : Int) (u : Dsu) : (dsuPlain w d u).smp = u.smp := rfl
@[simp] theorem dsuPlain_smpPre (w : Nat) (d : Int) (u : Dsu) : (dsuPlain w d u).smpPre = u.smpPre := rfl
@[simp] theorem dsuPlain_cbd (w : Nat) (d : Int) (u : Dsu) : (dsuPlain w d u).cbd = u.cbd := rfl
@[simp] theorem dsuPlain_w16 (w : Nat) (d : Int) (u : Dsu) : (dsuPlain w d u).w16 = u.w16 := rfl
@[simp] theorem dsuPlain_pred (w : Nat) (d : Int) (u : Dsu) : (dsuPlain w d u).pred = u.pred := rfl
@[simp] theorem dsuPlain_chans (w : Nat) (d : Int) (u : Dsu) : (dsuPlain w d u).chans = u.chans := rfl
@[simp] theorem dsuPlain_frames (w : Nat) (d : Int) (u : Dsu) : (dsuPlain w d u).frames = u.frames := rfl
@[simp] theorem dsuPlain_dh (w : Nat) (d : Int) (u : Dsu) : (dsuPlain w d u).dh = u.dh := rfl
@[simp] theorem dsuPlain_v (w : Nat) (d : Int) (u : Dsu) : (dsuPlain w d u).v = u.v := rfl
@[simp] theorem dsuPlain_e (w : Nat) (d : Int) (u : Dsu) : (dsuPlain w d u).e = u.e := rfl
@[simp] theorem dsuPlain_prev (w : Nat) (d : Int) (u : Dsu) : (dsuPlain w d u).prev = wrapS w (u.prev + d) := rfl
@[simp] theorem dsuPlain_next (w : Nat) (d : Int) (u : Dsu) : (dsuPlain w d u).next = u.next := rfl
@[simp] theorem dsuPlain_prevp (w : Nat) (d : Int) (u : Dsu) : (dsuPlain w d u).prevp = u.prevp := rfl
@[simp] theorem dsuPlain_ch (w : Nat) (d : Int) (u : Dsu) : (dsuPlain w d u).ch = u.ch := rfl
@[simp] theorem dsuPlain_fr (w : Nat) (d : Int) (u : Dsu) : (dsuPlain w d u).fr = u.fr := rfl
@[simp] theorem dsuPlain_count (w : Nat) (d : Int) (u : Dsu) : (dsuPlain w d u).count = u.count := rfl

@[simp] theorem dsuPredict_bank (w : Nat) (d : Int) (u : Dsu) : (dsuPredict w d u).bank = u.bank := rfl
@[simp] theorem dsuPredict_input (w : Nat) (d : Int) (u : Dsu) : (dsuPredict w d u).input = u.input := rfl
@[simp] theorem dsuPredict_smp (w : Nat) (d : Int) (u : Dsu) : (dsuPredict w d u).smp = u.smp := rfl
@[simp] theorem dsuPredict_smpPre (w : Nat) (d : Int) (u : Dsu) : (dsuPredict w d u).smpPre = u.smpPre := rfl
@[simp] theorem dsuPredict_cbd (w : Nat) (d : Int) (u : Dsu) : (dsuPredict w d u).cbd = u.cbd := rfl
@[simp] theorem dsuPredict_w16 (w : Nat) (d : Int) (u : Dsu) : (dsuPredict w d u).w16 = u.w16 := rfl
@[simp] theorem dsuPredict_pred (w : Nat) (d : Int) (u : Dsu) : (dsuPredict w d u).pred = u.pred := rfl
@[simp] theorem dsuPredict_chans (w : Nat) (d : Int) (u : Dsu) : (dsuPredict w d u).chans = u.chans := rfl
@[simp] theorem dsuPredict_frames (w : Nat) (d : Int) (u : Dsu) : (dsuPredict w d u).frames = u.frames := rfl
@[simp] theorem dsuPredict_dh (w : Nat) (d : Int) (u : Dsu) : (dsuPredict w d u).dh = u.dh := rfl
@[simp] theorem dsuPredict_v (w : Nat) (d : Int) (u : Dsu) : (dsuPredict w d u).v = u.v := rfl
@[simp] theorem dsuPredict_e (w : Nat) (d : Int) (u : Dsu) : (dsuPredict w d u).e = u.e := rfl
@[simp] theorem dsuPredict_prev (w : Nat) (d : Int) (u : Dsu) : (dsuPredict w d u).prev = u.prev := rfl
@[simp] theorem dsuPredict_next (w : Nat) (d : Int) (u : Dsu) : (dsuPredict w d u).next = nextPredictor w (wrapS w (u.next + d)) d u.prevp := rfl
@[simp] theorem dsuPredict_prevp (w : Nat) (d : Int) (u : Dsu) : (dsuPredict w d u).prevp = wrapS w (u.next + d) := rfl
@[simp] theorem dsuPredict_ch (w : Nat) (d : Int) (u : Dsu) : (dsuPredict w d u).ch = u.ch := rfl
@[simp] theorem dsuPredict_fr (w : Nat) (d : Int) (u : Dsu) : (dsuPredict w d u).fr = u.fr := rfl
@[simp] theorem dsuPredict_count (w : Nat) (d : Int) (u : Dsu) : (dsuPredict w d u).count = u.count := rfl

/-! ## PEU -/

@[simp] theorem peuMove_bank (u : Peu) (c : Cursor) : (peuMove u c).bank = { u.bank with ip := c.ip } := rfl
@[simp] theorem peuMove_input (u : Peu) (c : Cursor) : (peuMove u c).input = u.input := rfl
@[simp] theorem peuMove_cells (u : Peu) (c : Cursor) : (peuMove u c).cells = u.cells := rfl
@[simp] theorem peuMove_cellsPre (u : Peu) (c : Cursor) : (peuMove u c).cellsPre = u.cellsPre := rfl
@[simp] theorem peuMove_cellsStart (u : Peu) (c : Cursor) : (peuMove u c).cellsStart = u.cellsStart := rfl
@[simp] theorem peuMove_dialect (u : Peu) (c : Cursor) : (peuMove u c).dialect = u.dialect := rfl
@[simp] theorem peuMove_rows (u : Peu) (c : Cursor) : (peuMove u c).rows = u.rows := rfl
@[simp] theorem peuMove_row (u : Peu) (c : Cursor) : (peuMove u c).row = u.row := rfl
@[simp] theorem peuMove_cb (u : Peu) (c : Cursor) : (peuMove u c).cb = u.cb := rfl
@[simp] theorem peuMove_k (u : Peu) (c : Cursor) : (peuMove u c).k = u.k := rfl
@[simp] theorem peuMove_wcell (u : Peu) (c : Cursor) : (peuMove u c).wcell = u.wcell := rfl

@[simp] theorem peuFail_bank (u : Peu) (c : Cause) : (peuFail u c).bank = enterFail u.bank c := rfl
@[simp] theorem peuFail_input (u : Peu) (c : Cause) : (peuFail u c).input = u.input := rfl
@[simp] theorem peuFail_cells (u : Peu) (c : Cause) : (peuFail u c).cells = u.cells := rfl
@[simp] theorem peuFail_cellsPre (u : Peu) (c : Cause) : (peuFail u c).cellsPre = u.cellsPre := rfl
@[simp] theorem peuFail_cellsStart (u : Peu) (c : Cause) : (peuFail u c).cellsStart = u.cellsStart := rfl
@[simp] theorem peuFail_dialect (u : Peu) (c : Cause) : (peuFail u c).dialect = u.dialect := rfl
@[simp] theorem peuFail_rows (u : Peu) (c : Cause) : (peuFail u c).rows = u.rows := rfl
@[simp] theorem peuFail_row (u : Peu) (c : Cause) : (peuFail u c).row = u.row := rfl
@[simp] theorem peuFail_cb (u : Peu) (c : Cause) : (peuFail u c).cb = u.cb := rfl
@[simp] theorem peuFail_k (u : Peu) (c : Cause) : (peuFail u c).k = u.k := rfl
@[simp] theorem peuFail_wcell (u : Peu) (c : Cause) : (peuFail u c).wcell = u.wcell := rfl

end Sys2Proof.Machine
end

