-- ==== Sys2Proof/Laws/Ops.lean ====
section
/-! SUPPORT. What each shared operation can do, said once: proofs cite these and do not unfold the operations. -/

namespace Sys2Proof.Machine

/-! ## LZU -/

theorem lzuFinish_cases (u : Lzu) :
    (u.n ≤ u.w ∧ lzuFinish u = { u with bank := complete u.bank }) ∨ (u.w < u.n ∧ lzuFinish u = u) := by
  unfold lzuFinish
  split
  · exact .inl ⟨‹_›, rfl⟩
  · exact .inr ⟨by omega, rfl⟩

theorem lzuCopy_eq (blank : Nat → Byte) (off : Int) (n : Nat) (u : Lzu) :
    lzuCopy blank off n u = { u with out := (lzuCopy blank off n u).out, w := u.w + n } := by
  induction n generalizing u with
  | zero => rfl
  | succ n ih =>
    simp only [lzuCopy]
    rw [ih]
    simp only [lzuPut]
    congr 1
    omega

theorem lzuCopy_w (blank : Nat → Byte) (off : Int) (n : Nat) (u : Lzu) : (lzuCopy blank off n u).w = u.w + n := by
  rw [lzuCopy_eq]

/-- The copy writes the `n` bytes from W on and no other. -/
theorem lzuCopy_outside (blank : Nat → Byte) (off : Int) (n : Nat) (u : Lzu) (a : Nat) (h : a < u.w ∨ u.w + n ≤ a) :
    byteAt blank (lzuCopy blank off n u).out a = byteAt blank u.out a := by
  induction n generalizing u with
  | zero => rfl
  | succ n ih =>
    simp only [lzuCopy]
    rw [ih _ (by simp only [lzuPut_w]; omega), lzuPut_out, byteAt_storeSet, if_neg (by omega)]

/-- Each byte copied is the byte `off` before it, read after the whole copy: a source inside the copied range has its
final value before it is read (R59, R235). -/
theorem lzuCopy_copied (blank : Nat → Byte) (off : Int) (n : Nat) (u : Lzu) (hneg : off < 0)
    (hlow : 0 ≤ (u.w : Int) + off) (i : Nat) (hi : i < n) :
    byteAt blank (lzuCopy blank off n u).out (u.w + i) =
      byteAt blank (lzuCopy blank off n u).out (((u.w + i : Nat) : Int) + off).toNat := by
  induction n generalizing u i with
  | zero => omega
  | succ n ih =>
    simp only [lzuCopy]
    cases i with
    | zero =>
      rw [lzuCopy_outside _ _ _ _ _ (.inl (by simp only [lzuPut_w]; omega)),
        lzuCopy_outside _ _ _ _ _ (.inl (by simp only [lzuPut_w]; omega)), lzuPut_out, byteAt_storeSet,
        byteAt_storeSet, if_pos (by omega), if_neg (by omega)]
      simp
    | succ i =>
      have h := ih (lzuPut u (byteAt blank u.out ((u.w : Int) + off).toNat)) (by simp only [lzuPut_w]; omega) i
        (by omega)
      simp only [lzuPut_w] at h
      rw [show u.w + (i + 1) = u.w + 1 + i by omega]
      exact h

/-- CHECK and COPY (R119, R120): BadOffset, LengthOverrun, or the copy and its completion. -/
theorem lzuMatch_cases (blank : Nat → Byte) (u : Lzu) :
    ((0 ≤ u.off ∨ (u.w : Int) + u.off < 0) ∧ lzuMatch blank u = lzuFail u .badOffset) ∨
    (u.off < 0 ∧ 0 ≤ (u.w : Int) + u.off ∧ (u.n : Int) - u.w < u.len ∧ lzuMatch blank u = lzuFail u .lengthOverrun) ∨
    (u.off < 0 ∧ 0 ≤ (u.w : Int) + u.off ∧ (u.len : Int) ≤ u.n - u.w ∧
      lzuMatch blank u = lzuFinish (lzuCopy blank u.off u.len u)) := by
  unfold lzuMatch
  split
  · exact .inl ⟨‹_›, rfl⟩
  · split
    · exact .inr (.inl ⟨by omega, by omega, ‹_›, rfl⟩)
    · exact .inr (.inr ⟨by omega, by omega, by omega, rfl⟩)

/-! ## DSU -/

theorem dsuFinish_cases (u : Dsu) :
    (u.frames * u.chans ≤ u.count ∧ dsuFinish u = { u with bank := complete u.bank }) ∨
    (u.count < u.frames * u.chans ∧ dsuFinish u = u) := by
  unfold dsuFinish
  split
  · exact .inl ⟨‹_›, rfl⟩
  · exact .inr ⟨by omega, rfl⟩

/-- The loop of R131: next frame, or next channel with or without a fresh context, or past the last channel. -/
theorem dsuAdvance_cases (u : Dsu) :
    (u.fr + 1 < u.frames ∧ dsuAdvance u = { u with fr := u.fr + 1 }) ∨
    (u.frames ≤ u.fr + 1 ∧ u.ch + 1 < u.chans ∧ Config.deltaChannelReset = true ∧
      dsuAdvance u = dsuInit { u with fr := 0, ch := u.ch + 1 }) ∨
    (u.frames ≤ u.fr + 1 ∧ (u.ch + 1 < u.chans → Config.deltaChannelReset = false) ∧
      dsuAdvance u = { u with fr := 0, ch := u.ch + 1 }) := by
  unfold dsuAdvance
  dsimp only
  split
  · exact .inl ⟨‹_›, rfl⟩
  · split
    · split
      · exact .inr (.inl ⟨by omega, ‹_›, ‹_›, rfl⟩)
      · rename_i hr
        exact .inr (.inr ⟨by omega, fun _ => Bool.eq_false_iff.mpr hr, rfl⟩)
    · rename_i hc
      exact .inr (.inr ⟨by omega, fun h => absurd h hc, rfl⟩)

/-! ## PEU -/

theorem endEvent_cases (u : Peu) :
    let row := u.row + repSpan (u.cb.toNat / 16)
    let u1 : Peu := { u with cells := putRows u.rows u.wcell u.row (repSpan (u.cb.toNat / 16)) u.cells, row := row }
    (u.rows ≤ row ∧ endEvent u = { u1 with bank := complete u.bank }) ∨ (row < u.rows ∧ endEvent u = u1) := by
  unfold endEvent
  dsimp only
  split
  · exact .inl ⟨‹_›, rfl⟩
  · exact .inr ⟨by omega, rfl⟩

/-- A pair inside an event is counted; the last one ends it; outside an event nothing is counted. -/
theorem pairDone_cases (u : Peu) :
    (u.k = 0 ∧ pairDone u = u) ∨ (u.k = 1 ∧ pairDone u = endEvent { u with k := 0 }) ∨
    (∃ k, u.k = k + 2 ∧ pairDone u = { u with k := k + 1 }) := by
  rcases hu : u.k with _ | _ | k
  · exact .inl ⟨rfl, by simp [pairDone, hu]⟩
  · exact .inr (.inl ⟨rfl, by simp [pairDone, hu]⟩)
  · exact .inr (.inr ⟨k, rfl, by simp [pairDone, hu]⟩)

/-! ## Who moves -/

theorem nextTurn_some {can : Agent → Bool} {l t : List Agent} {a : Agent} (h : nextTurn can l = some (a, t)) :
    can a = true := by
  induction l with
  | nil => cases h
  | cons b l ih =>
    simp only [nextTurn] at h
    split at h
    · cases h; assumption
    · exact ih h

/-- Whoever moves can move, and choosing changes nothing but the agenda. -/
theorem choose_some {s s1 : State} {a : Agent} (h : choose s = some (a, s1)) :
    ready s a = true ∧ ∃ l n, s1 = s.setAgenda l n := by
  have hmem : ∀ b l, allAgents.filter (ready s) = b :: l → ready s b = true := fun b l hb =>
    (List.mem_filter.mp (hb ▸ List.mem_cons_self : b ∈ allAgents.filter (ready s))).2
  unfold choose at h
  split at h
  · cases h
  · rename_i hb
    cases h
    exact ⟨hmem _ _ hb, s.agenda, s.rounds, rfl⟩
  · rename_i hb
    split at h
    · rename_i k; cases h; exact ⟨nextTurn_some k, _, _, rfl⟩
    · split at h
      · rename_i k; cases h; exact ⟨nextTurn_some k, _, _, rfl⟩
      · cases h; exact ⟨hmem _ _ hb, s.agenda, s.rounds, rfl⟩

/-- Nobody moves only when nobody can. -/
theorem choose_none {s : State} (h : choose s = none) (a : Agent) : ready s a = false := by
  unfold choose at h
  split at h
  · rename_i hf
    cases hr : ready s a with
    | false => rfl
    | true =>
      have : a ∈ allAgents.filter (ready s) := List.mem_filter.mpr ⟨by cases a <;> decide, hr⟩
      rw [hf] at this
      cases this
  · cases h
  · split at h
    · cases h
    · split at h <;> cases h

/-- A step is nothing, or the step of one agent that can move. -/
theorem step_cases {s : State} {r : Host.Outcome State Fault Refusal} (h : step s = r) :
    ((∀ a, ready s a = false) ∧ r = .next s) ∨
    (∃ a l n, ready s a = true ∧ r = stepAgent a (s.setAgenda l n)) := by
  unfold step runStep at h
  split at h
  · exact .inl ⟨choose_none ‹_›, h.symm⟩
  · rename_i k
    obtain ⟨hr, l, n, rfl⟩ := choose_some k
    exact .inr ⟨_, l, n, hr, h.symm⟩

/-! ## Steps of the units -/

/-- A step of the LZU: completion, fault entry, or the meaning of a decoded token. -/
theorem stepLzu_cases (s : State) :
    (s.lzu.n ≤ s.lzu.w ∧ stepLzu s = .next (s.setLzu { s.lzu with bank := complete s.lzu.bank })) ∨
    (s.lzu.w < s.lzu.n ∧ ∃ e, decodeStream (lzuFormat s.lzu) (lzuInput s) (lzuCursor s.lzu) = .error e ∧
      stepLzu s = .next (s.setLzu (lzuFail (lzuMove s.lzu e.cursor) e.cause))) ∨
    (s.lzu.w < s.lzu.n ∧ ∃ i c, decodeStream (lzuFormat s.lzu) (lzuInput s) (lzuCursor s.lzu) = .ok (i, c) ∧
      stepLzu s = exec i (s.setLzu (lzuMove s.lzu c))) := by
  unfold stepLzu
  split
  · exact .inl ⟨‹_›, rfl⟩
  · split
    · exact .inr (.inl ⟨by omega, _, ‹_›, rfl⟩)
    · exact .inr (.inr ⟨by omega, _, _, ‹_›, rfl⟩)

/-- A step of the DSU: completion, fault entry, or the meaning of a decoded sample. -/
theorem stepDsu_cases (s : State) :
    (s.dsu.frames * s.dsu.chans ≤ s.dsu.count ∧
      stepDsu s = .next (s.setDsu { s.dsu with bank := complete s.dsu.bank })) ∨
    (s.dsu.count < s.dsu.frames * s.dsu.chans ∧
      ∃ e, decodeStream (dsuFormat s.dsu) (dsuInput s) (dsuCursor s.dsu) = .error e ∧
      stepDsu s = .next (s.setDsu (dsuFail (dsuMove s.dsu e.cursor) e.cause))) ∨
    (s.dsu.count < s.dsu.frames * s.dsu.chans ∧
      ∃ i c, decodeStream (dsuFormat s.dsu) (dsuInput s) (dsuCursor s.dsu) = .ok (i, c) ∧
      stepDsu s = exec i (s.setDsu (dsuMove s.dsu c))) := by
  unfold stepDsu
  split
  · exact .inl ⟨‹_›, rfl⟩
  · split
    · exact .inr (.inl ⟨by omega, _, ‹_›, rfl⟩)
    · exact .inr (.inr ⟨by omega, _, _, ‹_›, rfl⟩)

/-- A step of the PEU: completion, fault entry, or the meaning of a decoded event or pair. -/
theorem stepPeu_cases (s : State) :
    ((s.peu.k = 0 ∧ s.peu.rows ≤ s.peu.row) ∧
      stepPeu s = .next (s.setPeu { s.peu with bank := complete s.peu.bank })) ∨
    (¬(s.peu.k = 0 ∧ s.peu.rows ≤ s.peu.row) ∧
      ∃ e, decodeStream (peuFormat s.peu) (peuInput s) (peuCursor s.peu) = .error e ∧
      stepPeu s = .next (s.setPeu (peuFail (peuMove s.peu e.cursor) e.cause))) ∨
    (¬(s.peu.k = 0 ∧ s.peu.rows ≤ s.peu.row) ∧
      ∃ i c, decodeStream (peuFormat s.peu) (peuInput s) (peuCursor s.peu) = .ok (i, c) ∧
      stepPeu s = exec i (s.setPeu (peuMove s.peu c))) := by
  unfold stepPeu
  split
  · exact .inl ⟨‹_›, rfl⟩
  · split
    · exact .inr (.inl ⟨‹_›, _, ‹_›, rfl⟩)
    · exact .inr (.inr ⟨‹_›, _, _, ‹_›, rfl⟩)

/-- What a command pair of the table does to the working cell: the same as its class (R166). -/
theorem exec_pairInstr (code op : Byte) (s : State) :
    exec (pairInstr code op) s = .next (s.setPeu (applyPair s.peu (code, op))) := by
  unfold pairInstr applyPair
  cases cmdTable code <;> rfl

/-- What a sample does, whatever CONFIG selected (R143 to R146). -/
theorem exec_sampleInstr (w16 pred : Bool) (code : SampleCode) (s : State) :
    exec (sampleInstr w16 pred code) s =
      .next (s.setDsu
        (if pred then samplePred (if w16 then 16 else 8) code s.dsu
         else samplePlain (if w16 then 16 else 8) code s.dsu)) := by
  cases w16 <;> cases pred <;> rfl

end Sys2Proof.Machine
end

