-- ==== Sys2Proof/Laws/Host.lean ====
section
/-! SUPPORT. What the host's operations can do, said once: banks, register writes, reads of outputs, and the frame of a
unit's step. -/

namespace Sys2Proof.Machine

/-! ## Banks -/

@[simp] theorem bankState_lzu (s : State) : bankState s .lzu = s.lzu.bank := rfl
@[simp] theorem bankState_dsu (s : State) : bankState s .dsu = s.dsu.bank := rfl
@[simp] theorem bankState_peu (s : State) : bankState s .peu = s.peu.bank := rfl

@[simp] theorem bankState_setBank (s : State) (u : UnitId) (b : Bank) : bankState (setBank s u b) u = b := by
  cases u <;> rfl

theorem bankState_setBank_ne (s : State) {u v : UnitId} (b : Bank) (h : v ≠ u) :
    bankState (setBank s u b) v = bankState s v := by
  cases u <;> cases v <;> first | rfl | exact absurd rfl h

@[simp] theorem setBank_bankState (s : State) (u : UnitId) : setBank s u (bankState s u) = s := by cases u <;> rfl

theorem bankOf_base (u : UnitId) {reg : Nat} (h : reg < 0x40) : bankOf (bankBase u + reg) = some (u, reg) := by
  cases u
  · show bankOf (0x00 + reg) = _
    unfold bankOf
    rw [if_pos (by omega), Nat.zero_add]
  · show bankOf (0x40 + reg) = _
    unfold bankOf
    rw [if_neg (by omega), if_pos (by omega), Nat.add_sub_cancel_left]
  · show bankOf (0x80 + reg) = _
    unfold bankOf
    rw [if_neg (by omega), if_neg (by omega), if_pos (by omega), Nat.add_sub_cancel_left]

theorem wordAccess_base (u : UnitId) {reg : Nat} (h : reg % 4 = 0) : wordAccess (bankBase u + reg) 4 = true := by
  cases u <;> simp [wordAccess, bankBase, Nat.add_mod, h]

/-- A register write is ignored, or sets IN_LEN, OUT_LEN or CONFIG of a bank that is not BUSY. -/
theorem writeRegister_cases (u : UnitId) (b : Bank) (reg : Nat) (value : Word) :
    writeRegister u b reg value = b ∨
    (b.state ≠ .busy ∧ reg = 0x08 ∧ writeRegister u b reg value = { b with inLen := value }) ∨
    (b.state ≠ .busy ∧ reg = 0x0C ∧ writeRegister u b reg value = { b with outLen := value }) ∨
    (b.state ≠ .busy ∧ reg = 0x10 ∧ writeRegister u b reg value = { b with config := value &&& configMask u }) := by
  unfold writeRegister
  split
  · exact .inl rfl
  · split
    · exact .inr (.inl ⟨‹_›, ‹_›, rfl⟩)
    · split
      · exact .inr (.inr (.inl ⟨‹_›, ‹_›, rfl⟩))
      · split
        · exact .inr (.inr (.inr ⟨‹_›, ‹_›, rfl⟩))
        · exact .inl rfl

/-- A register write at an aligned offset of a bank is writeRegister of it. -/
theorem hostAccess_writeReg (s : State) (u : UnitId) {reg : Nat} (value : Word) (h : reg < 0x40) (h4 : reg % 4 = 0) :
    hostAccess (.writeReg (bankBase u + reg) 4 value) s =
      .next (setBank s u (writeRegister u (bankState s u) reg value)) := by
  simp only [hostAccess, hostWriteReg, wordAccess_base u h4, bankOf_base u h, if_true]

/-- A register read at an aligned offset of a bank replies its word and notes a STATUS read. -/
theorem hostAccess_readReg (s : State) (u : UnitId) {reg : Nat} (h : reg < 0x40) (h4 : reg % 4 = 0) :
    hostAccess (.readReg (bankBase u + reg) 4) s =
      .next ((setBank s u (noteStatusRead (bankState s u) reg)).reply (.word (readRegister s u reg))) := by
  simp only [hostAccess, hostReadReg, wordAccess_base u h4, bankOf_base u h, if_true]

/-- A STATUS read changes nothing but the model's mark that the host has seen the operation end, and sets that exactly
when the bank is DONE or FAIL. -/
theorem noteStatusRead_eq (b : Bank) (reg : Nat) :
    noteStatusRead b reg = { b with seen := b.seen || (reg == 0x04 && finished b) } := by
  unfold noteStatusRead
  split
  · rename_i h; simp [h]
  · rename_i h
    have hs : (reg == 0x04 && finished b) = false := by
      rw [Bool.eq_false_iff]; exact fun k => h (by simpa using k)
    simp [hs]

/-- The free choice of a read is one of the values it is given. -/
theorem staleChoice_mem {α : Type} (n : Nat) (first : α) (others : List α) :
    staleChoice n first others = first ∨ staleChoice n first others ∈ others := by
  unfold staleChoice
  cases h : others[Config.stalePick n % (others.length + 1)]? with
  | none => exact .inl rfl
  | some x => exact .inr (List.mem_of_getElem? h)

/-- A host read of OUT or SMP replies one byte and changes no more than the replies and the counter of free choices. -/
theorem hostReadBytes_eq (space : Space) (b : Bank) (pre : Store Byte) (index : Nat) (s : State) :
    ∃ x d, hostReadBytes space b pre index s = { s with replies := .byte x :: s.replies, draws := d } ∧
      (x = byteAt (blankBytes s space) pre index ∨ x = s.byte space index) ∧
      (synced b = true → x = s.byte space index ∧ d = s.draws) := by
  unfold hostReadBytes
  split
  · exact ⟨_, s.draws, rfl, .inr rfl, fun _ => ⟨rfl, rfl⟩⟩
  · refine ⟨_, _, rfl, ?_, fun h => absurd h ‹_›⟩
    exact (staleChoice_mem _ _ _).imp id List.mem_singleton.mp

/-- A host read of CELL replies one cell and changes no more than the replies and the counter of free choices. -/
theorem hostReadRow_eq (row : Nat) (s : State) :
    ∃ x d, hostReadRow row s = { s with replies := .cell x :: s.replies, draws := d } ∧
      (x = cellAt (blankCells s) s.peu.cellsPre row ∨ x = s.cell row ∨
        x = cellAt (blankCells s) s.peu.cellsStart row) ∧
      (synced s.peu.bank = true → x = s.cell row ∧ d = s.draws) := by
  unfold hostReadRow
  split
  · exact ⟨_, s.draws, rfl, .inr (.inl rfl), fun _ => ⟨rfl, rfl⟩⟩
  · refine ⟨_, _, rfl, ?_, fun h => absurd h ‹_›⟩
    rcases staleChoice_mem s.draws (cellAt (blankCells s) s.peu.cellsPre row)
      [s.cell row, cellAt (blankCells s) s.peu.cellsStart row] with h | h
    · exact .inl h
    · simp only [List.mem_cons, List.not_mem_nil, or_false] at h
      exact .inr h

/-- A START of the PEU that faults clears no row: every copy of CELL is what CELL was (R160, R206). -/
theorem peuStart_fault_keeps (u : Peu) (h : (peuStart u).bank.state = .fail) :
    (peuStart u).cells = u.cells ∧ (peuStart u).cellsPre = u.cells ∧ (peuStart u).cellsStart = u.cells := by
  unfold peuStart at h ⊢
  dsimp only at h ⊢
  split
  · exact ⟨rfl, rfl, rfl⟩
  · rw [if_neg ‹_›] at h
    split at h <;> cases h

/-! ## Frames of the units' steps -/

/-- A step of the LZU changes the LZU only. -/
theorem stepLzu_frame {s t : State} (h : stepLzu s = .next t) : t = s.setLzu t.lzu := by
  rcases stepLzu_cases s with ⟨_, k⟩ | ⟨_, e, _, k⟩ | ⟨_, i, c, hd, k⟩
  · rw [k] at h; cases h; rfl
  · rw [k] at h; cases h; rfl
  · rw [k] at h
    unfold lzuFormat at hd
    split at hd
    · obtain ⟨b, rfl⟩ := decodeSeed_instr hd
      cases h; rfl
    · rcases decodeLz_instr hd with ⟨b, rfl⟩ | ⟨g, x, len, rfl⟩ | ⟨len, rfl⟩ <;> cases h <;> rfl

/-- A step of the DSU changes the DSU only. -/
theorem stepDsu_frame {s t : State} (h : stepDsu s = .next t) : t = s.setDsu t.dsu := by
  rcases stepDsu_cases s with ⟨_, k⟩ | ⟨_, e, _, k⟩ | ⟨_, i, c, hd, k⟩
  · rw [k] at h; cases h; rfl
  · rw [k] at h; cases h; rfl
  · rw [k] at h
    obtain ⟨code, rfl⟩ := decodeSample_instr hd
    rw [exec_sampleInstr] at h
    cases h; rfl

/-- A step of the PEU changes the PEU only. -/
theorem stepPeu_frame {s t : State} (h : stepPeu s = .next t) : t = s.setPeu t.peu := by
  rcases stepPeu_cases s with ⟨_, k⟩ | ⟨_, e, _, k⟩ | ⟨_, i, c, hd, k⟩
  · rw [k] at h; cases h; rfl
  · rw [k] at h; cases h; rfl
  · rw [k] at h
    unfold peuFormat at hd
    split at hd
    · rcases decodeTrack_instr hd with rfl | ⟨r, p, rfl, _⟩ <;> cases h <;> rfl
    · obtain ⟨a, b, rfl⟩ := decodePair_instr hd
      rw [exec_pairInstr] at h
      cases h; rfl

end Sys2Proof.Machine
end

