-- ==== Sys2Proof/Laws/PerInstr.lean ====
section
/-! SUPPORT. Statements made per instruction. EncodingIsPresent: a well-formed instruction takes something of its medium
(R88): at least one symbol of a stream, or a bus write. -/

namespace Sys2Proof.Laws

open Sys2Proof.Machine

theorem gammaPairs_ne_nil {ds : List Bool} (h : ds ≠ []) : gammaPairs ds ≠ [] := by
  match ds with
  | [_] => exact List.cons_ne_nil _ _
  | _ :: _ :: _ => exact List.cons_ne_nil _ _

theorem narrowTriples_ne_nil {ps : List (Bool × Bool)} (h : ps ≠ []) : narrowTriples ps ≠ [] := by
  match ps with
  | [_] => exact List.cons_ne_nil _ _
  | _ :: _ :: _ => exact List.cons_ne_nil _ _

theorem sampleCode8_ne_nil {code : SampleCode} (h : sampleCode8Wf code = true) : encodeCode code ≠ [] := by
  cases code with
  | general vals raw =>
    simp only [sampleCode8Wf, Bool.and_eq_true, Bool.not_eq_true', List.isEmpty_eq_false_iff] at h
    simp only [encodeCode, ne_eq, List.append_eq_nil_iff, not_and]
    intro hg
    exact absurd hg (gammaPairs_ne_nil h.1.1)
  | narrow vals raw => cases h

theorem sampleCode16_ne_nil {code : SampleCode} (h : sampleCode16Wf code = true) : encodeCode code ≠ [] := by
  cases code with
  | general vals raw =>
    simp only [sampleCode16Wf, Bool.and_eq_true, Bool.not_eq_true', List.isEmpty_eq_false_iff] at h
    simp only [encodeCode, ne_eq, List.append_eq_nil_iff, not_and]
    intro hg
    exact absurd hg (gammaPairs_ne_nil h.1.1)
  | narrow vals raw =>
    simp only [sampleCode16Wf, Bool.and_eq_true, Bool.not_eq_true', List.isEmpty_eq_false_iff] at h
    simp only [encodeCode, ne_eq, List.append_eq_nil_iff, not_and]
    intro hg
    exact absurd hg (narrowTriples_ne_nil h.1.1)

theorem bitSyms_ne_nil {bs : List Bool} (h : bs ≠ []) : bitSyms bs ≠ [] := by
  simpa [bitSyms] using h

/-- A well-formed instruction's encoding is not an empty stream (R88). -/
def EncodingIsPresent.Statement (i : Instr) : Prop := i.wf = true → encode i ≠ .stream []

theorem EncodingIsPresent.seed (b : Byte) : EncodingIsPresent.Statement (.seed b) := by intro _ h; cases h
theorem EncodingIsPresent.lit (b : Byte) : EncodingIsPresent.Statement (.lit b) := by intro _ h; cases h
theorem EncodingIsPresent.matchNew (g : Nat) (x : Byte) (len : LengthCode) :
    EncodingIsPresent.Statement (.matchNew g x len) := by intro _ h; cases h
theorem EncodingIsPresent.matchReuse (len : LengthCode) : EncodingIsPresent.Statement (.matchReuse len) := by
  intro _ h; cases h
theorem EncodingIsPresent.delta8Plain (code : SampleCode) : EncodingIsPresent.Statement (.delta8Plain code) :=
  fun hw h => bitSyms_ne_nil (sampleCode8_ne_nil hw) (by injection h)
theorem EncodingIsPresent.delta8Pred (code : SampleCode) : EncodingIsPresent.Statement (.delta8Pred code) :=
  fun hw h => bitSyms_ne_nil (sampleCode8_ne_nil hw) (by injection h)
theorem EncodingIsPresent.delta16Plain (code : SampleCode) : EncodingIsPresent.Statement (.delta16Plain code) :=
  fun hw h => bitSyms_ne_nil (sampleCode16_ne_nil hw) (by injection h)
theorem EncodingIsPresent.delta16Pred (code : SampleCode) : EncodingIsPresent.Statement (.delta16Pred code) :=
  fun hw h => bitSyms_ne_nil (sampleCode16_ne_nil hw) (by injection h)
theorem EncodingIsPresent.evtEnd : EncodingIsPresent.Statement .evtEnd := by intro _ h; cases h
theorem EncodingIsPresent.evt (rep : BitVec 4) (pairs : List (Byte × Byte)) :
    EncodingIsPresent.Statement (.evt rep pairs) := by intro _ h; cases h
theorem EncodingIsPresent.cmdNote (code op : Byte) : EncodingIsPresent.Statement (.cmdNote code op) := by
  intro _ h; cases h
theorem EncodingIsPresent.cmdVolslide (code op : Byte) : EncodingIsPresent.Statement (.cmdVolslide code op) := by
  intro _ h; cases h
theorem EncodingIsPresent.cmdInstr (code op : Byte) : EncodingIsPresent.Statement (.cmdInstr code op) := by
  intro _ h; cases h
theorem EncodingIsPresent.cmdToneporta (code op : Byte) : EncodingIsPresent.Statement (.cmdToneporta code op) := by
  intro _ h; cases h
theorem EncodingIsPresent.cmdVibrato (code op : Byte) : EncodingIsPresent.Statement (.cmdVibrato code op) := by
  intro _ h; cases h
theorem EncodingIsPresent.cmdPanning (code op : Byte) : EncodingIsPresent.Statement (.cmdPanning code op) := by
  intro _ h; cases h
theorem EncodingIsPresent.cmdVolume (code op : Byte) : EncodingIsPresent.Statement (.cmdVolume code op) := by
  intro _ h; cases h
theorem EncodingIsPresent.cmdPatternbreak (code op : Byte) :
    EncodingIsPresent.Statement (.cmdPatternbreak code op) := by intro _ h; cases h
theorem EncodingIsPresent.cmdTempospeed (code op : Byte) :
    EncodingIsPresent.Statement (.cmdTempospeed code op) := by intro _ h; cases h
theorem EncodingIsPresent.cmdFixedEff (code : Byte) (tag : Nat) (op : Byte) :
    EncodingIsPresent.Statement (.cmdFixedEff code tag op) := by intro _ h; cases h
theorem EncodingIsPresent.cmdFixedVol (code : Byte) (tag : Nat) (op : Byte) :
    EncodingIsPresent.Statement (.cmdFixedVol code tag op) := by intro _ h; cases h
theorem EncodingIsPresent.cmdUnmapped (code op : Byte) : EncodingIsPresent.Statement (.cmdUnmapped code op) := by
  intro _ h; cases h
theorem EncodingIsPresent.hostStart (bank : UnitId) : EncodingIsPresent.Statement (.hostStart bank) := by
  intro _ h; cases h

end Sys2Proof.Laws
end

