-- ==== Sys2Proof/Laws/Turns.lean ====
section
/-! SUPPORT. Turns: what taking the next turn leaves of an agenda, what choosing does, and that no agent's step touches
the agenda. -/

namespace Sys2Proof.Machine

/-! ## The agenda -/

/-- Taking a turn drops it and those before it, none of which could be taken. -/
theorem nextTurn_eq_some {can : Agent → Bool} {l t : List Agent} {a : Agent} (h : nextTurn can l = some (a, t)) :
    ∃ skipped, l = skipped ++ a :: t ∧ ∀ b ∈ skipped, can b = false := by
  induction l with
  | nil => cases h
  | cons b l ih =>
    simp only [nextTurn] at h
    split at h
    · cases h; exact ⟨[], rfl, nofun⟩
    · rename_i hb
      obtain ⟨k, rfl, hk⟩ := ih h
      exact ⟨b :: k, rfl, List.forall_mem_cons.mpr ⟨Bool.eq_false_iff.mpr hb, hk⟩⟩

/-- No turn is taken only if no turn can be. -/
theorem nextTurn_eq_none {can : Agent → Bool} {l : List Agent} (h : nextTurn can l = none) : ∀ a ∈ l, can a = false := by
  induction l with
  | nil => nofun
  | cons b l ih =>
    simp only [nextTurn] at h
    split at h
    · cases h
    · rename_i hb
      exact List.forall_mem_cons.mpr ⟨Bool.eq_false_iff.mpr hb, ih h⟩

/-- A turn of an agent that can move stays on the agenda when another is taken. -/
theorem mem_of_nextTurn {can : Agent → Bool} {l t : List Agent} {a b : Agent} (h : nextTurn can l = some (b, t))
    (ha : can a = true) (hne : b ≠ a) (hm : a ∈ l) : a ∈ t := by
  obtain ⟨k, rfl, hk⟩ := nextTurn_eq_some h
  rcases List.mem_append.mp hm with hm | hm
  · rw [hk a hm] at ha; cases ha
  · exact (List.mem_cons.mp hm).resolve_left hne.symm

theorem length_of_nextTurn {can : Agent → Bool} {l t : List Agent} {a : Agent} (h : nextTurn can l = some (a, t)) :
    t.length < l.length := by
  obtain ⟨k, rfl, _⟩ := nextTurn_eq_some h
  rw [List.length_append, List.length_cons]
  omega

/-- Every round has a turn for each agent (D2). -/
theorem mem_fairRound (n : Nat) (a : Agent) : a ∈ fairRound n := by
  unfold fairRound
  by_cases h : a ∈ Config.turnRound n
  · exact List.mem_append_left _ h
  · exact List.mem_append_right _ (List.mem_filter.mpr ⟨by cases a <;> decide, by simpa using h⟩)

/-- Choosing with somebody else able to move: the next turn of the agenda, or of a new round if the agenda has none. -/
theorem choose_cases {s s1 : State} {a b : Agent} (ha : ready s a = true) (h : choose s = some (b, s1)) (hne : b ≠ a) :
    (∃ t, nextTurn (ready s) s.agenda = some (b, t) ∧ s1 = s.setAgenda t s.rounds) ∨
    (nextTurn (ready s) s.agenda = none ∧
      ∃ t, nextTurn (ready s) (fairRound s.rounds) = some (b, t) ∧ s1 = s.setAgenda t (s.rounds + 1)) := by
  have hmem : a ∈ allAgents.filter (ready s) := List.mem_filter.mpr ⟨by cases a <;> decide, ha⟩
  unfold choose at h
  split at h
  · cases h
  · rename_i hf
    cases h
    rw [hf] at hmem
    exact absurd (List.mem_singleton.mp hmem).symm hne
  · split at h
    · rename_i k; cases h; exact .inl ⟨_, k, rfl⟩
    · rename_i k
      split at h
      · rename_i k'; cases h; exact .inr ⟨k, _, k', rfl⟩
      · rename_i k'
        rw [nextTurn_eq_none k' a (mem_fairRound _ a)] at ha
        cases ha

/-- An agent that can move and has the first turn moves; its turn stays on the agenda if it is alone. -/
theorem choose_first_turn {s : State} {a : Agent} {l : List Agent} (ha : ready s a = true) (hl : s.agenda = a :: l) :
    choose s = some (a, { s with agenda := if (allAgents.filter (ready s)).length = 1 then s.agenda else l }) := by
  have hmem : a ∈ allAgents.filter (ready s) := List.mem_filter.mpr ⟨by cases a <;> decide, ha⟩
  unfold choose
  split
  · rename_i h; rw [h] at hmem; cases hmem
  · rename_i h; rw [h] at hmem; rw [List.mem_singleton.mp hmem, h]; rfl
  · rename_i b t h1 h
    have hlen : (allAgents.filter (ready s)).length ≠ 1 := by
      rw [h]
      cases t with
      | nil => exact absurd rfl h1
      | cons => simp
    rw [if_neg hlen, hl, nextTurn, if_pos ha]; rfl

/-! ## No agent's step touches the agenda -/

theorem exec_schedule {i : Instr} {s t : State} (h : exec i s = .next t) : t.agenda = s.agenda ∧ t.rounds = s.rounds := by
  cases i with
  | hostStart u =>
    cases h
    split
    · exact ⟨rfl, rfl⟩
    · cases u <;> exact ⟨rfl, rfl⟩
  | _ => cases h; exact ⟨rfl, rfl⟩

theorem setBank_schedule (s : State) (u : UnitId) (b : Bank) :
    (setBank s u b).agenda = s.agenda ∧ (setBank s u b).rounds = s.rounds := by cases u <;> exact ⟨rfl, rfl⟩

theorem hostAccess_schedule {op : HostOp} {s t : State} (h : hostAccess op s = .next t) :
    t.agenda = s.agenda ∧ t.rounds = s.rounds := by
  cases op <;> simp only [hostAccess, hostReadReg, hostWriteReg] at h <;> repeat' split at h
  all_goals cases h
  all_goals first
    | exact ⟨rfl, rfl⟩
    | exact setBank_schedule _ _ _
    | (simp only [hostReadBytes, hostReadRow]; split <;> exact ⟨rfl, rfl⟩)
    | (rename_i u _ _ _ _; cases u <;> exact ⟨rfl, rfl⟩)

theorem stepAgent_schedule {a : Agent} {s t : State} (h : stepAgent a s = .next t) :
    t.agenda = s.agenda ∧ t.rounds = s.rounds := by
  cases a with
  | host =>
    simp only [stepAgent, stepHost] at h
    split at h
    · cases h; exact ⟨rfl, rfl⟩
    · split at h
      · have k := exec_schedule h; exact k
      · have k := hostAccess_schedule h; exact k
  | lzu => rw [stepLzu_frame h]; exact ⟨rfl, rfl⟩
  | dsu => rw [stepDsu_frame h]; exact ⟨rfl, rfl⟩
  | peu => rw [stepPeu_frame h]; exact ⟨rfl, rfl⟩

end Sys2Proof.Machine
end

