-- ==== Sys2Proof/Tests/Slice0.lean ====
section
/-! SUPPORT. Tests of one step each, with the values of spec/95_test_vectors.md and of the rules' own examples; the
smoke test of well-formedness; the decoding of words written out from 30_encoding.md; and for each statement with
hypotheses a concrete state and operands that meet them (`witness_<statement>`). -/

namespace Sys2Proof.Tests

open Sys2Proof.Machine

/-! ## Helpers -/

/-- Does the instruction answer a next state with the property. -/
def after (i : Instr) (s : State) (p : State → Bool) : Bool :=
  match exec i s with
  | .next t => p t
  | _ => false

/-- Does the step answer a next state with the property. -/
def stepped (s : State) (p : State → Bool) : Bool :=
  match step s with
  | .next t => p t
  | _ => false

/-- A BUSY bank whose operation has an input of `len` bytes. -/
def busy (len : Nat) : Bank := { resetBank with state := .busy, len := len, seen := false }

/-- A BUSY LZU that has written `out` of `n` bytes, with a previous offset. -/
def lzuWith (out : List Byte) (n : Nat) (prevOff : Int) : State :=
  State.reset.setLzu
    { resetLzu with bank := busy 9, out := storeOfBytes 0 out, w := out.length, n := n, prevOff := prevOff }

/-- A BUSY DSU before sample 0 of `frames` frames of one channel. -/
def dsuWith (w16 pred : Bool) (dh : Nat) (prev next prevp : Int) (frames : Nat) : State :=
  State.reset.setDsu
    { resetDsu with
      bank := busy 9, w16 := w16, pred := pred, dh := dh, prev := prev, next := next, prevp := prevp
      frames := frames, chans := 1 }

/-- A BUSY PEU at row 0 of four, `k` pairs to go in an event of one row. -/
def peuWith (d : Dialect) (k : Nat) (wcell : Cell) : State :=
  State.reset.setPeu { resetPeu with bank := busy 9, dialect := d, rows := 4, k := k, cb := 0x02, wcell := wcell }

/-- The first bytes of OUT as written. -/
def outBytes (s : State) (n : Nat) : List (Option Byte) := (List.range n).map (storeGet s.lzu.out)

/-- The effect column of the working cell. -/
def heldEff (s : State) : Option (EffCmd × Byte) := s.peu.wcell.eff

/-- The volume column of the working cell. -/
def heldVol (s : State) : Option (VolCmd × Byte) := s.peu.wcell.vol

/-! ## Well-formedness: each check refuses a term that breaks it -/

theorem test_wf_matchNew_gamma_two : (Instr.matchNew 2 0 (.short 1)).wf = false := by decide
theorem test_wf_matchNew_gamma_too_large : (Instr.matchNew (2 ^ 32) 0 (.short 1)).wf = false := by decide
theorem test_wf_matchNew_largest : (Instr.matchNew (2 ^ 32 - 1) 0 (.short 1)).wf = true := by decide
theorem test_wf_short_zero : (Instr.matchReuse (.short 0)).wf = false := by decide
theorem test_wf_extended_one : (Instr.matchReuse (.extended 1)).wf = false := by decide
theorem test_wf_extended_too_large : (Instr.matchReuse (.extended (2 ^ 32))).wf = false := by decide
theorem test_wf_delta8_narrow : (Instr.delta8Plain (.narrow [(true, true)] [true])).wf = false := by decide
theorem test_wf_delta8_no_pair : (Instr.delta8Pred (.general [] [true])).wf = false := by decide
theorem test_wf_delta8_no_raw : (Instr.delta8Plain (.general [true] [])).wf = false := by decide
theorem test_wf_delta8_raw_eight : (Instr.delta8Plain (.general [true] (List.replicate 8 true))).wf = false := by decide
theorem test_wf_delta16_general_four : (Instr.delta16Plain (.general [true] (List.replicate 4 true))).wf = false := by
  decide
theorem test_wf_delta16_general_sixteen :
    (Instr.delta16Plain (.general [true] (List.replicate 16 true))).wf = false := by decide
theorem test_wf_delta16_general_no_pair : (Instr.delta16Pred (.general [] (List.replicate 5 true))).wf = false := by
  decide
theorem test_wf_delta16_narrow_five :
    (Instr.delta16Plain (.narrow [(true, true)] (List.replicate 5 true))).wf = false := by decide
theorem test_wf_delta16_narrow_no_raw : (Instr.delta16Pred (.narrow [(true, true)] [])).wf = false := by decide
theorem test_wf_delta16_narrow_no_triple : (Instr.delta16Pred (.narrow [] [true])).wf = false := by decide
theorem test_wf_evt_sixteen_pairs : (Instr.evt 0 (List.replicate 16 (1, 1))).wf = false := by decide
theorem test_wf_evt_is_no_end : (Instr.evt 0 []).wf = false := by decide
theorem test_wf_cmd_wrong_class :
    [Instr.cmdNote 0x22 0, .cmdVolslide 0x01 0, .cmdInstr 0x01 0, .cmdToneporta 0x01 0, .cmdVibrato 0x22 0,
      .cmdPanning 0x01 0, .cmdVolume 0x22 0, .cmdPatternbreak 0x01 0, .cmdTempospeed 0x22 0, .cmdFixedEff 0x01 3 0,
      .cmdFixedVol 0x22 3 0, .cmdUnmapped 0x01 0].map Instr.wf = List.replicate 12 false := by decide

/-! ## Decoding of words written out from 30_encoding.md -/

/-- R73: the seed is a plain byte. -/
theorem test_decode_seed :
    decodeStream .seed (inputOf [0x41]) Cursor.fresh = .ok (.seed 0x41, { ip := 1, data := 0, carry := false }) := by
  rfl

/-- R74, LZ-1: control bit 0, then the byte. -/
theorem test_decode_lit :
    decodeStream .lz (inputOf [0x00, 0x45]) Cursor.fresh =
      .ok (.lit 0x45, { ip := 2, data := 0x01, carry := false }) := by rfl

/-- LZ-2 behind its seed: 1 10 (X) 00 0100, in C2 00 00. -/
theorem test_decode_matchNew :
    decodeStream .lz (inputOf [0xC2, 0x00, 0x00]) Cursor.fresh =
      .ok (.matchNew 3 0x00 (.extended 4), { ip := 3, data := 0x01, carry := false }) := by rfl

/-- LZ-F1 behind its seed: 1 00 01, in 88: a reuse of length 1. -/
theorem test_decode_matchReuse :
    decodeStream .lz (inputOf [0x88]) Cursor.fresh =
      .ok (.matchReuse (.short 1), { ip := 1, data := 0x10, carry := true }) := by rfl

/-- DS-9: pairs 11 11 11 11 10, then 0011. -/
theorem test_decode_delta8Plain :
    decodeStream (.sample false false 4) (inputOf [0xFF, 0x8C]) Cursor.fresh =
      .ok (.delta8Plain (.general [true, true, true, true, true] [false, false, true, true]),
        { ip := 2, data := 0x20, carry := true }) := by rfl

/-- DS-4: pair 10, then 0101. -/
theorem test_decode_delta8Pred :
    decodeStream (.sample false true 4) (inputOf [0x94]) Cursor.fresh =
      .ok (.delta8Pred (.general [true] [false, true, false, true]), { ip := 1, data := 0x20, carry := true }) := by rfl

/-- DS-8: pair 00, then 00000001, in 00 50: the first code of a 16-bit stream. -/
theorem test_decode_delta16Plain :
    decodeStream (.sample true false 8) (inputOf [0x00, 0x50]) Cursor.fresh =
      .ok (.delta16Plain (.general [false] [false, false, false, false, false, false, false, true]),
        { ip := 2, data := 0x42, carry := true }) := by rfl

/-- R79: DS16N, triple 010, then 0001 (the second code of DS-8), under PRED. -/
theorem test_decode_delta16Pred :
    decodeStream (.sample true true 4) (inputOf [0x42]) Cursor.fresh =
      .ok (.delta16Pred (.narrow [(false, true)] [false, false, false, true]),
        { ip := 1, data := 0x40, carry := true }) := by rfl

/-- R81: 0x00 is END. -/
theorem test_decode_evtEnd :
    decodeStream .track (inputOf [0x00]) Cursor.fresh = .ok (.evtEnd, { ip := 1, data := 0, carry := false }) := by rfl

/-- R82: 11 01 3C. -/
theorem test_decode_evt :
    decodeStream .track (inputOf [0x11, 0x01, 0x3C, 0x00]) Cursor.fresh =
      .ok (.evt 1 [(0x01, 0x3C)], { ip := 3, data := 0, carry := false }) := by rfl

/-- R83: code 0x01. -/
theorem test_decode_cmdNote :
    decodeStream .pair (inputOf [0x01, 0x3C]) Cursor.fresh =
      .ok (.cmdNote 0x01 0x3C, { ip := 2, data := 0, carry := false }) := by rfl

/-- R83: code 0x22. -/
theorem test_decode_cmdVolslide :
    decodeStream .pair (inputOf [0x22, 0x0F]) Cursor.fresh =
      .ok (.cmdVolslide 0x22 0x0F, { ip := 2, data := 0, carry := false }) := by rfl

/-- A pair of any other class, by the class CMD_TABLE gives its code: the codes themselves are open (R83). -/
theorem test_decode_open_pair (code op : Byte) (i : Instr) (h : pairInstr code op = i) :
    decodeStream .pair (inputOf [code, op]) Cursor.fresh = .ok (i, { ip := 2, data := 0, carry := false }) := by
  subst h; rfl

theorem test_pair_instr (code op : Byte) (h : cmdTable code = .instr) : pairInstr code op = .cmdInstr code op := by
  simp [pairInstr, h]
theorem test_pair_toneporta (code op : Byte) (h : cmdTable code = .toneporta) :
    pairInstr code op = .cmdToneporta code op := by simp [pairInstr, h]
theorem test_pair_vibrato (code op : Byte) (h : cmdTable code = .vibrato) :
    pairInstr code op = .cmdVibrato code op := by simp [pairInstr, h]
theorem test_pair_panning (code op : Byte) (h : cmdTable code = .panning) :
    pairInstr code op = .cmdPanning code op := by simp [pairInstr, h]
theorem test_pair_volume (code op : Byte) (h : cmdTable code = .volume) :
    pairInstr code op = .cmdVolume code op := by simp [pairInstr, h]
theorem test_pair_patternbreak (code op : Byte) (h : cmdTable code = .patternbreak) :
    pairInstr code op = .cmdPatternbreak code op := by simp [pairInstr, h]
theorem test_pair_tempospeed (code op : Byte) (h : cmdTable code = .tempospeed) :
    pairInstr code op = .cmdTempospeed code op := by simp [pairInstr, h]
theorem test_pair_fixedEff (code op : Byte) (tag : Nat) (h : cmdTable code = .fixedEff tag) :
    pairInstr code op = .cmdFixedEff code tag op := by simp [pairInstr, h]
theorem test_pair_fixedVol (code op : Byte) (tag : Nat) (h : cmdTable code = .fixedVol tag) :
    pairInstr code op = .cmdFixedVol code tag op := by simp [pairInstr, h]
theorem test_pair_unmapped (code op : Byte) (h : cmdTable code = .unmapped) :
    pairInstr code op = .cmdUnmapped code op := by simp [pairInstr, h]

/-- R211: a word write of the DSU's CTRL with bit 0 = 1; with bit 0 = 0 it is no instruction. -/
theorem test_decode_hostStart :
    decodeHost (.writeReg 0x40 4 0x00000001) = some (.hostStart .dsu) ∧
    decodeHost (.writeReg 0x40 4 0x00000002) = none := by decide

/-- CB-1: nine bits of A5 3C, and DATA behind the ninth. -/
theorem test_readBits_cb1 :
    readBits (inputOf [0xA5, 0x3C]) 9 Cursor.fresh =
      .ok ([true, false, true, false, false, true, false, true, false], { ip := 2, data := 0x79, carry := false }) := by
  rfl

/-- CB-10: 1100 is 6. CB-9: 010100 is 8. -/
theorem test_decodeLength :
    decodeLength (inputOf [0xC0]) Cursor.fresh = .ok (6, { ip := 1, data := 0x08, carry := false }) ∧
    decodeLength (inputOf [0x50]) Cursor.fresh = .ok (8, { ip := 1, data := 0x20, carry := false }) := ⟨rfl, rfl⟩

/-- The words of the table. -/
theorem test_tableWords :
    decodeTableWord 8 0x00 = some .evtEnd ∧ decodeTableWord 8 0x01 = some (.cmdNote 0x01 0x00) ∧
    decodeTableWord 8 0x22 = some (.cmdVolslide 0x22 0x00) ∧ decodeTableWord 8 0x41 = some (.seed 0x41) ∧
    decodeTableWord 16 0x3C01 = some (.cmdNote 0x01 0x3C) ∧
    decodeTableWord 24 0x3C0111 = some (.evt 1 [(0x01, 0x3C)]) := by decide

/-- Each word of the table with fixed bits runs as the first instruction after reset. -/
theorem test_first_evtEnd :
    stepped (State.reset.withFetchWord 8 0x00) (fun t => t.peu.bank.state == .done && t.peu.bank.ip == 1) = true := by
  decide
theorem test_first_cmdNote :
    stepped (State.reset.withFetchWord 8 0x01) (fun t => t.peu.bank.ip == 2 && t.peu.row == 1) = true := by decide
theorem test_first_cmdVolslide :
    stepped (State.reset.withFetchWord 8 0x22) (fun t => heldEff t == some (.volslide, 0) && t.peu.row == 1) = true := by
  decide

/-! ## One step each -/

/-- R111, LZ-6. -/
theorem test_seed :
    after (.seed 0x41) (lzuWith [] 1 0)
      (fun t => outBytes t 2 == [some 0x41, none] && t.lzu.w == 1 && t.lzu.bank.state == .done) = true := by decide

/-- R113. -/
theorem test_lit :
    after (.lit 0x45) (lzuWith [0x48] 5 0)
      (fun t => outBytes t 2 == [some 0x48, some 0x45] && t.lzu.w == 2 && t.lzu.bank.state == .busy) = true := by decide

/-- P1: MATCH -2, 8 repeats two bytes four times and fills the output. -/
theorem test_matchNew_overlap :
    after (.matchNew 3 0x01 (.extended 5)) (lzuWith [0x41, 0x42] 10 0)
      (fun t => outBytes t 10 == [0x41, 0x42, 0x41, 0x42, 0x41, 0x42, 0x41, 0x42, 0x41, 0x42].map some &&
        t.lzu.prevOff == -2 && t.lzu.bank.state == .done) = true := by decide

/-- LZ-F3: one byte too long; nothing is written. -/
theorem test_matchNew_overrun :
    after (.matchNew 3 0x00 (.short 2)) (lzuWith [0x41] 3 0)
      (fun t => outBytes t 3 == [some 0x41, none, none] && t.lzu.bank.cause == .lengthOverrun && t.lzu.w == 1) = true := by
  decide

/-- P2: REUSE 3 behind MATCH -2, 2 and LIT 43. -/
theorem test_matchReuse :
    after (.matchReuse (.short 3)) (lzuWith [0x41, 0x42, 0x41, 0x42, 0x43] 8 (-2))
      (fun t => outBytes t 8 == [0x41, 0x42, 0x41, 0x42, 0x43, 0x42, 0x43, 0x42].map some &&
        t.lzu.bank.state == .done) = true := by decide

/-- LZ-F1: a reuse before any new offset. -/
theorem test_matchReuse_no_offset :
    after (.matchReuse (.short 2)) (lzuWith [0x41] 4 0)
      (fun t => t.lzu.bank.cause == .badOffset && t.lzu.bank.state == .fail && t.lzu.w == 1) = true := by decide

/-- LZ-T1b, LZ-T1c, LZ-T2b, LZ-T2a: both thresholds are strict. -/
theorem test_bonus :
    [matchOffset 7 0xFF, matchOffset 8 0, matchOffset 127 0xFF, matchOffset 128 0] = [-1280, -1281, -32000, -32001] ∧
    [(-1280 : Int), -1281, -32000, -32001].map matchBonus = [1, 2, 2, 3] := by decide

/-- DS-9: the code loses its ninth bit. -/
theorem test_delta8Plain_truncated :
    after (.delta8Plain (.general [true, true, true, true, true] [false, false, true, true])) (dsuWith false false 4 0 0 0 1)
      (fun t => t.dsu.prev == 121 && t.dsu.v == 0xF3 && t.dsu.dh == 5 && t.dsu.smp == [(0, 0x79)] &&
        t.dsu.bank.state == .done) = true := by decide

/-- R143: 127 and a delta of 1 wrap to -128. -/
theorem test_delta8Plain_wrap :
    after (.delta8Plain (.general [false] [false, false, true, true])) (dsuWith false false 4 127 0 0 2)
      (fun t => t.dsu.prev == -128 && t.dsu.dh == 2 && t.dsu.fr == 1 && t.dsu.bank.state == .busy) = true := by decide

/-- DS-4, sample 3: value 52, NEXT 62. -/
theorem test_delta8Pred :
    after (.delta8Pred (.general [true, false] [false])) (dsuWith false true 1 0 55 40 2)
      (fun t => t.dsu.prevp == 52 && t.dsu.next == 62 && t.dsu.prev == 0 && t.dsu.dh == 1) = true := by decide

/-- DS-5, sample 1: NEXT clamps at 127. -/
theorem test_delta8Pred_clamp :
    after (.delta8Pred (.general [false] [false, false, false, false, true])) (dsuWith false true 5 0 127 100 2)
      (fun t => t.dsu.prevp == 127 && t.dsu.next == 127) = true := by decide

/-- DS-8, sample 1: the narrow path. -/
theorem test_delta16Plain_narrow :
    after (.delta16Plain (.narrow [(false, true)] [false, false, false, true])) (dsuWith true false 4 0 0 0 1)
      (fun t => t.dsu.prev == 8 && t.dsu.v == 0x11 && t.dsu.dh == 4 && t.dsu.smp == [(0, 0x08), (1, 0x00)]) = true := by
  decide

/-- DS-7, sample 0: V = 0x7D1 is a delta of 1000, NEXT 2500. -/
theorem test_delta16Pred :
    after (.delta16Pred (.general [true, true, true] [true, true, false, true, false, false, false, true]))
      (dsuWith true true 8 0 0 0 2)
      (fun t => t.dsu.prevp == 1000 && t.dsu.next == 2500 && t.dsu.dh == 9 && t.dsu.smp == [(0, 0xE8), (1, 0x03)]) =
      true := by decide

/-- R163. -/
theorem test_evtEnd :
    after .evtEnd (peuWith .it 0 emptyCell) (fun t => t.peu.bank.state == .done && t.peu.cells == [] && t.peu.row == 0) =
      true := by decide

/-- R182, PE-1: rows 0 and 1. -/
theorem test_evt :
    (match exec (.evt 1 [(0x01, 0x3C)]) (peuWith .xm 0 emptyCell) with
      | .next t => t.peu.cells
      | _ => []) =
      [(0, { emptyCell with note := .note (60 + Config.noteOrigin .xm) }),
        (1, { emptyCell with note := .note (60 + Config.noteOrigin .xm) })] := by rfl

/-- PE-5: a span of 16 stops at row R - 1. -/
theorem test_evt_clipped :
    after (.evt 15 []) (peuWith .mod 0 emptyCell)
      (fun t => t.peu.cells.map Prod.fst == [0, 1, 2, 3] && t.peu.row == 16 && peuOutPos t.peu == 4) = true := by decide

/-- R167: 0xFF is Off, 0x78 (120) is Fade. -/
theorem test_cmdNote :
    after (.cmdNote 0x01 0xFF) (peuWith .it 2 emptyCell) (fun t => t.peu.wcell.note == .off && t.peu.k == 1) = true ∧
    after (.cmdNote 0x01 0x78) (peuWith .it 2 emptyCell) (fun t => t.peu.wcell.note == .fade) = true := by decide

/-- R175's example: a tone portamento on S3M becomes the combined command with the slide's operand. -/
theorem test_cmdVolslide :
    after (.cmdVolslide 0x22 0x0F) (peuWith .s3m 2 { emptyCell with eff := some (.toneporta, 0x20) })
      (fun t => heldEff t == some (.tonePortaVol, 0x0F)) = true := by decide

/-- R175: not on XM. -/
theorem test_cmdVolslide_xm :
    after (.cmdVolslide 0x22 0x0F) (peuWith .xm 2 { emptyCell with eff := some (.vibrato, 0x20) })
      (fun t => heldEff t == some (.volslide, 0x0F)) = true := by decide

/-- R168's example. -/
theorem test_cmdInstr :
    after (.cmdInstr 0x02 0x05) (peuWith .it 2 emptyCell) (fun t => t.peu.wcell.instr == some 5) = true := by decide

/-- R169: XM, low nibble 0 or not. -/
theorem test_cmdToneporta :
    after (.cmdToneporta 0x03 0x30) (peuWith .xm 2 emptyCell) (fun t => heldVol t == some (.toneporta, 0x30)) = true ∧
    after (.cmdToneporta 0x03 0x01) (peuWith .xm 2 emptyCell) (fun t => heldEff t == some (.toneporta, 0x01)) = true := by
  decide

/-- R170: 9 and 10 on IT. -/
theorem test_cmdVibrato :
    after (.cmdVibrato 0x04 9) (peuWith .it 2 emptyCell) (fun t => heldVol t == some (.vibDepth, 9)) = true ∧
    after (.cmdVibrato 0x04 10) (peuWith .it 2 emptyCell) (fun t => heldEff t == some (.vibrato, 10)) = true := by decide

/-- R171: 0xFF on IT, and an operand that is no multiple of 4. -/
theorem test_cmdPanning :
    after (.cmdPanning 0x05 0xFF) (peuWith .it 2 emptyCell) (fun t => heldVol t == some (.panning, 0xFF)) = true ∧
    after (.cmdPanning 0x05 0xFF) (peuWith .xm 2 emptyCell) (fun t => heldEff t == some (.panning8, 0xFF)) = true := by
  decide

/-- R172: 64 and 65 on S3M. -/
theorem test_cmdVolume :
    after (.cmdVolume 0x06 64) (peuWith .s3m 2 emptyCell) (fun t => heldVol t == some (.volume, 64)) = true ∧
    after (.cmdVolume 0x06 65) (peuWith .s3m 2 emptyCell) (fun t => heldEff t == some (.volume, 65)) = true := by decide

/-- R173, S6: 0x21 is row 33 on IT and row 21 elsewhere. -/
theorem test_cmdPatternbreak :
    after (.cmdPatternbreak 0x07 0x21) (peuWith .it 2 emptyCell) (fun t => heldEff t == some (.patternbreak, 33)) = true ∧
    after (.cmdPatternbreak 0x07 0x21) (peuWith .mod 2 emptyCell) (fun t => heldEff t == some (.patternbreak, 21)) =
      true := by decide

/-- R174: 0x1F and 0x20. -/
theorem test_cmdTempospeed :
    after (.cmdTempospeed 0x08 0x1F) (peuWith .it 2 emptyCell) (fun t => heldEff t == some (.speed, 31)) = true ∧
    after (.cmdTempospeed 0x08 0x20) (peuWith .it 2 emptyCell) (fun t => heldEff t == some (.tempo, 32)) = true := by
  decide

/-- R176: it replaces an earlier effect. -/
theorem test_cmdFixedEff :
    after (.cmdFixedEff 0x09 7 0x37) (peuWith .it 2 { emptyCell with eff := some (.vibrato, 1) })
      (fun t => heldEff t == some (.other 7, 0x37)) = true := by decide

/-- R177's example. -/
theorem test_cmdFixedVol :
    after (.cmdFixedVol 0x0A 7 3) (peuWith .it 2 emptyCell) (fun t => heldVol t == some (.other 7, 3)) = true := by decide

/-- R178: the cell stays, the pair counts; the last pair ends the event. -/
theorem test_cmdUnmapped :
    after (.cmdUnmapped 0x0B 3) (peuWith .it 2 emptyCell) (fun t => t.peu.wcell == emptyCell && t.peu.k == 1) = true ∧
    after (.cmdUnmapped 0x0B 3) (peuWith .it 1 emptyCell) (fun t => t.peu.row == 1 && t.peu.k == 0) = true := by decide

/-- R211: ignored while BUSY. -/
theorem test_hostStart_busy : exec (.hostStart .peu) (peuWith .it 2 emptyCell) = .next (peuWith .it 2 emptyCell) := by rfl

/-- LZ-F5: N = 0 is ZeroLength; both positions are 0. -/
theorem test_hostStart_zero_length :
    ∃ t, exec (.hostStart .lzu) State.reset = .next t ∧
      t.lzu.bank.state = .fail ∧ t.lzu.bank.cause = .zeroLength ∧ t.lzu.bank.ip = 0 ∧ t.lzu.w = 0 :=
  ⟨_, rfl, by simp [lzuStart, lzuFail, enterFail, bankState, State.reset, resetLzu, resetBank, State.setLzu]⟩

/-! ## Witnesses: for each statement with hypotheses a state and operands that meet them, clause by clause -/

theorem witness_DecodeOfEncode :
    [(Instr.matchNew 3 0x00 (.short 1), Format.lz), (.matchNew (2 ^ 32 - 1) 0xFF (.extended (2 ^ 32 - 1)), .lz),
      (.seed 0x41, .seed), (.evt 15 (List.replicate 15 (0x01, 0x3C)), .track), (.evt 1 [], .track),
      (.delta16Pred (.narrow [(false, true)] [true]), .sample true true 1), (.cmdVolslide 0x22 0x0F, .pair)].all
      (fun p => p.1.wf && formatOf p.1 == some p.2) = true := by decide

/-- LZ tokens, sample codes and a track; then the two codes of DS-8, the second under the narrow format that DH = 4
selects, and two 8-bit codes whose DH falls from 4 to 2. -/
theorem witness_TokenSequencesDecodeBack :
    (∀ i ∈ [Instr.lit 0x42, .matchNew 3 0x01 (.extended 5), .matchReuse (.short 3),
        .delta8Plain (.general [false] [false, false, false, true]), .delta16Pred (.narrow [(false, true)] [true]),
        .evt 1 [(0x01, 0x3C)], .evtEnd],
      i.wf = true ∧ formatOf i ≠ none) ∧
    codesFollow true 8
      [.general [false] [false, false, false, false, false, false, false, true],
        .narrow [(false, true)] [false, false, false, true]] = true ∧
    codesFollow false 4 [.general [false] [false, false, false, true], .general [true] [false, true]] = true := by decide

/-- A code of one pair at the start of a stream, and the longest code's 31 data bits; the overflow at bit 63, and a code of
which 56 bits are there. -/
theorem witness_GammaCodeValue :
    decodeLength (inputOf [0x00]) Cursor.fresh = .ok (2, { ip := 1, data := 0x02, carry := false }) ∧
    ([false] ≠ [] ∧ [false].length ≤ 31 ∧
      readBits (inputOf [0x00]) 2 Cursor.fresh =
        .ok (gammaPairs [false], { ip := 1, data := 0x02, carry := false })) ∧
    (List.replicate 31 true ≠ [] ∧ (List.replicate 31 true).length ≤ 31) ∧
    decodeLength (inputOf (List.replicate 8 0xFF)) Cursor.fresh =
      .error { cause := .lengthOverflow, cursor := { ip := 8, data := 0xC0, carry := true } } ∧
    decodeLength (inputOf (List.replicate 7 0xFF)) Cursor.fresh =
      .error { cause := .streamExhausted, cursor := { ip := 7, data := 0, carry := true } } ∧
    readBit (inputOf []) Cursor.fresh = .error { cause := .streamExhausted, cursor := Cursor.fresh } :=
  ⟨rfl, ⟨by decide, by decide, rfl⟩, by decide, rfl, rfl, rfl⟩

theorem witness_ControlByteDelivery :
    Cursor.fresh.ip < (inputOf [0xA5]).len ∧ Cursor.fresh.data = 0 ∧ 1 ≤ 8 ∧ 8 ≤ 8 ∧
    ({ ip := 1, data := 0x80, carry := true } : Cursor).ip < (inputOf [0xA5, 0x3C]).len ∧
    ({ ip := 1, data := 0x80, carry := true } : Cursor).data = 0x80 := by decide

theorem witness_MatchLengthOperands :
    (∀ g ∈ [3, 7, 8, 127, 128], 3 ≤ g) ∧ ∀ l ∈ [1, 3, 4, 2 ^ 32 + 1], 1 ≤ l ∧ l ≤ 2 ^ 32 + 1 := by decide

theorem witness_DeltaHasOneRawCode :
    (-(2 ^ (8 - 1) : Int) ≤ -128 ∧ (-128 : Int) < 2 ^ (8 - 1)) ∧
    (-(2 ^ (16 - 1) : Int) ≤ 32767 ∧ (32767 : Int) < 2 ^ (16 - 1)) := by decide

theorem witness_WidthStaysInRange : (1 ≤ 1 ∧ 1 ≤ shiftOf 8) ∧ (1 ≤ 15 ∧ 15 ≤ shiftOf 16) := by decide

theorem witness_MatchNewCompletes :
    (Instr.matchNew 3 0x01 (.short 1)).wf = true ∧ (0 : Int) ≤ ((lzuWith [0x41, 0x42] 4 0).lzu.w : Int) + -2 ∧
    (2 : Int) ≤ (lzuWith [0x41, 0x42] 4 0).lzu.n - (lzuWith [0x41, 0x42] 4 0).lzu.w := by decide

theorem witness_MatchReuseCompletes :
    (Instr.matchReuse (.short 3)).wf = true ∧ (lzuWith [0x41, 0x42] 5 (-2)).lzu.prevOff < 0 ∧
    0 ≤ ((lzuWith [0x41, 0x42] 5 (-2)).lzu.w : Int) + (lzuWith [0x41, 0x42] 5 (-2)).lzu.prevOff ∧
    (3 : Int) ≤ (lzuWith [0x41, 0x42] 5 (-2)).lzu.n - (lzuWith [0x41, 0x42] 5 (-2)).lzu.w := by decide

/-- BadOffset one byte before the output's start, LengthOverrun by one byte, and both for a reuse. -/
theorem witness_MatchChecks :
    ((lzuWith [0x41] 4 0).lzu.w : Int) + matchOffset 3 1 < 0 ∧
    (0 ≤ ((lzuWith [0x41] 3 0).lzu.w : Int) + matchOffset 3 0 ∧
      ((lzuWith [0x41] 3 0).lzu.n : Int) - (lzuWith [0x41] 3 0).lzu.w < lengthBase (.short 2) + matchBonus (matchOffset 3 0)) ∧
    (0 ≤ (lzuWith [0x41] 4 0).lzu.prevOff ∨ ((lzuWith [0x41] 4 0).lzu.w : Int) + (lzuWith [0x41] 4 0).lzu.prevOff < 0) ∧
    ((lzuWith [0x41] 4 (-1)).lzu.prevOff < 0 ∧
      0 ≤ ((lzuWith [0x41] 4 (-1)).lzu.w : Int) + (lzuWith [0x41] 4 (-1)).lzu.prevOff ∧
      ((lzuWith [0x41] 4 (-1)).lzu.n : Int) - (lzuWith [0x41] 4 (-1)).lzu.w < lengthBase (.extended 2)) := by decide

theorem witness_CopyRepeatsPeriod :
    1 ≤ 1 ∧ 1 ≤ (lzuWith [0x41] 8 0).lzu.w ∧ 6 < 7 ∧ (0 < (lzuWith [0x41] 8 0).lzu.w ∨ (lzuWith [0x41] 8 0).lzu.w + 7 ≤ 0) ∧
    (8 < (lzuWith [0x41] 8 0).lzu.w ∨ (lzuWith [0x41] 8 0).lzu.w + 7 ≤ 8) := by decide

theorem witness_LzuOperationEnds :
    lzuInv (lzuWith [0x41] 4 0).lzu ∧ (lzuWith [0x41] 4 0).lzu.bank.state = .busy := by
  unfold lzuInv bankInv; decide

/-- A BUSY LZU before the seed of an input. -/
def lzuAtStart (bytes : List Byte) (n : Nat) : State :=
  State.reset.setLzu { resetLzu with bank := busy bytes.length, input := storeOfBytes 0 bytes, n := n }

theorem witness_LiteralStreamDecodes :
    let s := lzuAtStart [0x48, 0x00, 0x45, 0x4C] 3
    pack 0 (.byte 0x48 :: ([0x45, 0x4C] : List Byte).flatMap fun x => [.bit false, .byte x]) = [0x48, 0x00, 0x45, 0x4C] ∧
    s.lzu.bank.state = .busy ∧ s.lzu.w = 0 ∧ s.lzu.n = ([0x45, 0x4C] : List Byte).length + 1 ∧ s.lzu.cbd = cbdStart ∧
    s.lzu.bank.ip = 0 ∧ s.lzu.bank.len = 4 ∧ s.lzu.input = storeOfBytes 0 [0x48, 0x00, 0x45, 0x4C] := by decide

/-- A DSU at a place of its loop. -/
def dsuAt (frames chans fr ch count : Nat) : Dsu :=
  { resetDsu with bank := busy 9, dh := 4, frames := frames, chans := chans, fr := fr, ch := ch, count := count }

theorem witness_SampleLoop :
    (dsuAt 2 2 0 0 1).fr + 1 < (dsuAt 2 2 0 0 1).frames ∧
    ((dsuAt 2 2 1 0 2).fr + 1 = (dsuAt 2 2 1 0 2).frames ∧ (dsuAt 2 2 1 0 2).ch + 1 < (dsuAt 2 2 1 0 2).chans) ∧
    ((dsuAt 2 2 1 1 4).fr + 1 = (dsuAt 2 2 1 1 4).frames ∧ (dsuAt 2 2 1 1 4).ch + 1 = (dsuAt 2 2 1 1 4).chans) ∧
    (dsuAt 2 2 1 1 3).count < (dsuAt 2 2 1 1 3).frames * (dsuAt 2 2 1 1 3).chans ∧
    (dsuAt 2 2 0 2 4).count = (dsuAt 2 2 0 2 4).frames * (dsuAt 2 2 0 2 4).chans := by decide

/-- At both ends of PREV's range: -128 in 8 bits on the only frame, 32767 in 16 bits. -/
theorem witness_ZeroDeltaKeepsPrev :
    (rawCode 8 (.general [false] [false, false, false, true]) = 1 ∧
      -(2 ^ (8 - 1) : Int) ≤ (dsuWith false false 4 (-128) 0 0 1).dsu.prev ∧
      (dsuWith false false 4 (-128) 0 0 1).dsu.prev < (2 ^ (8 - 1) : Int)) ∧
    (rawCode 16 (.narrow [(false, false)] [false, true]) = 1 ∧
      -(2 ^ (16 - 1) : Int) ≤ (dsuWith true false 2 32767 0 0 2).dsu.prev ∧
      (dsuWith true false 2 32767 0 0 2).dsu.prev < (2 ^ (16 - 1) : Int)) := by decide

theorem witness_DsuOperationEnds :
    dsuInv (dsuWith true false 4 32767 (-32768) 0 3).dsu ∧
    (dsuWith true false 4 32767 (-32768) 0 3).dsu.bank.state = .busy := by
  unfold dsuInv dsuRanges bankInv; decide

theorem witness_EvtCompletes : (List.replicate 15 ((0x01 : Byte), (0x3C : Byte))).length ≤ 15 := by decide

theorem witness_PairCounting :
    (peuWith .it 0 emptyCell).peu.k = 0 ∧ 2 ≤ (peuWith .it 2 emptyCell).peu.k ∧ (peuWith .it 1 emptyCell).peu.k = 1 := by
  decide

theorem witness_NoteCompletes :
    (0 : Byte).toNat < 120 ∧ (119 : Byte).toNat < 120 ∧ (120 ≤ (120 : Byte).toNat ∧ (120 : Byte).toNat ≤ 0xFD) ∧
    (120 ≤ (0xFD : Byte).toNat ∧ (0xFD : Byte).toNat ≤ 0xFD) := by decide

theorem witness_PortaAndPanningComplete :
    (((peuWith .xm 1 emptyCell).peu.dialect = .xm ∧ (0x30 : Byte).toNat % 16 = 0) ∨
      ((peuWith .xm 1 emptyCell).peu.dialect = .it ∧ (0x30 : Byte) ∈ itVolTpSet)) ∧
    ¬(((peuWith .s3m 1 emptyCell).peu.dialect = .xm ∧ (0x30 : Byte).toNat % 16 = 0) ∨
      ((peuWith .s3m 1 emptyCell).peu.dialect = .it ∧ (0x30 : Byte) ∈ itVolTpSet)) ∧
    (((peuWith .it 1 emptyCell).peu.dialect = .it ∧ (0xFF : Byte).toNat = 255) ∨
      ((0xFF : Byte).toNat % 4 = 0 ∧ Config.panVolRange .it 0xFF = true)) ∧
    ¬(((peuWith .xm 1 emptyCell).peu.dialect = .it ∧ (0xFF : Byte).toNat = 255) ∨
      ((0xFF : Byte).toNat % 4 = 0 ∧ Config.panVolRange .xm 0xFF = true)) := by
  refine ⟨.inl (by decide), ?_, .inl (by decide), ?_⟩
  · rintro (h | h) <;> exact absurd h.1 (by decide)
  · rintro (h | h) <;> exact absurd h.1 (by decide)

theorem witness_VibratoAndVolumeComplete :
    ((9 : Byte).toNat ≤ 9 ∧ (peuWith .it 1 emptyCell).peu.dialect = .it) ∧
    (10 ≤ (10 : Byte).toNat ∨ (peuWith .it 1 emptyCell).peu.dialect ≠ .it) ∧
    (10 ≤ (9 : Byte).toNat ∨ (peuWith .xm 1 emptyCell).peu.dialect ≠ .it) ∧
    ((64 : Byte).toNat ≤ 64 ∧ (peuWith .s3m 1 emptyCell).peu.dialect ≠ .mod) ∧
    (65 ≤ (65 : Byte).toNat ∨ (peuWith .s3m 1 emptyCell).peu.dialect = .mod) ∧
    (65 ≤ (64 : Byte).toNat ∨ (peuWith .mod 1 emptyCell).peu.dialect = .mod) := by decide

theorem witness_BreakAndTempoComplete :
    (peuWith .it 1 emptyCell).peu.dialect = .it ∧ (peuWith .mod 1 emptyCell).peu.dialect ≠ .it ∧
    (31 : Byte).toNat < 32 ∧ 32 ≤ (32 : Byte).toNat := by decide

/-- A tone portamento, a vibrato, another effect and none, on IT and S3M; XM and MOD. -/
theorem witness_VolslideCompletes :
    ((peuWith .it 1 emptyCell).peu.dialect = .it ∨ (peuWith .it 1 emptyCell).peu.dialect = .s3m) ∧
    (peuWith .s3m 1 { emptyCell with eff := some (.toneporta, 1) }).peu.wcell.eff = some (.toneporta, 1) ∧
    (peuWith .s3m 1 { emptyCell with eff := some (.vibrato, 1) }).peu.wcell.eff = some (.vibrato, 1) ∧
    (∀ x, (peuWith .it 1 emptyCell).peu.wcell.eff ≠ some (.toneporta, x) ∧
      (peuWith .it 1 emptyCell).peu.wcell.eff ≠ some (.vibrato, x)) ∧
    ((peuWith .mod 1 emptyCell).peu.dialect = .xm ∨ (peuWith .mod 1 emptyCell).peu.dialect = .mod) :=
  ⟨by decide, rfl, rfl, fun _ => ⟨nofun, nofun⟩, by decide⟩

theorem witness_PeuOperationEnds :
    peuInv (peuWith .it 0 emptyCell).peu ∧ (peuWith .it 0 emptyCell).peu.bank.state = .busy ∧
    (peuWith .it 0 emptyCell).peu.k = 0 := by
  unfold peuInv bankInv; decide

/-- A BUSY PEU before a track, on a column of three Empty rows. -/
def peuAtStart (bytes : List Byte) : State :=
  State.reset.setPeu
    { resetPeu with
      bank := busy bytes.length, input := storeOfBytes 0 bytes, rows := 3
      cells := [(0, emptyCell), (1, emptyCell), (2, emptyCell)] }

theorem witness_SourceTrackExample :
    let s := peuAtStart [0x11, 0x01, 0x3C, 0x00]
    s.peu.bank.state = .busy ∧ s.peu.k = 0 ∧ s.peu.row = 0 ∧ 1 ≤ s.peu.rows ∧ s.peu.bank.ip = 0 ∧ s.peu.bank.len = 4 ∧
    s.peu.input = storeOfBytes 0 [0x11, 0x01, 0x3C, 0x00] ∧ ∀ r, r < s.peu.rows → s.cell r = emptyCell := by
  refine ⟨rfl, rfl, rfl, by decide, rfl, rfl, rfl, ?_⟩
  intro r hr
  match r, hr with
  | 0, _ => rfl
  | 1, _ => rfl
  | 2, _ => rfl

theorem witness_PeuStartCompletes :
    (bankState (peuWith .it 0 emptyCell) .peu).state = .busy ∧ (bankState State.reset .peu).state ≠ .busy := by decide

/-- A used LZU and a fresh one, a used DSU and a fresh one, a used PEU and a fresh one, with the same registers and
spaces. -/
theorem witness_StartForgetsOldContext :
    (({ resetLzu with prevOff := -7, g := 9, cbd := { data := 0x42, carry := true } } : Lzu).bank.inLen = resetLzu.bank.inLen ∧
      ({ resetLzu with prevOff := -7 } : Lzu).bank.outLen = resetLzu.bank.outLen ∧
      ({ resetLzu with prevOff := -7 } : Lzu).bank.config = resetLzu.bank.config ∧
      ({ resetLzu with prevOff := -7 } : Lzu).input = resetLzu.input ∧
      ({ resetLzu with prevOff := -7 } : Lzu).out = resetLzu.out) ∧
    (({ resetDsu with dh := 7, prev := 5 } : Dsu).bank.inLen = resetDsu.bank.inLen ∧
      ({ resetDsu with dh := 7, prev := 5 } : Dsu).bank.outLen = resetDsu.bank.outLen ∧
      ({ resetDsu with dh := 7, prev := 5 } : Dsu).bank.config = resetDsu.bank.config ∧
      ({ resetDsu with dh := 7, prev := 5 } : Dsu).input = resetDsu.input ∧
      ({ resetDsu with dh := 7, prev := 5 } : Dsu).smp = resetDsu.smp) ∧
    (({ resetPeu with k := 3, row := 9, cb := 0x13 } : Peu).bank.inLen = resetPeu.bank.inLen ∧
      ({ resetPeu with k := 3, row := 9, cb := 0x13 } : Peu).bank.outLen = resetPeu.bank.outLen ∧
      ({ resetPeu with k := 3, row := 9, cb := 0x13 } : Peu).bank.config = resetPeu.bank.config ∧
      ({ resetPeu with k := 3, row := 9, cb := 0x13 } : Peu).input = resetPeu.input ∧
      ({ resetPeu with k := 3, row := 9, cb := 0x13 } : Peu).cells = resetPeu.cells) := by decide

/-- LZ-F6, an input without the seed; the same for the other units; and a match whose gamma code passes 2^32 - 1. -/
theorem witness_StreamFaultEntry :
    let s := lzuAtStart [] 1
    let d := State.reset.setDsu { dsuAt 1 1 0 0 0 with bank := busy 0 }
    let p := State.reset.setPeu { resetPeu with bank := busy 0, rows := 1 }
    let o := (lzuAtStart (List.replicate 9 0xFF) 2).setLzu { (lzuAtStart (List.replicate 9 0xFF) 2).lzu with w := 1 }
    (s.lzu.w < s.lzu.n ∧ s.lzu.bank.ip ≤ s.lzu.bank.len ∧
      decodeStream (if s.lzu.w = 0 then .seed else .lz) { len := s.lzu.bank.len, get := s.byte .inLzu }
        { ip := s.lzu.bank.ip, data := s.lzu.cbd.data, carry := s.lzu.cbd.carry } =
      .error { cause := .streamExhausted, cursor := Cursor.fresh }) ∧
    (d.dsu.count < d.dsu.frames * d.dsu.chans ∧ d.dsu.bank.ip ≤ d.dsu.bank.len ∧
      decodeStream (.sample d.dsu.w16 d.dsu.pred d.dsu.dh) { len := d.dsu.bank.len, get := d.byte .inDsu }
        { ip := d.dsu.bank.ip, data := d.dsu.cbd.data, carry := d.dsu.cbd.carry } =
      .error { cause := .streamExhausted, cursor := Cursor.fresh }) ∧
    (p.peu.row < p.peu.rows ∧ p.peu.bank.ip ≤ p.peu.bank.len ∧
      decodeStream (if p.peu.k = 0 then .track else .pair) { len := p.peu.bank.len, get := p.byte .inPeu }
        { ip := p.peu.bank.ip, data := 0, carry := false } =
      .error { cause := .streamExhausted, cursor := Cursor.fresh }) ∧
    (o.lzu.w < o.lzu.n ∧ o.lzu.bank.ip ≤ o.lzu.bank.len ∧
      decodeStream (if o.lzu.w = 0 then .seed else .lz) { len := o.lzu.bank.len, get := o.byte .inLzu }
        { ip := o.lzu.bank.ip, data := o.lzu.cbd.data, carry := o.lzu.cbd.carry } =
        .error { cause := .lengthOverflow, cursor := { ip := 8, data := 0x80, carry := true } }) ∧
    o.lzu.w ≠ 0 ∧
    matchGammaStops { len := o.lzu.bank.len, get := o.byte .inLzu }
      { ip := o.lzu.bank.ip, data := o.lzu.cbd.data, carry := o.lzu.cbd.carry }
      { cause := .lengthOverflow, cursor := { ip := 8, data := 0x80, carry := true } } :=
  ⟨⟨by decide, by decide, rfl⟩, ⟨by decide, by decide, rfl⟩, ⟨by decide, by decide, rfl⟩,
    ⟨by decide, by decide, rfl⟩, by decide, _, rfl, .inl rfl⟩

/-- A BUSY bank; the read-only STATUS at 0x04, an offset without register, and CTRL with bit 0 = 0. -/
theorem witness_IgnoredRegisterWrites :
    (0x3C < 0x40 ∧ 0x3C % 4 = 0 ∧ (bankState (lzuWith [] 1 0) .lzu).state = .busy) ∧
    (0x04 < 0x40 ∧ 0x04 % 4 = 0 ∧ 0x04 ≠ 0x08 ∧ 0x04 ≠ 0x0C ∧ 0x04 ≠ 0x10 ∧ 0x04 ≠ 0) ∧
    (0 < 0x40 ∧ 0 % 4 = 0 ∧ 0 ≠ 0x08 ∧ 0 ≠ 0x0C ∧ 0 ≠ 0x10 ∧ (0xFFFFFFFE : Word).getLsbD 0 = false) := by decide

theorem witness_RegisterWriteReadBack : ∀ u : UnitId, (bankState State.reset u).state ≠ .busy := by
  intro u; cases u <;> decide

/-- STATUS, OUT_POS and the last offset of a bank; CTRL and the first absent offset; the first offset past the window. -/
theorem witness_RegisterReadsOnlyReply :
    ((0x04 < 0x40 ∧ 0x04 % 4 = 0) ∧ (0x18 < 0x40 ∧ 0x18 % 4 = 0 ∧ 0x18 ≠ 0x04) ∧ (0x3C < 0x40 ∧ 0x3C % 4 = 0)) ∧
    ((0 = 0 ∨ 0x1C ≤ 0) ∧ (0x1C = 0 ∨ 0x1C ≤ 0x1C)) ∧ (0xC0 ≤ 0xC0 ∧ 0xC0 % 4 = 0) := by decide

theorem witness_MalformedRegisterAccessRefused : (2 ≠ 4 ∨ 0x08 % 4 ≠ 0) ∧ (4 ≠ 4 ∨ 0x0A % 4 ≠ 0) := by decide

/-- A BUSY unit of each kind, and units that are not. -/
theorem witness_HostSpaceWrites :
    ((bankState (lzuWith [] 1 0) .lzu).state = .busy ∧ (lzuWith [] 1 0).lzu.bank.state = .busy ∧
      (dsuWith false false 4 0 0 0 1).dsu.bank.state = .busy ∧ (peuWith .it 0 emptyCell).peu.bank.state = .busy) ∧
    ((bankState State.reset .lzu).state ≠ .busy ∧ (bankState State.reset .dsu).state ≠ .busy ∧
      (bankState State.reset .peu).state ≠ .busy) := by decide

/-- A unit in DONE whose end no STATUS read has shown, one in FAIL, and units whose outputs are final. -/
theorem witness_HostSpaceReads :
    ((bankState (State.reset.setLzu { resetLzu with bank := { busy 1 with state := .done } }) .lzu).state = .done ∧
      (bankState (State.reset.setPeu { resetPeu with bank := { busy 1 with state := .fail } }) .peu).state = .fail) ∧
    (State.reset.lzu.bank.seen = true ∧ State.reset.lzu.bank.state ≠ .busy) ∧
    (State.reset.dsu.bank.seen = true ∧ State.reset.dsu.bank.state ≠ .busy) ∧
    (State.reset.peu.bank.seen = true ∧ State.reset.peu.bank.state ≠ .busy) := by decide

/-- Each agent alone: a seed, a sample, an END, a START, and a host access that is no instruction. -/
theorem witness_StepRunsDecoded :
    let s := lzuAtStart [0x41] 1
    let d := State.reset.setDsu { dsuAt 1 1 0 0 0 with bank := busy 1, input := [(0, 0x04)] }
    let p := peuAtStart [0x00]
    let h := State.reset.setHost [.writeReg 0x40 4 1]
    let r := State.reset.setHost [.readOut 0]
    (choose s = some (.lzu, s) ∧ s.lzu.w < s.lzu.n ∧
      decodeStream (if s.lzu.w = 0 then .seed else .lz) { len := s.lzu.bank.len, get := s.byte .inLzu }
        { ip := s.lzu.bank.ip, data := s.lzu.cbd.data, carry := s.lzu.cbd.carry } =
        .ok (.seed 0x41, { ip := 1, data := 0, carry := false })) ∧
    (choose d = some (.dsu, d) ∧ d.dsu.count < d.dsu.frames * d.dsu.chans ∧
      decodeStream (.sample d.dsu.w16 d.dsu.pred d.dsu.dh) { len := d.dsu.bank.len, get := d.byte .inDsu }
        { ip := d.dsu.bank.ip, data := d.dsu.cbd.data, carry := d.dsu.cbd.carry } =
        .ok (.delta8Plain (.general [false] [false, false, false, true]), { ip := 1, data := 0x20, carry := true })) ∧
    (choose p = some (.peu, p) ∧ p.peu.row < p.peu.rows ∧
      decodeStream (if p.peu.k = 0 then .track else .pair) { len := p.peu.bank.len, get := p.byte .inPeu }
        { ip := p.peu.bank.ip, data := 0, carry := false } =
        .ok (.evtEnd, { ip := 1, data := 0, carry := false })) ∧
    (choose h = some (.host, h) ∧ h.host = [.writeReg 0x40 4 1] ∧
      decodeHost (.writeReg 0x40 4 1) = some (.hostStart .dsu)) ∧
    (choose r = some (.host, r) ∧ r.host = [.readOut 0] ∧ decodeHost (.readOut 0) = none) :=
  ⟨⟨rfl, by decide, rfl⟩, ⟨rfl, by decide, rfl⟩, ⟨rfl, by decide, rfl⟩, ⟨rfl, rfl, rfl⟩, rfl, rfl, rfl⟩

theorem witness_PlacedWordRuns : decodeTableWord 8 0x01 = some (.cmdNote 0x01 0x00) := by decide

/-- The quiet machine; a BUSY LZU chosen beside two units that are not BUSY, which stay; and a host chosen. -/
theorem witness_OnlyBusyUnitsStep :
    quiet State.reset ∧
    (choose (lzuAtStart [0x41] 2) = some (.lzu, lzuAtStart [0x41] 2) ∧ Agent.lzu = unitAgent .lzu ∧
      (∃ t, step (lzuAtStart [0x41] 2) = .next t) ∧ (bankState (lzuAtStart [0x41] 2) .peu).state ≠ .busy) ∧
    (choose (State.reset.setHost [.writeReg 0x08 4 3]) = some (.host, State.reset.setHost [.writeReg 0x08 4 3]) ∧
      (∃ t, step (State.reset.setHost [.writeReg 0x08 4 3]) = .next t) ∧
      (bankState (State.reset.setHost [.writeReg 0x08 4 3]) .lzu).state ≠ .busy) :=
  ⟨by unfold quiet; decide, ⟨rfl, rfl, ⟨_, rfl⟩, by decide⟩, rfl, ⟨_, rfl⟩, by decide⟩

/-- Two inputs of two bytes that differ behind them. -/
theorem witness_ReadsStayBelowInLen :
    let inp : Input := { len := 2, get := fun _ => 0 }
    let inp' : Input := { len := 2, get := fun a => if a < 2 then 0 else 0xFF }
    inp.len = inp'.len ∧ ∀ a, a < inp.len → inp.get a = inp'.get a :=
  ⟨rfl, fun a h => by simp only; rw [if_pos h]⟩

theorem witness_UnitWritesStayInside :
    (lzuInv (lzuAtStart [0x41] 2).lzu ∧ (lzuAtStart [0x41] 2).lzu.bank.state = .busy ∧
      ∃ t, stepLzu (lzuAtStart [0x41] 2) = .next t) ∧
    (dsuInv { dsuAt 2 2 1 0 1 with input := [(0, 0x04)] } ∧ (dsuAt 2 2 1 0 1).bank.state = .busy ∧
      ∃ t, stepDsu (State.reset.setDsu { dsuAt 2 2 1 0 1 with input := [(0, 0x04)] }) = .next t) ∧
    ((peuAtStart [0x10]).peu.bank.state = .busy ∧ ∃ t, stepPeu (peuAtStart [0x10]) = .next t) := by
  refine ⟨⟨?_, rfl, _, rfl⟩, ⟨?_, rfl, _, rfl⟩, rfl, _, rfl⟩
  · unfold lzuInv bankInv; decide
  · unfold dsuInv dsuRanges bankInv; decide

/-- A seed of the LZU and an event of the PEU. -/
theorem witness_UnitStepsCommute :
    UnitId.lzu ≠ .peu ∧ (∃ a, stepUnit .lzu ((lzuAtStart [0x41] 2).setPeu (peuAtStart [0x10]).peu) = .next a) ∧
    ∃ b, stepUnit .peu ((lzuAtStart [0x41] 2).setPeu (peuAtStart [0x10]).peu) = .next b :=
  ⟨by decide, ⟨_, rfl⟩, ⟨_, rfl⟩⟩

theorem witness_StepKeepsMemoryCanonical :
    memoryWf (lzuAtStart [0x41] 2) = true ∧ ∃ t, step (lzuAtStart [0x41] 2) = .next t := ⟨by decide, _, rfl⟩

/-- A BUSY LZU for the promises of the units; a host write for the capacities, which are open and may be 0. -/
theorem witness_StepKeepsUnitsInv :
    (unitsInv (lzuAtStart [0x41] 2) ∧ ∃ t, step (lzuAtStart [0x41] 2) = .next t) ∧
    (fitsSpaces (State.reset.setHost [.writeReg 0x08 4 3]) ∧
      ∃ t, step (State.reset.setHost [.writeReg 0x08 4 3]) = .next t) := by
  refine ⟨⟨?_, _, rfl⟩, ?_, _, rfl⟩
  · unfold unitsInv lzuInv dsuInv peuInv dsuRanges bankInv; decide
  · exact ⟨nofun, nofun, nofun⟩

/-- A BUSY LZU and a BUSY PEU. -/
def twoBusy (agenda : List Agent) : State :=
  ((lzuAtStart [0x41] 2).setPeu (peuAtStart [0x10]).peu).setAgenda agenda 0

/-- A host alone with ignored writes to make, `n` of them at first, one less a step. -/
def hostRun (n k : Nat) : State := State.reset.setHost (List.replicate (n - k) (.writeReg 0x1C 4 0))

/-- The PEU's turn is first and the LZU's stays, or is in no turn left; a unit stays BUSY while the host moves; and a run
in which the host can move all along. -/
theorem witness_ReadyAgentMovesInTime :
    (ready (twoBusy [.dsu, .peu, .lzu]) .lzu = true ∧
      choose (twoBusy [.dsu, .peu, .lzu]) = some (.peu, twoBusy [.lzu]) ∧ Agent.peu ≠ .lzu ∧
      Agent.lzu ∈ [Agent.dsu, .peu, .lzu]) ∧
    (choose (twoBusy [.peu]) = some (.peu, twoBusy []) ∧ Agent.lzu ∉ [Agent.peu]) ∧
    (Agent.host ≠ unitAgent .lzu ∧ stepAgent .host (twoBusy []) = .next (twoBusy []) ∧
      (bankState (twoBusy []) .lzu).state = .busy ∧ ∀ rest, (twoBusy []).host ≠ .reset :: rest) ∧
    ∀ k, k < (fairRound 0).length →
      ready (hostRun (fairRound 0).length k) .host = true ∧
      step (hostRun (fairRound 0).length k) = .next (hostRun (fairRound 0).length (k + 1)) := by
  refine ⟨⟨rfl, rfl, by decide, by decide⟩, ⟨rfl, by decide⟩, ⟨by decide, rfl, rfl, nofun⟩, fun k hk => ?_⟩
  obtain ⟨m, hm⟩ : ∃ m, (fairRound 0).length - k = m + 1 := ⟨(fairRound 0).length - k - 1, by omega⟩
  have h1 : (fairRound 0).length - (k + 1) = m := by omega
  simp only [hostRun, hm, h1, List.replicate_succ]
  exact ⟨rfl, rfl⟩

end Sys2Proof.Tests
end

/-! SUPPORT. The control bits of spec/40_control_bits.md: what ReadBit and ReadBits answer, the eight bits of a control
byte, and the loop of DecodeLength; with them, the statements O5 and O6. -/

namespace Sys2Proof.ControlBits

/-! ## ReadBit and ReadBits, once (R100) -/

open Sys2Proof.Machine

section
variable {inp : Input}

/-- While the sentinel stays inside DATA, a ReadBit shifts and fetches nothing. -/
theorem readBit_of_shift_ne_zero {c : Cursor} (h : c.data <<< 1 ≠ 0) :
    readBit inp c = .ok (c.data.getLsbD 7, { ip := c.ip, data := c.data <<< 1, carry := c.data.getLsbD 7 }) := by
  simp only [readBit]
  exact if_neg h

/-- With the sentinel shifted out, a ReadBit answers the top bit of the next byte. -/
theorem readBit_of_shift_eq_zero {c : Cursor} (h : c.data <<< 1 = 0) (hlen : c.ip < inp.len) :
    readBit inp c = .ok ((inp.get c.ip).getLsbD 7,
      { ip := c.ip + 1, data := (refill (inp.get c.ip)).2, carry := (inp.get c.ip).getLsbD 7 }) := by
  simp [readBit, fetch, shiftOut, h, hlen, refill]

/-- With the sentinel shifted out and no byte left, a ReadBit stops; DATA and CARRY are those of its shift. -/
theorem readBit_of_exhausted {c : Cursor} (h : c.data <<< 1 = 0) (hlen : inp.len ≤ c.ip) :
    readBit inp c =
      .error { cause := .streamExhausted, cursor := { ip := c.ip, data := 0, carry := c.data.getLsbD 7 } } := by
  simp [readBit, fetch, shiftOut, h, Nat.not_lt.mpr hlen]

theorem shiftLeft_one_eq_zero_iff (b : Byte) : b <<< 1 = 0 ↔ 2 * b.toNat % 256 = 0 := by
  rw [← BitVec.toNat_inj, BitVec.toNat_shiftLeft, Nat.shiftLeft_eq, Nat.mul_comm]
  rfl

theorem readBit_eq_error_iff (inp : Input) (c : Cursor) (e : Stop) :
    readBit inp c = .error e ↔
      inp.len ≤ c.ip ∧ 2 * c.data.toNat % 256 = 0 ∧
        e = { cause := .streamExhausted, cursor := { ip := c.ip, data := 0, carry := c.data.getLsbD 7 } } := by
  rw [← shiftLeft_one_eq_zero_iff]
  by_cases hshift : c.data <<< 1 = 0
  · rcases Nat.lt_or_ge c.ip inp.len with hlen | hlen
    · simp [readBit_of_shift_eq_zero hshift hlen, Nat.not_le.mpr hlen]
    · simp [readBit_of_exhausted hshift hlen, hlen, hshift, eq_comm]
  · rw [readBit_of_shift_ne_zero hshift]
    simp only [hshift, false_and, and_false, reduceCtorEq]

@[simp] theorem readBits_zero_iff {c c' : Cursor} {bs : List Bool} :
    readBits inp 0 c = .ok (bs, c') ↔ bs = [] ∧ c' = c := by
  simp [readBits, eq_comm]

theorem readBits_succ_iff {n : Nat} {c c' : Cursor} {bs : List Bool} :
    readBits inp (n + 1) c = .ok (bs, c') ↔
      ∃ b c1 rest, readBit inp c = .ok (b, c1) ∧ readBits inp n c1 = .ok (rest, c') ∧ bs = b :: rest := by
  rcases hbit : readBit inp c with e | ⟨b, c1⟩
  · simp [readBits, hbit]
  · rcases hrest : readBits inp n c1 with e | ⟨rest, c2⟩
    · simp only [readBits, hbit]
      grind
    · simp only [readBits, hbit, hrest]
      grind

/-- The first of `n + 1` bits and the others. -/
theorem readBits_cons_iff {n : Nat} {c c' : Cursor} {b : Bool} {bs : List Bool} :
    readBits inp (n + 1) c = .ok (b :: bs, c') ↔
      ∃ c1, readBit inp c = .ok (b, c1) ∧ readBits inp n c1 = .ok (bs, c') := by
  simp only [readBits_succ_iff, List.cons.injEq]
  grind

/-- The last of `n + 1` bits and the others. -/
theorem readBits_concat_iff {n : Nat} {c c' : Cursor} {b : Bool} {bs : List Bool} :
    readBits inp (n + 1) c = .ok (bs ++ [b], c') ↔
      ∃ c1, readBits inp n c = .ok (bs, c1) ∧ readBit inp c1 = .ok (b, c') := by
  induction n generalizing bs c with
  | zero => cases bs <;> simp [readBits_cons_iff]
  | succ n ih =>
    cases bs with
    | nil => simp [readBits_succ_iff]
    | cons x xs =>
      rw [List.cons_append, readBits_cons_iff]
      simp only [ih, readBits_cons_iff]
      grind

/-! ## A control byte behind its sentinel (R101) -/

/-- DATA after `j + 1` bits of the control byte `b`. -/
def sentinelData (b : Byte) (j : Nat) : Byte := BitVec.ofNat 8 ((2 * b.toNat + 1) * 2 ^ j)

theorem refill_snd (b : Byte) : (refill b).2 = sentinelData b 0 := by
  revert b
  decide

theorem sentinelData_shift (b : Byte) (j : Nat) : sentinelData b j <<< 1 = sentinelData b (j + 1) := by
  apply BitVec.eq_of_toNat_eq
  simp only [sentinelData, BitVec.toNat_shiftLeft, BitVec.toNat_ofNat, Nat.shiftLeft_eq, Nat.mod_mul_mod, pow_one]
  rw [pow_succ 2 j, Nat.mul_assoc]

/-- The sentinel stands at bit `j`, the bits of `b` not yet delivered above it. -/
theorem sentinelData_getLsbD (b : Byte) (j i : Nat) (h : i < 8) :
    (sentinelData b j).getLsbD i = (decide (j ≤ i) && (2 * b.toNat + 1).testBit (i - j)) := by
  rw [sentinelData, BitVec.getLsbD_ofNat, Nat.testBit_mul_two_pow]
  simp [h]

theorem sentinelData_ne_zero (b : Byte) {j : Nat} (h : j < 8) : sentinelData b j ≠ 0 := by
  intro h0
  have hbit := sentinelData_getLsbD b j j h
  simp [h0] at hbit

theorem sentinelData_top (b : Byte) {j : Nat} (h : j < 7) : (sentinelData b j).getLsbD 7 = b.getLsbD (6 - j) := by
  obtain ⟨i, hi⟩ : ∃ i, 7 - j = i + 1 := ⟨6 - j, by omega⟩
  have hi' : 6 - j = i := by omega
  rw [sentinelData_getLsbD b j 7 (by omega), hi, hi', Nat.testBit_succ, BitVec.getLsbD]
  have hhalf : (2 * b.toNat + 1) / 2 = b.toNat := by omega
  simp [hhalf, h.le]

/-- The first `j + 1` bits of the next byte (R101). -/
theorem readBits_controlByte {c : Cursor} (hlen : c.ip < inp.len) (h0 : c.data = 0) (j : Nat) (hj : j < 8) :
    readBits inp (j + 1) c =
      .ok ((List.range (j + 1)).map (fun i => (inp.get c.ip).getLsbD (7 - i)),
        { ip := c.ip + 1, data := sentinelData (inp.get c.ip) j, carry := (inp.get c.ip).getLsbD (7 - j) }) := by
  induction j with
  | zero =>
    have hshift : c.data <<< 1 = 0 := by rw [h0]; rfl
    have hbit := readBit_of_shift_eq_zero hshift hlen
    rw [refill_snd] at hbit
    simpa [readBits_cons_iff] using hbit
  | succ j ih =>
    rw [List.range_succ, List.map_append, List.map_singleton, readBits_concat_iff]
    refine ⟨_, ih (by omega), ?_⟩
    have hshift := sentinelData_shift (inp.get c.ip) j
    have hne : sentinelData (inp.get c.ip) j <<< 1 ≠ 0 := hshift ▸ sentinelData_ne_zero _ hj
    have htop := sentinelData_top (inp.get c.ip) (j := j) (by omega)
    have hindex : 7 - (j + 1) = 6 - j := by omega
    rw [readBit_of_shift_ne_zero hne, htop, hshift, hindex]

end

/-- Settles O6, by induction on the number of bits taken from the byte. -/
theorem controlByteDelivery : Obligations.ControlByteDelivery := by
  intro inp c hlen
  constructor
  · intro h0 k hk1 hk8
    obtain ⟨j, rfl⟩ : ∃ j, k = j + 1 := ⟨k - 1, by omega⟩
    have hindex : 8 - (j + 1) = 7 - j := by omega
    rw [readBits_controlByte hlen h0 j (by omega), hindex]
    rfl
  · intro h80
    have hshift : c.data <<< 1 = 0 := by rw [h80]; rfl
    rw [readBit_of_shift_eq_zero hshift hlen, refill_snd, sentinelData, pow_zero, Nat.mul_one]

/-! ## The value of a gamma code (R72, R103) -/

section
variable {inp : Input}

theorem bitsValue_concat (v : Nat) (ds : List Bool) (d : Bool) :
    bitsValue v (ds ++ [d]) = 2 * bitsValue v ds + bitNat d := by
  simp [bitsValue]

theorem bitNat_le_one (d : Bool) : bitNat d ≤ 1 := by cases d <;> decide

/-- The binary number 1 d1 .. dk has k + 1 bits. -/
theorem bitsValue_one_bounds (ds : List Bool) :
    2 ^ ds.length ≤ bitsValue 1 ds ∧ bitsValue 1 ds < 2 ^ (ds.length + 1) := by
  induction ds using List.reverseRecOn with
  | nil => decide
  | append_singleton ds d ih =>
    have hd := bitNat_le_one d
    rw [bitsValue_concat, List.length_append, List.length_singleton, pow_succ, pow_succ]
    rw [pow_succ] at ih
    omega

theorem two_pow_le_bitsValue_iff {n : Nat} {ds : List Bool} : 2 ^ n ≤ bitsValue 1 ds ↔ n ≤ ds.length := by
  obtain ⟨hlow, hhigh⟩ := bitsValue_one_bounds ds
  constructor
  · intro h
    exact Nat.le_of_lt_succ ((Nat.pow_lt_pow_iff_right (by decide : 1 < 2)).mp (h.trans_lt hhigh))
  · intro h
    exact (Nat.pow_le_pow_right (by decide) h).trans hlow

theorem bitsValue_range {ds : List Bool} (h : ds ≠ []) :
    2 ^ ds.length ≤ bitsValue 1 ds ∧ bitsValue 1 ds ≤ 2 ^ (ds.length + 1) - 1 ∧ 2 ≤ bitsValue 1 ds := by
  obtain ⟨hlow, hhigh⟩ := bitsValue_one_bounds ds
  exact ⟨hlow, Nat.le_sub_one_of_lt hhigh,
    (two_pow_le_bitsValue_iff (n := 1)).mpr (List.length_pos_of_ne_nil h)⟩

/-! ## The loop of DecodeLength (R102) -/

/-- The pairs (d 1) of the data bits behind which a gamma code goes on. -/
abbrev continuedPairs (ds : List Bool) : List Bool := ds.flatMap (fun b => [b, true])

theorem gammaPairs_concat (ds : List Bool) (d : Bool) :
    gammaPairs (ds ++ [d]) = continuedPairs ds ++ [d] ++ [false] := by
  induction ds with
  | nil => rfl
  | cons x xs ih =>
    have hcons : gammaPairs (x :: (xs ++ [d])) = x :: true :: gammaPairs (xs ++ [d]) := by cases xs <;> rfl
    rw [List.cons_append, hcons, ih]
    rfl

/-- A gamma code is its continued pairs, the last data bit and the continue bit 0. -/
theorem readBits_gammaPairs_iff {c c' : Cursor} {ds : List Bool} {d : Bool} :
    readBits inp (2 * (ds ++ [d]).length) c = .ok (gammaPairs (ds ++ [d]), c') ↔
      ∃ c1 c2, readBits inp (2 * ds.length) c = .ok (continuedPairs ds, c1) ∧
        readBit inp c1 = .ok (d, c2) ∧ readBit inp c2 = .ok (false, c') := by
  have hlen : 2 * (ds ++ [d]).length = 2 * ds.length + 1 + 1 := by simp; omega
  simp only [hlen, gammaPairs_concat, readBits_concat_iff]
  grind

/-- The first continued pair and the others. -/
theorem readBits_continuedPairs_cons_iff {c c' : Cursor} {d : Bool} {ds : List Bool} :
    readBits inp (2 * (d :: ds).length) c = .ok (continuedPairs (d :: ds), c') ↔
      ∃ c1 c2, readBit inp c = .ok (d, c1) ∧ readBit inp c1 = .ok (true, c2) ∧
        readBits inp (2 * ds.length) c2 = .ok (continuedPairs ds, c') := by
  have hlen : 2 * (d :: ds).length = 2 * ds.length + 1 + 1 := by simp; omega
  have hpairs : continuedPairs (d :: ds) = d :: true :: continuedPairs ds := rfl
  simp only [hlen, hpairs, readBits_cons_iff]
  grind

/-- The ways in which a round of the loop, from the value `v` at the cursor `c`, is its last. -/
inductive LastRound (inp : Input) (v : Nat) (c : Cursor) : Except Stop (Nat × Cursor) → Prop
  | noDataBit {e : Stop} (hd : readBit inp c = .error e) : LastRound inp v c (.error e)
  | overflow {d : Bool} {c1 : Cursor} (hd : readBit inp c = .ok (d, c1)) (hv : 2 ^ 32 ≤ 2 * v + bitNat d) :
      LastRound inp v c (.error { cause := .lengthOverflow, cursor := c1 })
  | noContinueBit {d : Bool} {c1 : Cursor} {e : Stop} (hd : readBit inp c = .ok (d, c1))
      (hv : 2 * v + bitNat d < 2 ^ 32) (hm : readBit inp c1 = .error e) : LastRound inp v c (.error e)
  | done {d : Bool} {c1 c2 : Cursor} (hd : readBit inp c = .ok (d, c1)) (hv : 2 * v + bitNat d < 2 ^ 32)
      (hm : readBit inp c1 = .ok (false, c2)) : LastRound inp v c (.ok (2 * v + bitNat d, c2))

/-- The round reads the pair (d 1) and the value stays below 2^32. -/
def GoesOn (inp : Input) (v : Nat) (c : Cursor) (d : Bool) (c2 : Cursor) : Prop :=
  ∃ c1, readBit inp c = .ok (d, c1) ∧ 2 * v + bitNat d < 2 ^ 32 ∧ readBit inp c1 = .ok (true, c2)

theorem LastRound.gammaLoop_eq {n v : Nat} {c : Cursor} {r : Except Stop (Nat × Cursor)}
    (h : LastRound inp v c r) : gammaLoop inp (n + 1) v c = r := by
  cases h with
  | noDataBit hd => simp only [gammaLoop, hd]
  | overflow hd hv => simp only [gammaLoop, hd, if_pos hv]
  | noContinueBit hd hv hm => simp only [gammaLoop, hd, hm, if_neg (Nat.not_le.mpr hv)]
  | done hd hv hm =>
    simp only [gammaLoop, hd, hm, if_neg (Nat.not_le.mpr hv), Bool.false_eq_true, if_false]

theorem GoesOn.gammaLoop_eq {n v : Nat} {c c2 : Cursor} {d : Bool} (h : GoesOn inp v c d c2) :
    gammaLoop inp (n + 1) v c = gammaLoop inp n (2 * v + bitNat d) c2 := by
  obtain ⟨c1, hd, hv, hm⟩ := h
  simp only [gammaLoop, hd, hm, if_neg (Nat.not_le.mpr hv), if_true]

theorem lastRound_or_goesOn (inp : Input) (v : Nat) (c : Cursor) :
    (∃ r, LastRound inp v c r) ∨ ∃ d c2, GoesOn inp v c d c2 := by
  rcases hd : readBit inp c with e | ⟨d, c1⟩
  · exact .inl ⟨_, .noDataBit hd⟩
  · rcases Nat.lt_or_ge (2 * v + bitNat d) (2 ^ 32) with hv | hv
    · rcases hm : readBit inp c1 with e | ⟨more, c2⟩
      · exact .inl ⟨_, .noContinueBit hd hv hm⟩
      · cases more with
        | false => exact .inl ⟨_, .done hd hv hm⟩
        | true => exact .inr ⟨d, c2, c1, hd, hv, hm⟩
    · exact .inl ⟨_, .overflow hd hv⟩

/-- What the loop can do: its first round is the last, or the loop goes on behind a continue bit 1. -/
theorem gammaLoop_succ_iff {n v : Nat} {c : Cursor} {r : Except Stop (Nat × Cursor)} :
    gammaLoop inp (n + 1) v c = r ↔
      LastRound inp v c r ∨ ∃ d c2, GoesOn inp v c d c2 ∧ gammaLoop inp n (2 * v + bitNat d) c2 = r := by
  constructor
  · rintro rfl
    rcases lastRound_or_goesOn inp v c with ⟨r, hlast⟩ | ⟨d, c2, hgo⟩
    · exact .inl (hlast.gammaLoop_eq ▸ hlast)
    · exact .inr ⟨d, c2, hgo, hgo.gammaLoop_eq.symm⟩
  · rintro (hlast | ⟨d, c2, hgo, rfl⟩)
    · exact hlast.gammaLoop_eq
    · exact hgo.gammaLoop_eq

/-- The loop with `n + 1` rounds left, the data bits `pre` behind it: some more continued pairs, then the last round. -/
theorem gammaLoop_eq_iff {n : Nat} {pre : List Bool} {c : Cursor} {r : Except Stop (Nat × Cursor)}
    (hn : pre.length + n = 31) :
    gammaLoop inp (n + 1) (bitsValue 1 pre) c = r ↔
      ∃ ds c1, ds.length ≤ n ∧ readBits inp (2 * ds.length) c = .ok (continuedPairs ds, c1) ∧
        LastRound inp (bitsValue 1 (pre ++ ds)) c1 r := by
  induction n generalizing pre c with
  | zero =>
    have hstays (d : Bool) (c2 : Cursor) : ¬ GoesOn inp (bitsValue 1 pre) c d c2 := by
      rintro ⟨-, -, hv, -⟩
      rw [← bitsValue_concat] at hv
      exact Nat.not_le.mpr hv (two_pow_le_bitsValue_iff.mpr (by simp; omega))
    simp [gammaLoop_succ_iff, hstays]
  | succ n ih =>
    have hgo (d : Bool) (c2 : Cursor) : GoesOn inp (bitsValue 1 pre) c d c2 ↔
        ∃ c1, readBit inp c = .ok (d, c1) ∧ readBit inp c1 = .ok (true, c2) := by
      have hv : 2 * bitsValue 1 pre + bitNat d < 2 ^ 32 := by
        rw [← bitsValue_concat]
        exact Nat.not_le.mp (mt two_pow_le_bitsValue_iff.mp (by simp; omega))
      simp only [GoesOn, hv, true_and]
    have hrest (d : Bool) (c2 : Cursor) := ih (pre := pre ++ [d]) (c := c2) (by simp; omega)
    simp only [bitsValue_concat, List.append_assoc, List.singleton_append] at hrest
    rw [gammaLoop_succ_iff]
    simp only [hgo, hrest]
    constructor
    · rintro (hlast | ⟨d, c2, ⟨c1, hd, hm⟩, ds, c3, hlen, hds, hlast⟩)
      · exact ⟨[], c, by simp, by simp, by simpa using hlast⟩
      · exact ⟨d :: ds, c3, by simpa using hlen,
          readBits_continuedPairs_cons_iff.mpr ⟨c1, c2, hd, hm, hds⟩, hlast⟩
    · rintro ⟨ds, c3, hlen, hds, hlast⟩
      cases ds with
      | nil =>
        obtain ⟨-, rfl⟩ := readBits_zero_iff.mp hds
        exact .inl (by simpa using hlast)
      | cons d ds =>
        obtain ⟨c1, c2, hd, hm, hds⟩ := readBits_continuedPairs_cons_iff.mp hds
        exact .inr ⟨d, c2, ⟨c1, hd, hm⟩, ds, c3, by simpa using hlen, hds, hlast⟩

/-- DecodeLength reads continued pairs, at most 31, and then its last round. -/
theorem decodeLength_eq_iff {c : Cursor} {r : Except Stop (Nat × Cursor)} :
    decodeLength inp c = r ↔
      ∃ ds c1, ds.length ≤ 31 ∧ readBits inp (2 * ds.length) c = .ok (continuedPairs ds, c1) ∧
        LastRound inp (bitsValue 1 ds) c1 r :=
  gammaLoop_eq_iff (pre := []) rfl

/-! ## Values and stops of DecodeLength (R103, R203, R208) -/

/-- The value overflows exactly at the 32nd data bit. -/
theorem two_pow_le_next_iff {ds : List Bool} {d : Bool} :
    2 ^ 32 ≤ 2 * bitsValue 1 ds + bitNat d ↔ 31 ≤ ds.length := by
  rw [← bitsValue_concat, two_pow_le_bitsValue_iff, List.length_append, List.length_singleton]
  omega

theorem next_lt_two_pow_iff {ds : List Bool} {d : Bool} :
    2 * bitsValue 1 ds + bitNat d < 2 ^ 32 ↔ ds.length ≤ 30 := by
  rw [← Nat.not_le, two_pow_le_next_iff]
  omega

theorem decodeLength_eq_ok_iff (inp : Input) (c c' : Cursor) (g : Nat) :
    decodeLength inp c = .ok (g, c') ↔
      ∃ ds : List Bool, ds ≠ [] ∧ ds.length ≤ 31 ∧ readBits inp (2 * ds.length) c = .ok (gammaPairs ds, c') ∧
        g = bitsValue 1 ds := by
  rw [decodeLength_eq_iff]
  constructor
  · rintro ⟨ds, c1, -, hds, hlast⟩
    cases hlast with
    | @done d c2 _ hd hv hm =>
      have hlen := next_lt_two_pow_iff.mp hv
      exact ⟨ds ++ [d], by simp, by simp; omega, readBits_gammaPairs_iff.mpr ⟨c1, c2, hds, hd, hm⟩,
        (bitsValue_concat 1 ds d).symm⟩
  · rintro ⟨ds, hne, hlen, hread, rfl⟩
    obtain ⟨ds, d, rfl⟩ := (List.eq_nil_or_concat' ds).resolve_left hne
    rw [List.length_append, List.length_singleton] at hlen
    obtain ⟨c1, c2, hds, hd, hm⟩ := readBits_gammaPairs_iff.mp hread
    rw [bitsValue_concat]
    exact ⟨ds, c1, by omega, hds, .done hd (next_lt_two_pow_iff.mpr (by omega)) hm⟩

theorem decodeLength_eq_error_iff (inp : Input) (c : Cursor) (e : Stop) :
    decodeLength inp c = .error e ↔
      (∃ (ds : List Bool) (d : Bool) (c' : Cursor), ds.length = 31 ∧
        readBits inp 63 c = .ok (continuedPairs ds ++ [d], c') ∧
        e = { cause := .lengthOverflow, cursor := c' }) ∨
      ∃ (ds : List Bool) (c1 : Cursor), ds.length ≤ 31 ∧
        readBits inp (2 * ds.length) c = .ok (continuedPairs ds, c1) ∧
        (readBit inp c1 = .error e ∨
          ds.length ≤ 30 ∧ ∃ d c2, readBit inp c1 = .ok (d, c2) ∧ readBit inp c2 = .error e) := by
  rw [decodeLength_eq_iff]
  constructor
  · rintro ⟨ds, c1, hlen, hds, hlast⟩
    cases hlast with
    | noDataBit hd => exact .inr ⟨ds, c1, hlen, hds, .inl hd⟩
    | @overflow d c2 hd hv =>
      have hlen31 : ds.length = 31 := Nat.le_antisymm hlen (two_pow_le_next_iff.mp hv)
      rw [hlen31] at hds
      exact .inl ⟨ds, d, c2, hlen31, readBits_concat_iff.mpr ⟨c1, hds, hd⟩, rfl⟩
    | @noContinueBit d c2 _ hd hv hm =>
      exact .inr ⟨ds, c1, hlen, hds, .inr ⟨next_lt_two_pow_iff.mp hv, d, c2, hd, hm⟩⟩
  · rintro (⟨ds, d, c2, hlen, hread, rfl⟩ | ⟨ds, c1, hlen, hds, hstop⟩)
    · obtain ⟨c1, hds, hd⟩ := readBits_concat_iff.mp hread
      exact ⟨ds, c1, hlen.le, hlen ▸ hds, .overflow hd (two_pow_le_next_iff.mpr hlen.ge)⟩
    · rcases hstop with hd | ⟨hlen30, d, c2, hd, hm⟩
      · exact ⟨ds, c1, hlen, hds, .noDataBit hd⟩
      · exact ⟨ds, c1, hlen, hds, .noContinueBit hd (next_lt_two_pow_iff.mpr hlen30) hm⟩

end

/-- Settles O5: the loop's rounds are continued pairs and a last one, and its value has one bit more than the pairs
read. -/
theorem gammaCodeValue : Obligations.GammaCodeValue :=
  ⟨decodeLength_eq_ok_iff, fun _ => bitsValue_range, decodeLength_eq_error_iff, readBit_eq_error_iff⟩

end Sys2Proof.ControlBits

/-! SUPPORT. A unit run alone, symbols standing at a cursor, and the LZ tokens of spec/41_lz.md: CHECK, COPY, how an
operation ends and a stream of literals; with them, the statements O15 to O18. -/

namespace Sys2Proof.LzTokens

open Sys2Proof.Machine Sys2Proof.ControlBits

/-! ## CHECK (R119) -/

theorem lzuMatch_badOffset (blank : Nat → Byte) {u : Lzu} (h : 0 ≤ u.off ∨ (u.w : Int) + u.off < 0) :
    lzuMatch blank u = lzuFail u .badOffset := by
  rcases lzuMatch_cases blank u with ⟨-, heq⟩ | ⟨hneg, hlow, -, -⟩ | ⟨hneg, hlow, -, -⟩
  · exact heq
  · omega
  · omega

theorem lzuMatch_lengthOverrun (blank : Nat → Byte) {u : Lzu} (hneg : u.off < 0) (hlow : 0 ≤ (u.w : Int) + u.off)
    (hlen : (u.n : Int) - u.w < u.len) : lzuMatch blank u = lzuFail u .lengthOverrun := by
  rcases lzuMatch_cases blank u with ⟨hbad, -⟩ | ⟨-, -, -, heq⟩ | ⟨-, -, hfits, -⟩
  · omega
  · exact heq
  · omega

/-- The offset of a MATCH_NEW points before W, so its only BadOffset is a source before 0 (R115). -/
theorem matchOffset_neg {g : Nat} (x : Byte) (h : 3 ≤ g) : matchOffset g x < 0 := by
  unfold matchOffset
  omega

theorem exec_matchNew (g : Nat) (x : Byte) (len : LengthCode) (s : State) :
    exec (.matchNew g x len) s =
      .next (s.setLzu (lzuMatch (blankBytes s .out)
        { s.lzu with
          g := g, off := matchOffset g x, adj := matchBonus (matchOffset g x), prevOff := matchOffset g x
          len := lengthBase len + matchBonus (matchOffset g x) })) := rfl

theorem exec_matchReuse (len : LengthCode) (s : State) :
    exec (.matchReuse len) s =
      .next (s.setLzu (lzuMatch (blankBytes s .out)
        { s.lzu with g := 2, off := s.lzu.prevOff, adj := 0, len := lengthBase len })) := rfl

/-- Settles O15: each form is CHECK on the OFF and LEN it has computed, and OFF of a MATCH_NEW is negative. -/
theorem matchChecks : Obligations.MatchChecks := by
  constructor
  · intro g x len s hg
    constructor
    · intro hlow
      rw [exec_matchNew, lzuMatch_badOffset _ (.inr hlow)]
      rfl
    · intro hlow hlen
      rw [exec_matchNew, lzuMatch_lengthOverrun _ (matchOffset_neg x hg) hlow hlen]
      rfl
  · intro len s
    constructor
    · intro hbad
      rw [exec_matchReuse, lzuMatch_badOffset _ hbad]
      rfl
    · intro hneg hlow hlen
      rw [exec_matchReuse, lzuMatch_lengthOverrun _ hneg hlow hlen]
      rfl

/-! ## COPY (R120) -/

/-- Each byte copied is the byte `k` before it, so going back whole periods ends in the `k` bytes before W. -/
theorem lzuCopy_period (blank : Nat → Byte) (u : Lzu) {k n : Nat} (hk : 1 ≤ k) (hkw : k ≤ u.w) (i : Nat)
    (hi : i < n) :
    byteAt blank (lzuCopy blank (-(k : Int)) n u).out (u.w + i) = byteAt blank u.out (u.w - k + i % k) := by
  induction i using Nat.strong_induction_on with
  | _ i ih =>
    have hsource : (((u.w + i : Nat) : Int) + -(k : Int)).toNat = u.w + i - k := by omega
    rw [lzuCopy_copied blank _ n u (by omega) (by omega) i hi, hsource]
    rcases Nat.lt_or_ge i k with hik | hik
    · rw [lzuCopy_outside blank _ n u _ (.inl (by omega)), Nat.mod_eq_of_lt hik]
      congr 1
      omega
    · rw [Nat.add_sub_assoc hik, ih (i - k) (by omega) (by omega), ← Nat.mod_eq_sub_mod hik]

/-- Settles O16, by strong induction on the place of the copied byte. -/
theorem copyRepeatsPeriod : Obligations.CopyRepeatsPeriod := fun blank u _ n hk hkw =>
  ⟨lzuCopy_eq blank _ n u, lzuCopy_period blank u hk hkw, lzuCopy_outside blank _ n u⟩

/-! ## A unit run alone -/

theorem runUnit_of_not_busy {u : UnitId} {s : State} (h : (bankState s u).state ≠ .busy) (n : Nat) :
    runUnit u n s = s := by
  cases n with
  | zero => rfl
  | succ n => exact if_neg h

theorem runUnit_succ_of_busy {u : UnitId} {s t : State} (h : (bankState s u).state = .busy)
    (hstep : stepUnit u s = .next t) (n : Nat) : runUnit u (n + 1) s = runUnit u n t := by
  simp only [runUnit, if_pos h, hstep]

/-! ## The end of a token and of an operation (R121, R122) -/

@[simp] theorem doneIf_state (full : Prop) [Decidable full] (b : Bank) :
    (doneIf full b).state = if full then .done else b.state := by
  unfold doneIf
  split <;> rfl

@[simp] theorem doneIf_ip (full : Prop) [Decidable full] (b : Bank) : (doneIf full b).ip = b.ip := by
  unfold doneIf
  split <;> rfl

@[simp] theorem doneIf_len (full : Prop) [Decidable full] (b : Bank) : (doneIf full b).len = b.len := by
  unfold doneIf
  split <;> rfl

theorem lzuFinish_eq (u : Lzu) : lzuFinish u = { u with bank := doneIf (u.n ≤ u.w) u.bank } := by
  unfold lzuFinish doneIf
  split <;> rfl

/-- What a token that begins at W = `w` may make of a BUSY unit with N = `n`: FAIL, or a longer output that still fits,
the operation ended if it is full. -/
def TokenEnds (w n : Nat) (v : Lzu) : Prop :=
  v.bank.state = .fail ∨
    (w < v.w ∧ v.w ≤ n ∧ v.n = n ∧ v.bank.state = if n ≤ v.w then .done else .busy)

theorem TokenEnds.of_lzuFinish {w n : Nat} {v : Lzu} (hn : v.n = n) (hbusy : v.bank.state = .busy) (hgrows : w < v.w)
    (hfits : v.w ≤ n) : TokenEnds w n (lzuFinish v) := by
  rw [lzuFinish_eq]
  exact .inr ⟨hgrows, hfits, hn, by rw [doneIf_state, hbusy, hn]⟩

theorem TokenEnds.of_lzuMatch (blank : Nat → Byte) {w n : Nat} {u : Lzu} (hw : u.w = w) (hn : u.n = n)
    (hbusy : u.bank.state = .busy) (hlen : 1 ≤ u.len) : TokenEnds w n (lzuMatch blank u) := by
  rcases lzuMatch_cases blank u with ⟨-, heq⟩ | ⟨-, -, -, heq⟩ | ⟨-, -, hfits, heq⟩
  · exact .inl (by rw [heq]; rfl)
  · exact .inl (by rw [heq]; rfl)
  · rw [heq, lzuCopy_eq]
    exact .of_lzuFinish hn hbusy (by dsimp only; omega) (by dsimp only; omega)

/-- The length bits 00 stand for an extension, so no length field gives 0 (R74, R75). -/
theorem lengthBase_pos_of_decode {inp : Input} {c c' : Cursor} {len : LengthCode}
    (h : decodeLengthCode inp c = .ok (len, c')) : 1 ≤ lengthBase len := by
  unfold decodeLengthCode at h
  split at h
  · cases h
  · rename_i l1 c1 _
    split at h
    · cases h
    · rename_i l0 c2 _
      split at h
      · rename_i hbits
        cases h
        revert hbits
        cases l1 <;> cases l0 <;> decide
      · split at h
        · cases h
        · cases h
          exact Nat.le_add_left 1 (_ + 1)

theorem decodeMatch_lengthBase_pos {inp : Input} {c c' : Cursor} {i : Instr} (h : decodeMatch inp c = .ok (i, c')) :
    ∃ len, 1 ≤ lengthBase len ∧ (i = .matchReuse len ∨ ∃ g x, i = .matchNew g x len) := by
  unfold decodeMatch at h
  split at h
  · cases h
  · split at h
    · split at h
      · cases h
      · rename_i hlen
        cases h
        exact ⟨_, lengthBase_pos_of_decode hlen, .inl rfl⟩
    · split at h
      · cases h
      · split at h
        · cases h
        · rename_i hlen
          cases h
          exact ⟨_, lengthBase_pos_of_decode hlen, .inr ⟨_, _, rfl⟩⟩

theorem exec_seed (b : Byte) (s : State) :
    exec (.seed b) s = .next (s.setLzu (lzuFinish { s.lzu with out := storeSet s.lzu.out 0 b, w := 1 })) := rfl

theorem exec_lit (b : Byte) (s : State) : exec (.lit b) s = .next (s.setLzu (lzuFinish (lzuPut s.lzu b))) := rfl

theorem exec_match_tokenEnds {i : Instr} {len : LengthCode} (hlen : 1 ≤ lengthBase len)
    (hi : i = .matchReuse len ∨ ∃ g x, i = .matchNew g x len) {s : State} (hbusy : s.lzu.bank.state = .busy) :
    ∃ t, exec i s = .next t ∧ TokenEnds s.lzu.w s.lzu.n t.lzu := by
  rcases hi with rfl | ⟨g, x, rfl⟩
  · exact ⟨_, exec_matchReuse len s, .of_lzuMatch _ rfl rfl hbusy hlen⟩
  · exact ⟨_, exec_matchNew g x len s, .of_lzuMatch _ rfl rfl hbusy (Nat.le_add_right_of_le hlen)⟩

/-- A token in the format the LZU reads next, run by a BUSY unit with room for it. -/
theorem exec_lzu_tokenEnds {inp : Input} {c c' : Cursor} {i : Instr} {s : State}
    (hdec : decodeStream (lzuFormat s.lzu) inp c = .ok (i, c')) (hbusy : s.lzu.bank.state = .busy)
    (hroom : s.lzu.w < s.lzu.n) : ∃ t, exec i s = .next t ∧ TokenEnds s.lzu.w s.lzu.n t.lzu := by
  unfold lzuFormat at hdec
  split at hdec
  · rename_i hw
    obtain ⟨b, rfl⟩ := decodeSeed_instr hdec
    exact ⟨_, exec_seed b s, .of_lzuFinish rfl hbusy (by simp [hw]) (Nat.one_le_of_lt hroom)⟩
  · change decodeLz inp c = _ at hdec
    unfold decodeLz at hdec
    split at hdec
    · cases hdec
    · obtain ⟨len, hlen, hi⟩ := decodeMatch_lengthBase_pos hdec
      exact exec_match_tokenEnds hlen hi hbusy
    · split at hdec
      · cases hdec
      · cases hdec
        exact ⟨_, exec_lit _ s, .of_lzuFinish rfl hbusy (Nat.lt_succ_self _) hroom⟩

theorem stepLzu_tokenEnds {s : State} (hbusy : s.lzu.bank.state = .busy) (hroom : s.lzu.w < s.lzu.n) :
    ∃ t, stepLzu s = .next t ∧ TokenEnds s.lzu.w s.lzu.n t.lzu := by
  rcases stepLzu_cases s with ⟨hfull, -⟩ | ⟨-, e, -, hstep⟩ | ⟨-, i, c, hdec, hstep⟩
  · omega
  · exact ⟨_, hstep, .inl rfl⟩
  · obtain ⟨t, hexec, hends⟩ := exec_lzu_tokenEnds (s := s.setLzu (lzuMove s.lzu c)) hdec hbusy hroom
    exact ⟨t, hstep.trans hexec, hends⟩

/-- By induction on the steps left: a token that does not end the operation leaves less room (R122, R124). -/
theorem runUnit_lzu_ends {k : Nat} {s : State} (hbusy : s.lzu.bank.state = .busy) (hroom : s.lzu.w < s.lzu.n)
    (hk : s.lzu.n - s.lzu.w ≤ k) :
    ((runUnit .lzu k s).lzu.bank.state = .done ∧ (runUnit .lzu k s).lzu.w = s.lzu.n) ∨
      (runUnit .lzu k s).lzu.bank.state = .fail := by
  induction k generalizing s with
  | zero => omega
  | succ k ih =>
    obtain ⟨t, hstep, hends⟩ := stepLzu_tokenEnds hbusy hroom
    rw [runUnit_succ_of_busy (u := .lzu) hbusy hstep]
    rcases hends with hfail | ⟨hgrows, hfits, hn, hstate⟩
    · rw [runUnit_of_not_busy (by simp [hfail])]
      exact .inr hfail
    · split at hstate
      · rw [runUnit_of_not_busy (by simp [hstate])]
        exact .inl ⟨hstate, by omega⟩
      · rw [← hn]
        exact ih hstate (by omega) (by omega)

/-- Settles O17: a token of a BUSY LZU fails or makes the output longer, never past N. -/
theorem lzuOperationEnds : Obligations.LzuOperationEnds := fun _ ⟨_, hroom, _⟩ hbusy =>
  runUnit_lzu_ends hbusy (hroom hbusy) le_rfl

/-! ## Symbols standing at a cursor (R70, R71) -/

/-- The first control bit stands in bit 7, and 0 behind the last one (R71). -/
theorem controlByte_getLsbD (bs : List Bool) {i : Nat} (h : i < 8) :
    (controlByte bs).getLsbD (7 - i) = bs.getD i false := by
  have hget : ((bs ++ List.replicate 8 false).take 8).getD i false = bs.getD i false := by
    simp only [List.getD_eq_getElem?_getD, List.getElem?_take, List.getElem?_append, h, if_true]
    split
    · rfl
    · rename_i hlen
      rw [List.getElem?_eq_none (by omega : bs.length ≤ i), List.getElem?_replicate]
      split <;> rfl
  have hlength : ((bs ++ List.replicate 8 false).take 8).length = 8 := by simp
  rw [← hget, controlByte]
  clear hget
  generalize (bs ++ List.replicate 8 false).take 8 = l at hlength ⊢
  match l, hlength with
  | [b0, b1, b2, b3, b4, b5, b6, b7], _ =>
    revert b0 b1 b2 b3 b4 b5 b6 b7 i
    decide

/-- DATA holds the next `left` of the control bits `bs`, the sentinel below them; with none left the next ReadBit
fetches. Control bits past the end of `bs` are the 0 padding of a control byte. -/
def PendingBits (left : Nat) (bs : List Bool) (data : Byte) : Prop :=
  match left with
  | 0 => data <<< 1 = 0
  | m + 1 => ∃ b j, j + m = 6 ∧ data = sentinelData b j ∧ ∀ i, i ≤ m → b.getLsbD (m - i) = bs.getD i false

/-- The symbols `syms` stand at the cursor, the last `left` bits of a control byte undelivered, and end the input. -/
structure SymbolsAt (inp : Input) (left : Nat) (syms : List Sym) (c : Cursor) : Prop where
  pending : PendingBits left (controlBits syms) c.data
  bytes : ∀ i (h : i < (pack left syms).length), inp.get (c.ip + i) = (pack left syms)[i]
  len : inp.len = c.ip + (pack left syms).length

/-- A data byte at the cursor: the control bits stay as they are (R70). -/
theorem SymbolsAt.fetch_byte {inp : Input} {left : Nat} {b : Byte} {syms : List Sym} {c : Cursor}
    (h : SymbolsAt inp left (.byte b :: syms) c) :
    ∃ c', fetch inp c = .ok (b, c') ∧ SymbolsAt inp left syms c' := by
  obtain ⟨hpending, hbytes, hlen⟩ := h
  have hpack : pack left (.byte b :: syms) = b :: pack left syms := by cases left <;> rfl
  simp only [hpack, List.length_cons] at hbytes hlen
  have hb : inp.get c.ip = b := hbytes 0 (Nat.succ_pos _)
  refine ⟨{ c with ip := c.ip + 1 }, ?_, hpending, fun i hi => ?_, ?_⟩
  · rw [← hb, fetch, if_pos (by omega)]
  · rw [Nat.add_assoc, Nat.add_comm 1 i]
    exact hbytes (i + 1) (Nat.succ_lt_succ hi)
  · rw [hlen, Nat.add_assoc, Nat.add_comm 1]

/-- Behind a delivered bit the sentinel has moved up by one. -/
theorem PendingBits.shift {m : Nat} {d : Bool} {bs : List Bool} {data : Byte}
    (h : PendingBits (m + 1) (d :: bs) data) :
    data <<< 1 ≠ 0 ∧ data.getLsbD 7 = d ∧ PendingBits m bs (data <<< 1) := by
  obtain ⟨b, j, hj, rfl, hbits⟩ := h
  rw [sentinelData_shift]
  refine ⟨sentinelData_ne_zero b (by omega), ?_, ?_⟩
  · rw [sentinelData_top b (by omega), ← hj, Nat.add_sub_cancel_left]
    exact hbits 0 (Nat.zero_le _)
  · cases m with
    | zero =>
      obtain rfl : j = 6 := by omega
      clear hbits
      change sentinelData b 7 <<< 1 = 0
      revert b
      decide
    | succ m =>
      refine ⟨b, j + 1, by omega, rfl, fun i hi => ?_⟩
      have hbit := hbits (i + 1) (by omega)
      rwa [Nat.add_sub_add_right] at hbit

/-- Behind the fetch of a control byte, its first bit delivered, the other seven are pending. -/
theorem pendingBits_refill (d : Bool) (bs : List Bool) : PendingBits 7 bs (refill (controlByte (d :: bs))).2 := by
  refine ⟨controlByte (d :: bs), 0, rfl, refill_snd _, fun i hi => ?_⟩
  have hbit := controlByte_getLsbD (d :: bs) (i := i + 1) (Nat.succ_lt_succ (Nat.lt_succ_of_le hi))
  rwa [Nat.add_sub_add_right 6 1 i] at hbit

/-- A control bit at the cursor: the next of DATA, or the first of a control byte that stands there (R70, R71). -/
theorem SymbolsAt.readBit_bit {inp : Input} {left : Nat} {d : Bool} {syms : List Sym} {c : Cursor}
    (h : SymbolsAt inp left (.bit d :: syms) c) :
    ∃ left' c', readBit inp c = .ok (d, c') ∧ SymbolsAt inp left' syms c' := by
  cases left with
  | zero =>
    obtain ⟨hpending, hbytes, hlen⟩ := h
    simp only [pack, List.length_cons] at hbytes hlen
    have hb : inp.get c.ip = controlByte (d :: controlBits syms) := hbytes 0 (Nat.succ_pos _)
    have hd : (controlByte (d :: controlBits syms)).getLsbD 7 = d := controlByte_getLsbD _ (i := 0) (by decide)
    rw [readBit_of_shift_eq_zero hpending (by omega), hb, hd]
    refine ⟨7, _, rfl, pendingBits_refill d _, fun i hi => ?_, ?_⟩
    · dsimp only
      rw [Nat.add_assoc, Nat.add_comm 1 i]
      exact hbytes (i + 1) (Nat.succ_lt_succ hi)
    · dsimp only
      omega
  | succ m =>
    obtain ⟨hpending, hbytes, hlen⟩ := h
    obtain ⟨hne, hd, hshifted⟩ := hpending.shift
    rw [readBit_of_shift_ne_zero hne, hd]
    exact ⟨m, _, rfl, hshifted, hbytes, hlen⟩

/-! ## A stream of literals (R123) -/

/-- The symbols of literals: control bits 0, each with its byte (R74). -/
abbrev literalSyms (bs : List Byte) : List Sym := bs.flatMap fun x => [.bit false, .byte x]

theorem SymbolsAt.decodeLz_literal {inp : Input} {left : Nat} {x : Byte} {xs : List Byte} {c : Cursor}
    (h : SymbolsAt inp left (literalSyms (x :: xs)) c) :
    ∃ left' c', decodeLz inp c = .ok (.lit x, c') ∧ SymbolsAt inp left' (literalSyms xs) c' := by
  obtain ⟨left', c1, hbit, h1⟩ := SymbolsAt.readBit_bit (syms := .byte x :: literalSyms xs) h
  obtain ⟨c2, hbyte, h2⟩ := h1.fetch_byte
  exact ⟨left', c2, by simp only [decodeLz, hbit, hbyte], h2⟩

theorem lzuInput_setLzu {s : State} {u : Lzu} (hlen : u.bank.len = s.lzu.bank.len) (hinput : u.input = s.lzu.input) :
    lzuInput (s.setLzu u) = lzuInput s := by
  have hget : (s.setLzu u).byte .inLzu = s.byte .inLzu := by
    funext a
    change byteAt (blankBytes s .inLzu) u.input a = byteAt (blankBytes s .inLzu) s.lzu.input a
    rw [hinput]
  rw [lzuInput, hget, setLzu_lzu, hlen]
  rfl

theorem stepLzu_of_decode {s : State} {i : Instr} {c : Cursor} (hroom : s.lzu.w < s.lzu.n)
    (hdec : decodeStream (lzuFormat s.lzu) (lzuInput s) (lzuCursor s.lzu) = .ok (i, c)) :
    stepLzu s = exec i (s.setLzu (lzuMove s.lzu c)) := by
  simp only [stepLzu, if_neg (Nat.not_le.mpr hroom), hdec]

/-- An LZU behind its seed that has exactly the literals `bs` ahead and room for them, DONE if there are none. -/
structure LiteralsAhead (bs : List Byte) (s : State) : Prop where
  started : 0 < s.lzu.w
  room : s.lzu.n = s.lzu.w + bs.length
  state : s.lzu.bank.state = if bs = [] then .done else .busy
  symbols : ∃ left, SymbolsAt (lzuInput s) left (literalSyms bs) (lzuCursor s.lzu)

/-- A token that takes the cursor of a BUSY LZU to `c`, the literals `bs` behind it, and leaves room for them. -/
theorem LiteralsAhead.of_lzuFinish {bs : List Byte} {left : Nat} {s : State} {c : Cursor} {u : Lzu}
    (hbusy : s.lzu.bank.state = .busy) (hbank : u.bank = { s.lzu.bank with ip := c.ip })
    (hcbd : u.cbd = { data := c.data, carry := c.carry }) (hinput : u.input = s.lzu.input) (hstarted : 0 < u.w)
    (hroom : u.n = u.w + bs.length) (hsymbols : SymbolsAt (lzuInput s) left (literalSyms bs) c) :
    LiteralsAhead bs (s.setLzu (lzuFinish u)) := by
  rw [lzuFinish_eq]
  refine ⟨hstarted, hroom, ?_, left, ?_⟩
  · have hfull : u.n ≤ u.w ↔ bs = [] := by
      rw [← List.length_eq_zero_iff]
      omega
    simp only [setLzu_lzu, doneIf_state, hfull, hbank, hbusy]
  · have hinp : lzuInput (s.setLzu { u with bank := doneIf (u.n ≤ u.w) u.bank }) = lzuInput s :=
      lzuInput_setLzu (by rw [doneIf_len, hbank]) hinput
    have hcursor : lzuCursor { u with bank := doneIf (u.n ≤ u.w) u.bank } = c := by
      simp only [lzuCursor, doneIf_ip, hbank, hcbd]
    rw [hinp, setLzu_lzu, hcursor]
    exact hsymbols

theorem LiteralsAhead.step {x : Byte} {xs : List Byte} {s : State} (h : LiteralsAhead (x :: xs) s) :
    ∃ t, stepLzu s = .next t ∧ LiteralsAhead xs t ∧ t.lzu.w = s.lzu.w + 1 ∧
      ∀ a, t.byte .out a = if a = s.lzu.w then x else s.byte .out a := by
  obtain ⟨hstarted, hroom, hbusy, left, hsymbols⟩ := h
  obtain ⟨left', c, hdec, hrest⟩ := hsymbols.decodeLz_literal
  rw [List.length_cons] at hroom
  have hformat : lzuFormat s.lzu = .lz := if_neg (Nat.ne_of_gt hstarted)
  have hstep : stepLzu s = exec (.lit x) (s.setLzu (lzuMove s.lzu c)) :=
    stepLzu_of_decode (by omega) (by rw [hformat]; exact hdec)
  refine ⟨_, hstep, .of_lzuFinish hbusy rfl rfl rfl (Nat.succ_pos _) ?_ hrest, ?_, fun a => ?_⟩
  · simp only [setLzu_lzu, lzuPut_n, lzuPut_w, lzuMove_n, lzuMove_w]
    omega
  · rw [lzuFinish_eq]
    rfl
  · rw [lzuFinish_eq]
    exact byteAt_storeSet _ _ _ _ _

/-- The seed of a stream of literals. -/
theorem seed_literalsAhead {b : Byte} {bs : List Byte} {s : State} (hbusy : s.lzu.bank.state = .busy)
    (hw : s.lzu.w = 0) (hn : s.lzu.n = bs.length + 1)
    (hsymbols : SymbolsAt (lzuInput s) 0 (.byte b :: literalSyms bs) (lzuCursor s.lzu)) :
    ∃ t, stepLzu s = .next t ∧ LiteralsAhead bs t ∧ t.lzu.w = 1 ∧ t.byte .out 0 = b := by
  obtain ⟨c, hbyte, hrest⟩ := hsymbols.fetch_byte
  have hformat : lzuFormat s.lzu = .seed := if_pos hw
  have hstep : stepLzu s = exec (.seed b) (s.setLzu (lzuMove s.lzu c)) :=
    stepLzu_of_decode (by omega) (by simp only [hformat, decodeStream, decodeSeed, hbyte])
  refine ⟨_, hstep, .of_lzuFinish hbusy rfl rfl rfl Nat.one_pos (hn.trans (Nat.add_comm _ _)) hrest, ?_, ?_⟩
  · rw [lzuFinish_eq]
    rfl
  · rw [lzuFinish_eq]
    exact (byteAt_storeSet _ _ _ _ _).trans (if_pos rfl)

/-- Run alone, the unit writes the literals ahead one behind another and ends. -/
theorem LiteralsAhead.run {bs : List Byte} {s : State} (h : LiteralsAhead bs s) :
    (runUnit .lzu bs.length s).lzu.bank.state = .done ∧
      (∀ a, a < s.lzu.w → (runUnit .lzu bs.length s).byte .out a = s.byte .out a) ∧
      ∀ i (hi : i < bs.length), (runUnit .lzu bs.length s).byte .out (s.lzu.w + i) = bs[i] := by
  induction bs generalizing s with
  | nil => exact ⟨h.state, fun _ _ => rfl, fun _ hi => absurd hi (Nat.not_lt_zero _)⟩
  | cons x xs ih =>
    obtain ⟨t, hstep, ht, hw, hout⟩ := h.step
    obtain ⟨hdone, hbelow, hbytes⟩ := ih ht
    have hrun : runUnit .lzu (x :: xs).length s = runUnit .lzu xs.length t :=
      runUnit_succ_of_busy (u := .lzu) h.state hstep _
    rw [hrun]
    refine ⟨hdone, fun a ha => ?_, fun i hi => ?_⟩
    · rw [hbelow a (by omega), hout, if_neg (Nat.ne_of_lt ha)]
    · cases i with
      | zero => exact (hbelow s.lzu.w (by omega)).trans ((hout _).trans (if_pos rfl))
      | succ i =>
        have hbyte := hbytes i (Nat.lt_of_succ_lt_succ hi)
        rw [hw, Nat.add_assoc, Nat.add_comm 1 i] at hbyte
        exact hbyte

/-! ## A stream that stands in IN -/

theorem storeGet_storeOfBytes (bytes : List Byte) (a i : Nat) :
    storeGet (storeOfBytes a bytes) (a + i) = bytes[i]? := by
  induction bytes generalizing a i with
  | nil => rfl
  | cons b t ih =>
    cases i with
    | zero => exact if_pos rfl
    | succ i =>
      rw [storeOfBytes, storeGet, if_neg (by omega), Nat.add_comm i 1, ← Nat.add_assoc, ih, Nat.add_comm 1 i]
      rfl

theorem byteAt_storeOfBytes (blank : Nat → Byte) {bytes : List Byte} {i : Nat} (h : i < bytes.length) :
    byteAt blank (storeOfBytes 0 bytes) i = bytes[i] := by
  have hget := storeGet_storeOfBytes bytes 0 i
  rw [Nat.zero_add, List.getElem?_eq_getElem h] at hget
  rw [byteAt, hget]
  rfl

/-- An LZU at the start of an input that holds the bytes of a stream of symbols (R105). -/
theorem symbolsAt_lzu_start {syms : List Sym} {s : State} (hcbd : s.lzu.cbd = cbdStart) (hip : s.lzu.bank.ip = 0)
    (hlen : s.lzu.bank.len = (pack 0 syms).length) (hinput : s.lzu.input = storeOfBytes 0 (pack 0 syms)) :
    SymbolsAt (lzuInput s) 0 syms (lzuCursor s.lzu) := by
  have hcursor : lzuCursor s.lzu = Cursor.fresh := by simp only [lzuCursor, hip, hcbd]; rfl
  rw [hcursor]
  refine ⟨rfl, fun i hi => ?_, hlen.trans (Nat.zero_add _).symm⟩
  change byteAt (blankBytes s .inLzu) s.lzu.input (0 + i) = _
  rw [hinput, Nat.zero_add, byteAt_storeOfBytes _ hi]

/-- Settles O18: the seed, then one step a literal, the control bits of the stream all 0. -/
theorem literalStreamDecodes : Obligations.LiteralStreamDecodes := by
  intro b bs s bytes hbusy hw hn hcbd hip hlen hinput
  obtain ⟨t, hstep, ht, htw, hseed⟩ := seed_literalsAhead hbusy hw hn (symbolsAt_lzu_start hcbd hip hlen hinput)
  obtain ⟨hdone, hbelow, hbytes⟩ := ht.run
  rw [runUnit_succ_of_busy (u := .lzu) hbusy hstep]
  refine ⟨hdone, fun i hi => ?_⟩
  cases i with
  | zero => exact (hbelow 0 (by omega)).trans hseed
  | succ i =>
    have hbyte := hbytes i (Nat.lt_of_succ_lt_succ hi)
    rw [htw, Nat.add_comm 1 i] at hbyte
    exact hbyte

end Sys2Proof.LzTokens

/-! SUPPORT. The sample codes of spec/42_delta.md: wrap and clamp, the delta of a raw code, the place of its top bit,
what a sample writes, and one sample of either variant; with them, the statements O9, O10, O19 and O20. -/

namespace Sys2Proof.Samples

open Sys2Proof.Machine

/-! ## Wrap and clamp (R11, R141) -/

theorem wrapS_range {n : Nat} (hn : 1 ≤ n) (x : Int) :
    -(2 ^ (n - 1) : Int) ≤ wrapS n x ∧ wrapS n x < (2 ^ (n - 1) : Int) := by
  have hlow : -(((2 ^ n : Nat) : Int) / 2) ≤ wrapS n x := Int.le_bmod (Nat.two_pow_pos n)
  have hhigh : wrapS n x < (((2 ^ n : Nat) : Int) + 1) / 2 := Int.bmod_lt (Nat.two_pow_pos n)
  have hhalf : (2 * 2 ^ (n - 1) : Int) = (2 ^ n : Nat) := by exact_mod_cast mul_pow_sub_one (by omega) 2
  omega

/-- wrapN(x) differs from x by a multiple of 2^N (R11). -/
theorem wrapS_congr (n : Nat) (x : Int) : ∃ k : Int, wrapS n x = x + k * 2 ^ n := by
  have h : wrapS n x + ((2 ^ n : Nat) : Int) * x.bdiv (2 ^ n) = x := Int.bmod_add_bdiv x (2 ^ n)
  refine ⟨-x.bdiv (2 ^ n), ?_⟩
  push_cast at h
  linarith

/-- The shift of d in R141 is the floor of d / 2, and the bounds of the clamp are those of the width. -/
theorem nextPredictor_eq (w : Nat) (value d prevp : Int) :
    nextPredictor w value d prevp =
      min (max (2 * value + d / 2 - prevp) (-(2 ^ (w - 1) : Int))) (2 ^ (w - 1) - 1 : Int) := by
  have hshift : d >>> (1 : Nat) = d / 2 := Int.shiftRight_eq_div_pow d 1
  simp only [nextPredictor, clampInt, hshift, Nat.cast_pow, Nat.cast_ofNat]

/-! ## The delta of a raw code (R80, R139) -/

/-- d in numbers: half of V, complemented where V is even (R139). -/
theorem deltaOf_eq {w : Nat} (v : BitVec w) :
    deltaOf v = if v.toNat % 2 = 1 then (v.toNat / 2 : Int) else -(v.toNat / 2 : Int) - 1 := by
  have hlow : v.getLsbD 0 = decide (v.toNat % 2 = 1) := by
    rw [BitVec.getLsbD, Nat.testBit_zero]
  have hhalf : ((v >>> 1).toNat : Int) = (v.toNat : Int) / 2 := by
    rw [BitVec.toNat_ushiftRight, Nat.shiftRight_eq_div_pow]; rfl
  simp only [deltaOf, hlow, hhalf, decide_eq_true_eq]
  split_ifs <;> omega

theorem deltaOf_eq_iff {w : Nat} (v : BitVec w) (d : Int) :
    deltaOf v = d ↔ (v.toNat : Int) = if 0 ≤ d then 2 * d + 1 else -2 * d - 2 := by
  rw [deltaOf_eq]
  split_ifs <;> omega

theorem deltaOf_range {w : Nat} (hw : 1 ≤ w) (v : BitVec w) :
    -(2 ^ (w - 1) : Int) ≤ deltaOf v ∧ deltaOf v < (2 ^ (w - 1) : Int) := by
  have hv : (v.toNat : Int) < 2 * 2 ^ (w - 1) := by
    exact_mod_cast (mul_pow_sub_one (Nat.ne_zero_of_lt hw) 2).symm ▸ v.isLt
  rw [deltaOf_eq]
  split_ifs <;> omega

/-- Settles O9: V is read off d by the low bit, in any width. -/
theorem deltaHasOneRawCode : Obligations.DeltaHasOneRawCode := by
  intro w hw v d
  obtain ⟨hlow, hhigh⟩ := deltaOf_range (by omega) v
  exact ⟨hlow, hhigh, fun _ _ => deltaOf_eq_iff v d⟩

/-! ## E and the adaptive width (R137, R138) -/

/-- The scan of R137 finds the top bit of a value that has one above place 0 and none above `top`. -/
theorem scanDown_eq_log {v top : Nat} (hlow : 2 ≤ v) (htop : v < 2 ^ (top + 1)) : scanDown v top = Nat.log 2 v := by
  induction top with
  | zero => omega
  | succ i ih =>
    unfold scanDown
    by_cases hi : v < 2 ^ (i + 1)
    · rw [Nat.testBit_lt_two_pow hi, if_neg Bool.false_ne_true, ih hi]
    · have hbit : v.testBit (i + 1) = true :=
        Nat.testBit_of_two_pow_le_and_two_pow_add_one_gt (Nat.le_of_not_lt hi) htop
      rw [if_pos hbit]
      exact ((Nat.log_eq_iff (.inl (Nat.succ_ne_zero i))).mpr ⟨Nat.le_of_not_lt hi, htop⟩).symm

theorem extraLength_of_lt_four {w : Nat} {v : BitVec w} (h : v.toNat < 4) : extraLength w v = 1 := if_pos h

theorem extraLength_eq_log {w : Nat} {v : BitVec w} (h : 4 ≤ v.toNat) : extraLength w v = Nat.log 2 v.toNat := by
  have hv := v.isLt
  have hw : 1 ≤ w := by
    by_contra hzero
    obtain rfl : w = 0 := by omega
    omega
  rw [extraLength, if_neg (Nat.not_lt_of_le h)]
  refine scanDown_eq_log (by omega) ?_
  rwa [shiftOf, Nat.sub_add_cancel hw]

/-- From V = 4 on, E is the place of V's top bit (R137). -/
theorem extraLength_top_bit {w : Nat} {v : BitVec w} (h : 4 ≤ v.toNat) :
    2 ^ extraLength w v ≤ v.toNat ∧ v.toNat < 2 ^ (extraLength w v + 1) := by
  rw [extraLength_eq_log h]
  exact ⟨Nat.pow_log_le_self 2 (by omega), Nat.lt_pow_succ_log_self (by omega) _⟩

theorem extraLength_range {w : Nat} (hw : 2 ≤ w) (v : BitVec w) :
    1 ≤ extraLength w v ∧ extraLength w v ≤ shiftOf w := by
  unfold shiftOf
  by_cases h : v.toNat < 4
  · rw [extraLength_of_lt_four h]
    omega
  · rw [extraLength_eq_log (by omega)]
    have hpos : 0 < Nat.log 2 v.toNat := Nat.log_pos (by omega) (by omega)
    have htop : Nat.log 2 v.toNat < w := Nat.log_lt_of_lt_pow (by omega) v.isLt
    omega

/-- The mean of two widths in a range is in it (R138, R149). -/
theorem nextWidth_range {dh e top : Nat} (hdh : 1 ≤ dh ∧ dh ≤ top) (he : 1 ≤ e ∧ e ≤ top) :
    1 ≤ nextWidth dh e ∧ nextWidth dh e ≤ top := by
  unfold nextWidth
  omega

/-- Settles O10: E is the place of a bit of V, and the new width lies between DH and E. -/
theorem widthStaysInRange : Obligations.WidthStaysInRange := by
  intro w hw v dh
  have he := extraLength_range (by omega) v
  exact ⟨he, fun hlow hhigh => nextWidth_range ⟨hlow, hhigh⟩ he, by decide⟩

/-! ## What a sample writes (R40, R50, R142) -/

theorem setWidth_ofInt_low (x : Int) : (BitVec.ofInt 16 x).setWidth 8 = BitVec.ofInt 8 x := by
  apply BitVec.eq_of_toNat_eq
  simp only [BitVec.toNat_setWidth, BitVec.toNat_ofInt]
  omega

theorem extractLsb'_ofInt_high (x : Int) : (BitVec.ofInt 16 x).extractLsb' 8 8 = BitVec.ofInt 8 (x / 256) := by
  apply BitVec.eq_of_toNat_eq
  simp only [BitVec.extractLsb'_toNat, BitVec.toNat_ofInt, Nat.shiftRight_eq_div_pow]
  omega

/-- The bytes of a sample are those of the integer itself, low byte first in 16 bits (R40, R50). -/
theorem byteAt_putSample_width (blank : Nat → Byte) (w16 : Bool) (m : Store Byte) (j : Nat) (out : Int) (a : Nat) :
    byteAt blank (putSample (widthOf w16) m j out) a =
      if w16 then
        (if a = 2 * j then BitVec.ofInt 8 out
         else if a = 2 * j + 1 then BitVec.ofInt 8 (out / 256) else byteAt blank m a)
      else if a = j then BitVec.ofInt 8 out else byteAt blank m a := by
  rw [byteAt_putSample, setWidth_ofInt_low, extractLsb'_ofInt_high]
  cases w16 with
  | false => rfl
  | true => exact ite_ite_comm (a = 2 * j + 1) (a = 2 * j) _ _ fun hhigh => by omega

/-! ## One sample (R140 to R146) -/

theorem widthOf_pos (w16 : Bool) : 1 ≤ widthOf w16 := by cases w16 <;> decide

theorem exec_plain (w16 : Bool) (code : SampleCode) (s : State) :
    exec (if w16 then .delta16Plain code else .delta8Plain code) s =
      .next (s.setDsu (samplePlain (widthOf w16) code s.dsu)) := by cases w16 <;> rfl

theorem exec_pred (w16 : Bool) (code : SampleCode) (s : State) :
    exec (if w16 then .delta16Pred code else .delta8Pred code) s =
      .next (s.setDsu (samplePred (widthOf w16) code s.dsu)) := by cases w16 <;> rfl

theorem samplePlain_eq (w : Nat) (code : SampleCode) (u : Dsu) :
    samplePlain w code u =
      let v := rawCode w code
      let out := wrapS w (u.prev + deltaOf v)
      dsuFinish (dsuAdvance
        { u with
          v := v.setWidth 16, e := extraLength w v, dh := nextWidth u.dh (extraLength w v), prev := out
          smp := putSample w u.smp (sampleIndex u) out, count := u.count + 1 }) := rfl

theorem samplePred_eq (w : Nat) (code : SampleCode) (u : Dsu) :
    samplePred w code u =
      let v := rawCode w code
      let out := wrapS w (u.next + deltaOf v)
      dsuFinish (dsuAdvance
        { u with
          v := v.setWidth 16, e := extraLength w v, dh := nextWidth u.dh (extraLength w v)
          next := nextPredictor w out (deltaOf v) u.prevp, prevp := out
          smp := putSample w u.smp (sampleIndex u) out, count := u.count + 1 }) := rfl

/-- Settles O19: the sample is the wrapped sum of PREV and d, and each clause is a fact about one operation. -/
theorem plainSampleCompletes : Obligations.PlainSampleCompletes := by
  intro w16 code s w v j
  obtain ⟨hlow, hhigh⟩ := wrapS_range (widthOf_pos w16) (s.dsu.prev + deltaOf v)
  refine ⟨_, extraLength w v, wrapS w (s.dsu.prev + deltaOf v), ?_, extraLength_of_lt_four, extraLength_top_bit,
    hlow, hhigh, wrapS_congr w _, byteAt_putSample_width _ w16 s.dsu.smp j _⟩
  rw [exec_plain, samplePlain_eq]
  rfl

/-- Settles O20: as O19 with NEXT for PREV, and NEXT itself by the clamp. -/
theorem predictiveSampleCompletes : Obligations.PredictiveSampleCompletes := by
  intro w16 code s w v j
  obtain ⟨hlow, hhigh⟩ := wrapS_range (widthOf_pos w16) (s.dsu.next + deltaOf v)
  refine ⟨_, extraLength w v, wrapS w (s.dsu.next + deltaOf v), _, ?_, extraLength_of_lt_four, extraLength_top_bit,
    hlow, hhigh, wrapS_congr w _, nextPredictor_eq w _ _ _, byteAt_putSample_width _ w16 s.dsu.smp j _⟩
  rw [exec_pred, samplePred_eq]
  rfl

end Sys2Proof.Samples

/-! SUPPORT. The events of spec/43_pattern.md: what a command pair makes of the working cell, how an event with its
pairs ends, and one track run to its terminator; with them, the statements O25, O28 to O33 and O35. -/

namespace Sys2Proof.PatternEvents

open Sys2Proof.Machine Sys2Proof.LzTokens

/-! ## A command pair: its class's cell in WCELL, then counted (R165, R166) -/

section
variable (code op : Byte) (tag : Nat) (s : State)

theorem exec_cmdNote : exec (.cmdNote code op) s =
    .next { s with peu := pairDone { s.peu with wcell := noteCell s.peu.dialect op s.peu.wcell } } := rfl

theorem exec_cmdInstr : exec (.cmdInstr code op) s =
    .next { s with peu := pairDone { s.peu with wcell := instrCell op s.peu.wcell } } := rfl

theorem exec_cmdToneporta : exec (.cmdToneporta code op) s =
    .next { s with peu := pairDone { s.peu with wcell := toneportaCell s.peu.dialect op s.peu.wcell } } := rfl

theorem exec_cmdVibrato : exec (.cmdVibrato code op) s =
    .next { s with peu := pairDone { s.peu with wcell := vibratoCell s.peu.dialect op s.peu.wcell } } := rfl

theorem exec_cmdPanning : exec (.cmdPanning code op) s =
    .next { s with peu := pairDone { s.peu with wcell := panningCell s.peu.dialect op s.peu.wcell } } := rfl

theorem exec_cmdVolume : exec (.cmdVolume code op) s =
    .next { s with peu := pairDone { s.peu with wcell := volumeCell s.peu.dialect op s.peu.wcell } } := rfl

theorem exec_cmdPatternbreak : exec (.cmdPatternbreak code op) s =
    .next { s with peu := pairDone { s.peu with wcell := patternbreakCell s.peu.dialect op s.peu.wcell } } := rfl

theorem exec_cmdTempospeed : exec (.cmdTempospeed code op) s =
    .next { s with peu := pairDone { s.peu with wcell := tempospeedCell op s.peu.wcell } } := rfl

theorem exec_cmdVolslide : exec (.cmdVolslide code op) s =
    .next { s with peu := pairDone { s.peu with wcell := volslideCell s.peu.dialect op s.peu.wcell } } := rfl

theorem exec_cmdFixedEff : exec (.cmdFixedEff code tag op) s =
    .next { s with peu := pairDone { s.peu with wcell := fixedEffCell tag op s.peu.wcell } } := rfl

theorem exec_cmdFixedVol : exec (.cmdFixedVol code tag op) s =
    .next { s with peu := pairDone { s.peu with wcell := fixedVolCell tag op s.peu.wcell } } := rfl

theorem exec_cmdUnmapped : exec (.cmdUnmapped code op) s = .next { s with peu := pairDone s.peu } := rfl

end

/-! ## The rules of the classes on the operand as a number (R167 to R175) -/

section
variable (d : Dialect) (op : Byte) (c : Cell)

/-- The two marks of R167, which are tested first, lie above all other operands. -/
theorem ne_noteMarks {op : Byte} (h : op.toNat ≤ 0xFD) : op ≠ 0xFF ∧ op ≠ 0xFE := by
  constructor <;> rintro rfl <;> exact absurd h (by decide)

theorem noteCell_of_lt {op : Byte} (h : op.toNat < 120) :
    noteCell d op c = { c with note := .note ((op.toNat : Int) + Config.noteOrigin d) } := by
  obtain ⟨hoff, hcut⟩ := ne_noteMarks (show op.toNat ≤ 0xFD by omega)
  rw [noteCell, if_neg hoff, if_neg hcut, if_pos h]

theorem noteCell_of_fade {op : Byte} (hlow : 120 ≤ op.toNat) (hhigh : op.toNat ≤ 0xFD) :
    noteCell d op c = { c with note := .fade } := by
  obtain ⟨hoff, hcut⟩ := ne_noteMarks hhigh
  rw [noteCell, if_neg hoff, if_neg hcut, if_neg (Nat.not_lt.mpr hlow)]

theorem low_nibble_eq_zero_iff : op &&& 0x0F = 0 ↔ op.toNat % 16 = 0 := by
  rw [← BitVec.toNat_inj, BitVec.toNat_and]
  exact iff_of_eq (congrArg (· = 0) (Nat.and_two_pow_sub_one_eq_mod op.toNat 4))

/-- R169, with the low nibble as a remainder. -/
theorem toneportaCell_eq : toneportaCell d op c =
    if (d = .xm ∧ op.toNat % 16 = 0) ∨ (d = .it ∧ op ∈ itVolTpSet) then { c with vol := some (.toneporta, op) }
    else { c with eff := some (.toneporta, op) } :=
  if_congr (or_congr_left (and_congr_right fun _ => low_nibble_eq_zero_iff op)) rfl rfl

/-- R171, with the operand 0xFF as a number. -/
theorem panningCell_eq : panningCell d op c =
    if (d = .it ∧ op.toNat = 255) ∨ (op.toNat % 4 = 0 ∧ Config.panVolRange d op = true) then
      { c with vol := some (.panning, op) }
    else { c with eff := some (.panning8, op) } :=
  if_congr (or_congr_left (and_congr_right fun _ => BitVec.toNat_inj.symm)) rfl rfl

/-- Both nibbles at their largest give 165, so the row fits its byte (R173). -/
theorem breakRow_toNat {d : Dialect} (h : d ≠ .it) : (breakRow d op).toNat = op.toNat / 16 * 10 + op.toNat % 16 := by
  have hop := op.isLt
  rw [breakRow, if_neg h, BitVec.toNat_ofNat]
  exact Nat.mod_eq_of_lt (by omega)

theorem slideEffect_toneporta {d : Dialect} (h : d = .it ∨ d = .s3m) (x : Byte) :
    slideEffect d (some (.toneporta, x)) = .tonePortaVol := if_pos h

theorem slideEffect_vibrato {d : Dialect} (h : d = .it ∨ d = .s3m) (x : Byte) :
    slideEffect d (some (.vibrato, x)) = .vibratoVol := if_pos h

/-- XM and MOD promote nothing (R175). -/
theorem slideEffect_of_xm_or_mod {d : Dialect} (h : d = .xm ∨ d = .mod) (held : Option (EffCmd × Byte)) :
    slideEffect d held = .volslide := by
  rcases h with rfl | rfl <;> rfl

/-- Without a tone portamento or vibrato to promote, the slide is plain on every dialect (R175). -/
theorem slideEffect_eq_volslide {d : Dialect} {held : Option (EffCmd × Byte)}
    (h : ∀ x, held ≠ some (.toneporta, x) ∧ held ≠ some (.vibrato, x)) : slideEffect d held = .volslide := by
  unfold slideEffect
  split
  · split
    · exact absurd rfl (h _).1
    · exact absurd rfl (h _).2
    · rfl
  · rfl

end

/-! ## The pair commands (O28 to O33) -/

/-- Settles O28: the four ranges of the operand, each by the branch of R167 that takes it. -/
theorem noteCompletes : Obligations.NoteCompletes := by
  intro code op s
  refine ⟨(noteCell s.peu.dialect op s.peu.wcell).note, exec_cmdNote code op s, ?_, ?_, ?_, ?_⟩
  · rintro rfl
    rfl
  · rintro rfl
    rfl
  · intro h
    rw [noteCell_of_lt _ _ h]
  · intro hlow hhigh
    rw [noteCell_of_fade _ _ hlow hhigh]

/-- Settles O29: these classes have no operand rule. -/
theorem fixedCommandsComplete : Obligations.FixedCommandsComplete := fun code op tag s =>
  ⟨exec_cmdInstr code op s, exec_cmdFixedEff code op tag s, exec_cmdFixedVol code op tag s, exec_cmdUnmapped code op s⟩

/-- Settles O30: each column by the condition of its rule on the operand as a number. -/
theorem portaAndPanningComplete : Obligations.PortaAndPanningComplete := by
  intro code op s d
  refine ⟨fun h => ?_, fun h => ?_, fun h => ?_, fun h => ?_⟩
  · rw [exec_cmdToneporta, toneportaCell_eq, if_pos h]
  · rw [exec_cmdToneporta, toneportaCell_eq, if_neg h]
  · rw [exec_cmdPanning, panningCell_eq, if_pos h]
  · rw [exec_cmdPanning, panningCell_eq, if_neg h]

/-- Settles O31: OLDEST_DIALECT is MOD (R161). -/
theorem vibratoAndVolumeComplete : Obligations.VibratoAndVolumeComplete := by
  intro code op s d
  refine ⟨fun h => ?_, fun h => ?_, fun h => ?_, fun h => ?_⟩
  · have hvol : op.toNat < 10 ∧ d = .it := ⟨Nat.lt_succ_of_le h.1, h.2⟩
    rw [exec_cmdVibrato, vibratoCell, if_pos hvol]
  · have heff : ¬(op.toNat < 10 ∧ d = .it) := not_and_or.mpr (h.imp_left Nat.not_lt.mpr)
    rw [exec_cmdVibrato, vibratoCell, if_neg heff]
  · rw [exec_cmdVolume, volumeCell, oldestDialect, if_pos h]
  · have heff : ¬(op.toNat ≤ 64 ∧ d ≠ .mod) := not_and_or.mpr (h.imp Nat.not_le.mpr not_not.mpr)
    rw [exec_cmdVolume, volumeCell, oldestDialect, if_neg heff]

/-- Settles O32: the break row is R173's, and 0x20 is 32. -/
theorem breakAndTempoComplete : Obligations.BreakAndTempoComplete := by
  intro code op s
  refine ⟨⟨breakRow s.peu.dialect op, exec_cmdPatternbreak code op s, fun h => if_pos h, breakRow_toNat op⟩,
    fun h => ?_, fun h => ?_⟩
  · rw [exec_cmdTempospeed, tempospeedCell, if_pos h]
  · rw [exec_cmdTempospeed, tempospeedCell, if_neg (Nat.not_lt.mpr h)]

/-- Settles O33: the dialect, then the effect the cell holds. -/
theorem volslideCompletes : Obligations.VolslideCompletes := by
  intro code op s
  refine ⟨slideEffect s.peu.dialect s.peu.wcell.eff, exec_cmdVolslide code op s, fun hpromotes => ⟨?_, ?_, ?_⟩, ?_⟩
  · intro x hheld
    rw [hheld, slideEffect_toneporta hpromotes]
  · intro x hheld
    rw [hheld, slideEffect_vibrato hpromotes]
  · exact slideEffect_eq_volslide
  · exact fun hplain => slideEffect_of_xm_or_mod hplain _

/-! ## An event and its pairs (R164, R165) -/

/-- The working cell after `pairs`, in stream order. -/
abbrev pairsCell (d : Dialect) (pairs : List (Byte × Byte)) (c : Cell) : Cell :=
  pairs.foldl (fun c p => applyClass (cmdTable p.1) d p.2 c) c

/-- The end of an event in one record: both outcomes differ only in the bank (R164, R180). -/
theorem endEvent_eq (u : Peu) :
    endEvent u =
      { u with
        cells := putRows u.rows u.wcell u.row (repSpan (u.cb.toNat / 16)) u.cells
        row := u.row + repSpan (u.cb.toNat / 16)
        bank := doneIf (u.rows ≤ u.row + repSpan (u.cb.toNat / 16)) u.bank } := by
  rcases endEvent_cases u with ⟨hfull, heq⟩ | ⟨hroom, heq⟩
  · rw [heq, doneIf, if_pos hfull]
    rfl
  · rw [heq, doneIf, if_neg (Nat.not_le.mpr hroom)]

theorem applyPair_last {u : Peu} (p : Byte × Byte) (h : u.k = 1) :
    applyPair u p = endEvent { u with k := 0, wcell := applyClass (cmdTable p.1) u.dialect p.2 u.wcell } := by
  simp only [applyPair, pairStep, pairDone, h]

theorem applyPair_more {u : Peu} {k : Nat} (p : Byte × Byte) (h : u.k = k + 2) :
    applyPair u p = { u with k := k + 1, wcell := applyClass (cmdTable p.1) u.dialect p.2 u.wcell } := by
  simp only [applyPair, pairStep, pairDone, h]

/-- As many pairs as K counts: all of them reach WCELL before the last one ends the event. -/
theorem foldl_applyPair {p : Byte × Byte} {ps : List (Byte × Byte)} {u : Peu} (h : u.k = ps.length + 1) :
    (p :: ps).foldl applyPair u = endEvent { u with k := 0, wcell := pairsCell u.dialect (p :: ps) u.wcell } := by
  induction ps generalizing p u with
  | nil => exact applyPair_last p h
  | cons q qs ih =>
    rw [List.foldl_cons, applyPair_more p h, ih rfl]
    rfl

/-- EVT, with or without pairs, is the end of an event whose cell the pairs have made. -/
theorem exec_evt (rep : BitVec 4) (pairs : List (Byte × Byte)) (s : State) :
    exec (.evt rep pairs) s =
      .next (s.setPeu (endEvent
        { s.peu with
          cb := BitVec.ofNat 8 (rep.toNat * 16 + pairs.length % 16), k := 0
          wcell := pairsCell s.peu.dialect pairs emptyCell })) := by
  change Host.Outcome.next (s.setPeu (pairs.foldl applyPair (beginEvent rep pairs.length s.peu))) = _
  cases pairs with
  | nil => rfl
  | cons p ps => exact congrArg (fun u => Host.Outcome.next (s.setPeu u)) (foldl_applyPair rfl)

theorem controlByte_eq_append (rep : BitVec 4) (n : Nat) :
    BitVec.ofNat 8 (rep.toNat * 16 + n % 16) = rep ++ BitVec.ofNat 4 n := by
  apply BitVec.eq_of_toNat_eq
  have hrep := rep.isLt
  rw [BitVec.toNat_append, BitVec.toNat_ofNat, BitVec.toNat_ofNat, ← Nat.shiftLeft_add_eq_or_of_lt (by omega),
    Nat.shiftLeft_eq]
  omega

/-- The upper half of an event's control byte is REP (R81, R164). -/
theorem append_toNat_div (rep : BitVec 4) (n : Nat) : (rep ++ BitVec.ofNat 4 n).toNat / 16 = rep.toNat := by
  have hrep := rep.isLt
  rw [← controlByte_eq_append, BitVec.toNat_ofNat]
  omega

/-- Settles O25: the pairs make the cell, the end of the event puts it into its rows. -/
theorem evtCompletes : Obligations.EvtCompletes := by
  intro rep pairs s _ wcell row
  refine ⟨putRows s.peu.rows wcell s.peu.row (rep.toNat + 1) s.peu.cells, ?_, cellAt_putRows _ _ _ _ _ _⟩
  rw [exec_evt, endEvent_eq, controlByte_eq_append]
  simp only [append_toNat_div]
  rfl

/-! ## A track that stands in IN (R81, R162) -/

theorem fetch_peuInput {s : State} {bytes : List Byte} {c : Cursor} (hinput : s.peu.input = storeOfBytes 0 bytes)
    (hlen : s.peu.bank.len = bytes.length) (h : c.ip < bytes.length) :
    fetch (peuInput s) c = .ok (bytes[c.ip], { c with ip := c.ip + 1 }) := by
  have hbyte : (peuInput s).get c.ip = bytes[c.ip] := by
    change byteAt (blankBytes s .inPeu) s.peu.input c.ip = _
    rw [hinput, byteAt_storeOfBytes _ h]
  rw [fetch, hbyte]
  exact if_pos (h.trans_eq hlen.symm)

theorem decodeTrack_of_zero {inp : Input} {c c1 : Cursor} (h : fetch inp c = .ok (0x00, c1)) :
    decodeTrack inp c = .ok (.evtEnd, c1) := by
  rw [decodeTrack, h]
  rfl

/-- An event of one pair, fetched byte by byte (R81). -/
theorem decodeTrack_one_pair {inp : Input} {c c1 c2 c3 : Cursor} {cb code op : Byte} (hcb : cb ≠ 0)
    (hone : cb.toNat % 16 = 1) (hhead : fetch inp c = .ok (cb, c1)) (hcode : fetch inp c1 = .ok (code, c2))
    (hop : fetch inp c2 = .ok (op, c3)) :
    decodeTrack inp c = .ok (.evt (cb.extractLsb' 4 4) [(code, op)], c3) := by
  simp only [decodeTrack, hhead, if_neg hcb, hone, readPairBytes, readPair, hcode, hop]

/-- An event's step: decoded as a track token while a row is left, then run. -/
theorem stepPeu_of_decodeTrack {s : State} {i : Instr} {c : Cursor} (hk : s.peu.k = 0) (hroom : s.peu.row < s.peu.rows)
    (hdec : decodeTrack (peuInput s) (peuCursor s.peu) = .ok (i, c)) :
    stepPeu s = exec i (s.setPeu (peuMove s.peu c)) := by
  have hleft : ¬(s.peu.k = 0 ∧ s.peu.rows ≤ s.peu.row) := fun h => Nat.not_le.mpr hroom h.2
  simp only [stepPeu, if_neg hleft, peuFormat, if_pos hk, decodeStream, hdec]

/-! ## The source's track (R182) -/

/-- The source's track: an event for two rows with the one pair NOTE 60, and the terminator. -/
abbrev sourceTrack : List Byte := [0x11, 0x01, 0x3C, 0x00]

/-- The cell of the source's event. -/
abbrev sourceCell (d : Dialect) : Cell := { emptyCell with note := .note (60 + Config.noteOrigin d) }

/-- 0x01 is NOTE in every table (R83). -/
theorem pairsCell_source (d : Dialect) : pairsCell d [(0x01, 0x3C)] emptyCell = sourceCell d :=
  noteCell_of_lt d emptyCell (by decide)

theorem fetch_sourceTrack {s : State} (hlen : s.peu.bank.len = 4) (hinput : s.peu.input = storeOfBytes 0 sourceTrack)
    (i : Nat) (hi : i < 4) :
    fetch (peuInput s) { ip := i, data := 0, carry := false } =
      .ok (sourceTrack[i], { ip := i + 1, data := 0, carry := false }) := fetch_peuInput hinput hlen hi

/-- The event takes three bytes and writes what there is of rows 0 and 1; the unit is DONE if there is no third. -/
theorem stepPeu_source_event {s : State} (hk : s.peu.k = 0) (hrow : s.peu.row = 0) (hrows : 1 ≤ s.peu.rows)
    (hip : s.peu.bank.ip = 0) (hlen : s.peu.bank.len = 4) (hinput : s.peu.input = storeOfBytes 0 sourceTrack) :
    ∃ t, stepPeu s = .next t ∧ t.peu.bank = doneIf (s.peu.rows ≤ 2) { s.peu.bank with ip := 3 } ∧
      t.peu.k = 0 ∧ t.peu.row = 2 ∧ t.peu.rows = s.peu.rows ∧ t.peu.input = storeOfBytes 0 sourceTrack ∧
      ∀ r, t.cell r = if r < 2 ∧ r < s.peu.rows then sourceCell s.peu.dialect else s.cell r := by
  have hfetch := fetch_sourceTrack hlen hinput
  have hdec : decodeTrack (peuInput s) (peuCursor s.peu) =
      .ok (.evt 1 [(0x01, 0x3C)], { ip := 3, data := 0, carry := false }) := by
    rw [peuCursor, hip]
    exact decodeTrack_one_pair (cb := 0x11) (by decide) (by decide) (hfetch 0 (by decide)) (hfetch 1 (by decide))
      (hfetch 2 (by decide))
  obtain ⟨m, hexec, hcells⟩ := evtCompletes 1 [(0x01, 0x3C)]
    (s.setPeu (peuMove s.peu { ip := 3, data := 0, carry := false })) (by decide)
  refine ⟨_, (stepPeu_of_decodeTrack hk (by omega) hdec).trans hexec, ?_, rfl, ?_, rfl, hinput, fun r => ?_⟩
  · simp only [setPeu_peu, peuMove_bank, peuMove_rows, peuMove_row, hrow]
    rfl
  · simp only [setPeu_peu, peuMove_row, hrow]
    rfl
  · refine (hcells r).trans (if_congr ?_ (pairsCell_source _) rfl)
    simp only [setPeu_peu, peuMove_row, peuMove_rows, hrow, Nat.zero_le, true_and]
    rfl

/-- The terminator is read if a row is left, and ends the operation (R163). -/
theorem stepPeu_source_end {s : State} (hk : s.peu.k = 0) (hroom : s.peu.row < s.peu.rows) (hip : s.peu.bank.ip = 3)
    (hlen : s.peu.bank.len = 4) (hinput : s.peu.input = storeOfBytes 0 sourceTrack) :
    stepPeu s = .next (s.setPeu
      { s.peu with bank := complete { s.peu.bank with ip := 4 }, cb := 0x00 }) := by
  have hdec : decodeTrack (peuInput s) (peuCursor s.peu) = .ok (.evtEnd, { ip := 4, data := 0, carry := false }) := by
    rw [peuCursor, hip]
    exact decodeTrack_of_zero (fetch_sourceTrack hlen hinput 3 (by decide))
  exact stepPeu_of_decodeTrack hk hroom hdec

/-- Settles O35: the event, then the terminator unless the event has filled the column. -/
theorem sourceTrackExample : Obligations.SourceTrackExample := by
  intro s hbusy hk hrow hrows hip hlen hinput hempty
  obtain ⟨t, hstep, htbank, htk, htrow, htrows, htinput, htcell⟩ :=
    stepPeu_source_event hk hrow hrows hip hlen hinput
  have hcell (r : Nat) (hr : r < s.peu.rows) : t.cell r = if r < 2 then sourceCell s.peu.dialect else emptyCell := by
    rw [htcell, hempty r hr]
    exact if_congr (and_iff_left hr) rfl rfl
  have hpos : peuOutPos t.peu = min 2 s.peu.rows := by rw [peuOutPos, htrow, htrows]
  rw [runUnit_succ_of_busy (u := .peu) hbusy hstep]
  by_cases hfull : s.peu.rows ≤ 2
  · rw [doneIf, if_pos hfull] at htbank
    have hdone : t.peu.bank.state = .done := by rw [htbank]
    have hrest : (bankState t .peu).state ≠ .busy := by rw [bankState_peu, hdone]; decide
    rw [runUnit_of_not_busy hrest, if_neg (by omega)]
    exact ⟨hdone, by rw [htbank], hpos, hcell⟩
  · rw [doneIf, if_neg hfull] at htbank
    have hend : stepUnit .peu t = _ :=
      stepPeu_source_end htk (by omega) (by rw [htbank]) (by rw [htbank]; exact hlen) htinput
    rw [runUnit_succ_of_busy (u := .peu) (by rw [bankState_peu, htbank]; exact hbusy) hend, if_pos (by omega)]
    exact ⟨rfl, rfl, hpos, hcell⟩

end Sys2Proof.PatternEvents

/-! SUPPORT. Decode against encode: what each decoder reads from the symbols of a token, wherever they stand, and the
words and host accesses that are instructions; with them, the statements O1 to O4. -/

namespace Sys2Proof.RoundTrip

open Sys2Proof.Machine Sys2Proof.ControlBits Sys2Proof.LzTokens

/-! ## Symbols that a decoder reads -/

/-- Wherever `syms` stand in the input, `dec` reads them as `x` and leaves what stands behind them. -/
def Reads {α : Type} (inp : Input) (syms : List Sym) (dec : Cursor → Except Stop (α × Cursor)) (x : α) : Prop :=
  ∀ left rest c, SymbolsAt inp left (syms ++ rest) c →
    ∃ left' c', dec c = .ok (x, c') ∧ SymbolsAt inp left' rest c'

section
variable {inp : Input}

theorem reads_fetch (b : Byte) : Reads inp [.byte b] (fetch inp) b := by
  intro left rest c h
  obtain ⟨c', hfetch, h'⟩ := h.fetch_byte
  exact ⟨left, c', hfetch, h'⟩

theorem reads_readBit (d : Bool) : Reads inp [.bit d] (readBit inp) d := fun _ _ _ h => h.readBit_bit

theorem reads_readBits (bs : List Bool) : Reads inp (bitSyms bs) (readBits inp bs.length) bs := by
  induction bs with
  | nil => exact fun left _ c h => ⟨left, c, rfl, h⟩
  | cons b bs ih =>
    intro left rest c h
    obtain ⟨_, c1, hbit, h1⟩ := reads_readBit b left (bitSyms bs ++ rest) c h
    obtain ⟨_, c2, hbits, h2⟩ := ih _ _ _ h1
    exact ⟨_, c2, readBits_cons_iff.mpr ⟨c1, hbit, hbits⟩, h2⟩

/-! ## Gamma codes (R72) and the length field (R74) -/

@[simp] theorem bitSyms_append (as bs : List Bool) : bitSyms (as ++ bs) = bitSyms as ++ bitSyms bs := List.map_append

@[simp] theorem length_bitsOf (n v : Nat) : (bitsOf n v).length = n := by
  induction n with
  | zero => rfl
  | succ n ih => simp [bitsOf, ih]

/-- The bits of the number behind `v` are those of `v` itself, followed by the number's (R51). -/
theorem bitsValue_eq (v : Nat) (bs : List Bool) : bitsValue v bs = v * 2 ^ bs.length + bitsValue 0 bs := by
  induction bs using List.reverseRecOn with
  | nil => simp [bitsValue]
  | append_singleton bs b ih =>
    rw [bitsValue_concat, bitsValue_concat, ih, List.length_append, List.length_singleton, pow_succ]
    ring

theorem bitsValue_cons (v : Nat) (b : Bool) (bs : List Bool) :
    bitsValue v (b :: bs) = bitsValue (2 * v + bitNat b) bs := rfl

theorem bitsValue_bitsOf (n v g : Nat) : bitsValue v (bitsOf n g) = v * 2 ^ n + g % 2 ^ n := by
  induction n generalizing v with
  | zero => simp [bitsOf, bitsValue, Nat.mod_one]
  | succ n ih =>
    have hbit : g % 2 ^ (n + 1) = bitNat (g.testBit n) * 2 ^ n + g % 2 ^ n := by
      rw [Nat.mod_pow_succ, Nat.testBit_eq_decide_div_mod_eq, bitNat]
      rcases Nat.mod_two_eq_zero_or_one (g / 2 ^ n) with hb | hb <;> simp [hb, Nat.add_comm]
    rw [bitsOf, bitsValue_cons, ih, hbit, pow_succ]
    ring

/-- A number is its leading 1 and the bits below it. -/
theorem bitsValue_one_bitsOf_log2 {g : Nat} (h : g ≠ 0) : bitsValue 1 (bitsOf (Nat.log2 g) g) = g := by
  have hlow := Nat.log2_self_le h
  have hhigh : g < 2 ^ (Nat.log2 g + 1) := Nat.lt_log2_self
  rw [pow_succ] at hhigh
  rw [bitsValue_bitsOf, Nat.one_mul, Nat.mod_eq_sub_mod hlow, Nat.mod_eq_of_lt (by omega)]
  omega

theorem gammaPairs_cons (d : Bool) {ds : List Bool} (h : ds ≠ []) : gammaPairs (d :: ds) = d :: true :: gammaPairs ds := by
  cases ds with
  | nil => exact absurd rfl h
  | cons => rfl

theorem length_gammaPairs (ds : List Bool) : (gammaPairs ds).length = 2 * ds.length := by
  induction ds with
  | nil => rfl
  | cons d ds ih =>
    by_cases h : ds = []
    · subst h
      rfl
    · rw [gammaPairs_cons d h, List.length_cons, List.length_cons, List.length_cons, ih]
      omega

theorem reads_decodeLength {g : Nat} (h : gammaWf g = true) : Reads inp (bitSyms (encodeGamma g)) (decodeLength inp) g := by
  intro left rest c hsyms
  simp only [gammaWf, Bool.and_eq_true, decide_eq_true_eq] at h
  obtain ⟨left', c', hread, h'⟩ := reads_readBits _ _ _ _ hsyms
  have hlog : Nat.log2 g ≠ 0 := (Nat.le_log2 (by omega)).mpr h.1 |> Nat.ne_of_gt
  have hlt : Nat.log2 g < 32 := (Nat.log2_lt (by omega)).mpr h.2
  rw [encodeGamma, length_gammaPairs] at hread
  refine ⟨left', c', (decodeLength_eq_ok_iff inp c c' g).mpr ⟨_, ?_, ?_, hread, ?_⟩, h'⟩
  · rw [← List.length_pos_iff, length_bitsOf]
    omega
  · rw [length_bitsOf]
    omega
  · exact (bitsValue_one_bitsOf_log2 (by omega)).symm

/-- The two length bits are not both 0 and give back the number they stand for (R74). -/
theorem short_bits {l : BitVec 2} (h : l ≠ 0) :
    (l.getLsbD 1 || l.getLsbD 0) = true ∧
      BitVec.ofNat 2 (2 * bitNat (l.getLsbD 1) + bitNat (l.getLsbD 0)) = l := by
  revert l
  decide

theorem reads_decodeLengthCode {len : LengthCode} (h : lengthCodeWf len = true) :
    Reads inp (bitSyms (encodeLengthCode len)) (decodeLengthCode inp) len := by
  intro left rest c hsyms
  cases len with
  | short l =>
    obtain ⟨hany, hvalue⟩ := short_bits (l := l) (by simpa [lengthCodeWf] using h)
    obtain ⟨_, c1, h1, hs1⟩ := reads_readBit _ _ _ _ hsyms
    obtain ⟨_, c2, h2, hs2⟩ := reads_readBit _ _ _ _ hs1
    exact ⟨_, c2, by simp only [decodeLengthCode, h1, h2, if_pos hany, hvalue], hs2⟩
  | extended g =>
    obtain ⟨_, c1, h1, hs1⟩ := reads_readBit _ _ _ _ hsyms
    obtain ⟨_, c2, h2, hs2⟩ := reads_readBit _ _ _ _ hs1
    obtain ⟨_, c3, h3, hs3⟩ := reads_decodeLength h _ _ _ hs2
    exact ⟨_, c3, by simp [decodeLengthCode, h1, h2, h3], hs3⟩

/-! ## LZ tokens (R73, R74) -/

theorem reads_seed (b : Byte) : Reads inp [.byte b] (decodeSeed inp) (.seed b) := by
  intro left rest c hsyms
  obtain ⟨_, c1, h1, hs1⟩ := reads_fetch b _ _ _ hsyms
  exact ⟨_, c1, by simp only [decodeSeed, h1], hs1⟩

theorem reads_lit (b : Byte) : Reads inp [.bit false, .byte b] (decodeLz inp) (.lit b) := by
  intro left rest c hsyms
  obtain ⟨_, c1, h1, hs1⟩ := reads_readBit _ _ _ _ hsyms
  obtain ⟨_, c2, h2, hs2⟩ := reads_fetch _ _ _ _ hs1
  exact ⟨_, c2, by simp only [decodeLz, h1, h2], hs2⟩

theorem reads_matchNew {g : Nat} {x : Byte} {len : LengthCode} (h : (Instr.matchNew g x len).wf = true) :
    Reads inp (symbolsOf (.matchNew g x len)) (decodeLz inp) (.matchNew g x len) := by
  intro left rest c hsyms
  simp only [Instr.wf, Bool.and_eq_true, decide_eq_true_eq] at h
  obtain ⟨⟨hg, hgamma⟩, hlen⟩ := h
  simp only [symbolsOf, encode, List.cons_append, List.append_assoc] at hsyms
  obtain ⟨_, c1, h1, hs1⟩ := reads_readBit _ _ _ _ hsyms
  obtain ⟨_, c2, h2, hs2⟩ := reads_decodeLength hgamma _ _ _ hs1
  obtain ⟨_, c3, h3, hs3⟩ := reads_fetch _ _ _ _ hs2
  obtain ⟨_, c4, h4, hs4⟩ := reads_decodeLengthCode hlen _ _ _ hs3
  exact ⟨_, c4, by simp only [decodeLz, decodeMatch, h1, h2, if_neg (Nat.not_lt.mpr hg), h3, h4], hs4⟩

theorem reads_matchReuse {len : LengthCode} (h : (Instr.matchReuse len).wf = true) :
    Reads inp (symbolsOf (.matchReuse len)) (decodeLz inp) (.matchReuse len) := by
  intro left rest c hsyms
  simp only [symbolsOf, encode, List.cons_append, List.append_assoc] at hsyms
  obtain ⟨_, c1, h1, hs1⟩ := reads_readBit _ _ _ _ hsyms
  obtain ⟨_, c2, h2, hs2⟩ := reads_decodeLength (g := 2) (by decide) _ _ _ hs1
  obtain ⟨_, c3, h3, hs3⟩ := reads_decodeLengthCode h _ _ _ hs2
  exact ⟨_, c3, by simp only [decodeLz, decodeMatch, h1, h2, if_pos (by decide : 2 < 3), h3], hs3⟩

/-! ## Sample codes (R79) -/

theorem reads_readPairs {vals : List Bool} (hne : vals ≠ []) {rounds : Nat} (h : vals.length ≤ rounds) :
    Reads inp (bitSyms (gammaPairs vals)) (readPairs inp rounds) vals := by
  induction vals generalizing rounds with
  | nil => exact absurd rfl hne
  | cons p ps ih =>
    intro left rest c hsyms
    obtain ⟨rounds, rfl⟩ : ∃ r, rounds = r + 1 := ⟨rounds - 1, by rw [List.length_cons] at h; omega⟩
    by_cases hlast : ps = []
    · subst hlast
      obtain ⟨_, c1, h1, hs1⟩ := reads_readBit _ _ _ _ hsyms
      obtain ⟨_, c2, h2, hs2⟩ := reads_readBit _ _ _ _ hs1
      exact ⟨_, c2, by simp only [readPairs, h1, h2], hs2⟩
    · rw [gammaPairs_cons p hlast] at hsyms
      obtain ⟨_, c1, h1, hs1⟩ := reads_readBit _ _ _ _ hsyms
      obtain ⟨_, c2, h2, hs2⟩ := reads_readBit _ _ _ _ hs1
      obtain ⟨_, c3, h3, hs3⟩ := ih hlast (Nat.le_of_succ_le_succ h) _ _ _ hs2
      exact ⟨_, c3, by simp only [readPairs, h1, h2, h3], hs3⟩

theorem narrowTriples_cons (p : Bool × Bool) {ps : List (Bool × Bool)} (h : ps ≠ []) :
    narrowTriples (p :: ps) = p.1 :: p.2 :: true :: narrowTriples ps := by
  cases ps with
  | nil => exact absurd rfl h
  | cons => rfl

theorem length_narrowTriples (ps : List (Bool × Bool)) : (narrowTriples ps).length = 3 * ps.length := by
  induction ps with
  | nil => rfl
  | cons p ps ih =>
    by_cases h : ps = []
    · subst h
      rfl
    · rw [narrowTriples_cons p h, List.length_cons, List.length_cons, List.length_cons, List.length_cons, ih]
      omega

theorem reads_readTriples {vals : List (Bool × Bool)} (hne : vals ≠ []) {rounds : Nat} (h : vals.length ≤ rounds) :
    Reads inp (bitSyms (narrowTriples vals)) (readTriples inp rounds) vals := by
  induction vals generalizing rounds with
  | nil => exact absurd rfl hne
  | cons p ps ih =>
    intro left rest c hsyms
    obtain ⟨rounds, rfl⟩ : ∃ r, rounds = r + 1 := ⟨rounds - 1, by rw [List.length_cons] at h; omega⟩
    by_cases hlast : ps = []
    · subst hlast
      obtain ⟨_, c1, h1, hs1⟩ := reads_readBit _ _ _ _ hsyms
      obtain ⟨_, c2, h2, hs2⟩ := reads_readBit _ _ _ _ hs1
      obtain ⟨_, c3, h3, hs3⟩ := reads_readBit _ _ _ _ hs2
      exact ⟨_, c3, by simp only [readTriples, h1, h2, h3], hs3⟩
    · rw [narrowTriples_cons p hlast] at hsyms
      obtain ⟨_, c1, h1, hs1⟩ := reads_readBit _ _ _ _ hsyms
      obtain ⟨_, c2, h2, hs2⟩ := reads_readBit _ _ _ _ hs1
      obtain ⟨_, c3, h3, hs3⟩ := reads_readBit _ _ _ _ hs2
      obtain ⟨_, c4, h4, hs4⟩ := ih hlast (Nat.le_of_succ_le_succ h) _ _ _ hs3
      exact ⟨_, c4, by simp only [readTriples, h1, h2, h3, h4], hs4⟩

@[simp] theorem controlBits_bitSyms_append (bs : List Bool) (rest : List Sym) :
    controlBits (bitSyms bs ++ rest) = bs ++ controlBits rest := by
  induction bs with
  | nil => rfl
  | cons b bs ih => exact congrArg (b :: ·) ih

/-- A stream's bytes hold its control bits, eight in each control byte (R70). -/
theorem length_controlBits_le (left : Nat) (syms : List Sym) :
    (controlBits syms).length ≤ left + 8 * (pack left syms).length := by
  fun_induction pack left syms with
  | case1 => simp [controlBits]
  | case2 left b t ih => simp only [controlBits, List.length_cons]; omega
  | case3 b t ih => simp only [controlBits, List.length_cons]; omega
  | case4 left b t ih => simp only [controlBits, List.length_cons]; omega

/-- The bound on the rounds of a sample code's loop is at least the number of control bits ahead (R151). -/
theorem length_controlBits_le_codeRounds {left : Nat} {syms : List Sym} {c : Cursor} (h : SymbolsAt inp left syms c) :
    (controlBits syms).length ≤ codeRounds inp c := by
  obtain ⟨hpending, -, hlen⟩ := h
  have hbits := length_controlBits_le left syms
  have hleft : left ≤ 7 := by
    cases left with
    | zero => exact Nat.zero_le _
    | succ m =>
      obtain ⟨_, j, hj, -⟩ := hpending
      omega
  rw [codeRounds]
  omega

/-- The format of a sample code: narrow exactly for 16 bits and DH < 5 (R135). -/
theorem reads_decodeCode {w16 : Bool} {code : SampleCode}
    (h : (if w16 then sampleCode16Wf code else sampleCode8Wf code) = true) :
    Reads inp (bitSyms (encodeCode code)) (decodeCode w16 (rawBits code).length inp) code := by
  intro left rest c hsyms
  have hrounds := length_controlBits_le_codeRounds hsyms
  rw [controlBits_bitSyms_append, List.length_append] at hrounds
  cases code with
  | general vals raw =>
    have hformat : ¬(w16 = true ∧ raw.length < 5) ∧ vals ≠ [] := by
      cases w16 <;> simp [sampleCode16Wf, sampleCode8Wf] at h ⊢
      · exact h.1.1
      · exact ⟨h.1.2, h.1.1⟩
    rw [encodeCode, List.length_append, length_gammaPairs] at hrounds
    rw [encodeCode, bitSyms_append, List.append_assoc] at hsyms
    have hvals : vals.length ≤ codeRounds inp c := by omega
    obtain ⟨_, c1, h1, hs1⟩ := reads_readPairs hformat.2 hvals _ _ _ hsyms
    obtain ⟨_, c2, h2, hs2⟩ := reads_readBits _ _ _ _ hs1
    exact ⟨_, c2, by simp only [decodeCode, rawBits, if_neg hformat.1, h1, h2], hs2⟩
  | narrow vals raw =>
    have hformat : (w16 = true ∧ raw.length < 5) ∧ vals ≠ [] := by
      cases w16 <;> simp [sampleCode16Wf, sampleCode8Wf] at h ⊢
      exact ⟨h.2, h.1.1⟩
    rw [encodeCode, List.length_append, length_narrowTriples] at hrounds
    rw [encodeCode, bitSyms_append, List.append_assoc] at hsyms
    have hvals : vals.length ≤ codeRounds inp c := by omega
    obtain ⟨_, c1, h1, hs1⟩ := reads_readTriples hformat.2 hvals _ _ _ hsyms
    obtain ⟨_, c2, h2, hs2⟩ := reads_readBits _ _ _ _ hs1
    exact ⟨_, c2, by simp only [decodeCode, rawBits, if_pos hformat.1, h1, h2], hs2⟩

theorem reads_decodeSample {w16 : Bool} (pred : Bool) {code : SampleCode}
    (h : (if w16 then sampleCode16Wf code else sampleCode8Wf code) = true) :
    Reads inp (bitSyms (encodeCode code)) (decodeSample w16 pred (rawBits code).length inp)
      (sampleInstr w16 pred code) := by
  intro left rest c hsyms
  obtain ⟨_, c1, h1, hs1⟩ := reads_decodeCode h _ _ _ hsyms
  exact ⟨_, c1, by simp only [decodeSample, h1], hs1⟩

/-! ## Tracks (R81) -/

theorem reads_readPair (code op : Byte) : Reads inp [.byte code, .byte op] (readPair inp) (code, op) := by
  intro left rest c hsyms
  obtain ⟨_, c1, h1, hs1⟩ := reads_fetch _ _ _ _ hsyms
  obtain ⟨_, c2, h2, hs2⟩ := reads_fetch _ _ _ _ hs1
  exact ⟨_, c2, by simp only [readPair, h1, h2], hs2⟩

theorem reads_readPairBytes (pairs : List (Byte × Byte)) :
    Reads inp (pairs.flatMap fun p => [.byte p.1, .byte p.2]) (readPairBytes inp pairs.length) pairs := by
  induction pairs with
  | nil => exact fun left _ c h => ⟨left, c, rfl, h⟩
  | cons p ps ih =>
    intro left rest c hsyms
    rw [List.flatMap_cons, List.append_assoc] at hsyms
    obtain ⟨_, c1, h1, hs1⟩ := reads_readPair _ _ _ _ _ hsyms
    obtain ⟨_, c2, h2, hs2⟩ := ih _ _ _ hs1
    exact ⟨_, c2, by simp only [readPairBytes, List.length_cons, h1, h2], hs2⟩

theorem reads_evtEnd : Reads inp [.byte 0] (decodeTrack inp) .evtEnd := by
  intro left rest c hsyms
  obtain ⟨_, c1, h1, hs1⟩ := reads_fetch _ _ _ _ hsyms
  exact ⟨_, c1, PatternEvents.decodeTrack_of_zero h1, hs1⟩

/-- The control byte of an event holds REP and the number of pairs, and is not that of an END (R81). -/
theorem eventByte_fields {rep : BitVec 4} {n : Nat} (hn : n ≤ 15) (hne : ¬(rep = 0 ∧ n = 0)) :
    BitVec.ofNat 8 (rep.toNat * 16 + n % 16) ≠ 0 ∧ (BitVec.ofNat 8 (rep.toNat * 16 + n % 16)).toNat % 16 = n ∧
      (BitVec.ofNat 8 (rep.toNat * 16 + n % 16)).extractLsb' 4 4 = rep := by
  have hrep := rep.isLt
  have hnat : (BitVec.ofNat 8 (rep.toNat * 16 + n % 16)).toNat = rep.toNat * 16 + n := by
    rw [BitVec.toNat_ofNat]
    omega
  refine ⟨fun h0 => hne ?_, by omega, BitVec.eq_of_toNat_eq ?_⟩
  · rw [h0] at hnat
    refine ⟨BitVec.eq_of_toNat_eq ?_, ?_⟩ <;> simp at hnat ⊢ <;> omega
  · rw [BitVec.extractLsb'_toNat, hnat, Nat.shiftRight_eq_div_pow]
    omega

theorem reads_evt {rep : BitVec 4} {pairs : List (Byte × Byte)} (h : (Instr.evt rep pairs).wf = true) :
    Reads inp (symbolsOf (.evt rep pairs)) (decodeTrack inp) (.evt rep pairs) := by
  intro left rest c hsyms
  obtain ⟨hlen, hne⟩ : pairs.length ≤ 15 ∧ ¬(rep = 0 ∧ pairs.length = 0) := by
    simpa only [Instr.wf, Bool.and_eq_true, decide_eq_true_eq, Bool.not_eq_true', Bool.and_eq_false_imp, beq_iff_eq,
      List.isEmpty_eq_false_iff, not_and, ne_eq, List.length_eq_zero_iff] using h
  obtain ⟨hcb, hcount, hrep⟩ := eventByte_fields hlen hne
  simp only [symbolsOf, encode, List.cons_append] at hsyms
  obtain ⟨_, c1, h1, hs1⟩ := reads_fetch _ _ _ _ hsyms
  obtain ⟨_, c2, h2, hs2⟩ := reads_readPairBytes pairs _ _ _ hs1
  exact ⟨_, c2, by simp only [decodeTrack, h1, if_neg hcb, hcount, hrep, h2], hs2⟩

/-- A well-formed pair command stands as its code and operand, and is what CMD_TABLE makes of them (R166). -/
theorem pairInstr_of_wf {i : Instr} (hf : formatOf i = some .pair) (hwf : i.wf = true) :
    ∃ code op, symbolsOf i = [.byte code, .byte op] ∧ pairInstr code op = i := by
  cases i with
  | cmdNote code op | cmdVolslide code op | cmdInstr code op | cmdToneporta code op | cmdVibrato code op
  | cmdPanning code op | cmdVolume code op | cmdPatternbreak code op | cmdTempospeed code op | cmdFixedEff code _ op
  | cmdFixedVol code _ op | cmdUnmapped code op =>
    rw [Instr.wf, beq_iff_eq] at hwf
    exact ⟨code, op, rfl, by rw [pairInstr, hwf]⟩
  | _ => cases hf

theorem reads_decodePair {i : Instr} (hf : formatOf i = some .pair) (hwf : i.wf = true) :
    Reads inp (symbolsOf i) (decodePair inp) i := by
  obtain ⟨code, op, hsymbols, rfl⟩ := pairInstr_of_wf hf hwf
  intro left rest c hsyms
  rw [hsymbols] at hsyms
  obtain ⟨_, c1, h1, hs1⟩ := reads_readPair _ _ _ _ _ hsyms
  exact ⟨_, c1, by simp only [decodePair, h1], hs1⟩

/-! ## Every token in its format (R88) -/

/-- A well-formed stream instruction is read from its symbols in its own format. -/
theorem reads_decodeStream {i : Instr} {f : Format} (hwf : i.wf = true) (hf : formatOf i = some f) :
    Reads inp (symbolsOf i) (decodeStream f inp) i := by
  cases i with
  | seed b => cases hf; exact reads_seed b
  | lit b => cases hf; exact reads_lit b
  | matchNew => cases hf; exact reads_matchNew hwf
  | matchReuse => cases hf; exact reads_matchReuse hwf
  | delta8Plain code => cases hf; exact reads_decodeSample (w16 := false) false hwf
  | delta8Pred code => cases hf; exact reads_decodeSample (w16 := false) true hwf
  | delta16Plain code => cases hf; exact reads_decodeSample (w16 := true) false hwf
  | delta16Pred code => cases hf; exact reads_decodeSample (w16 := true) true hwf
  | evtEnd => cases hf; exact reads_evtEnd
  | evt => cases hf; exact reads_evt hwf
  | hostStart => cases hf
  | _ => cases hf; exact reads_decodePair rfl hwf

end

/-- A stream stands at the start of its own bytes. -/
theorem symbolsAt_inputOf (syms : List Sym) : SymbolsAt (inputOf (pack 0 syms)) 0 syms Cursor.fresh where
  pending := rfl
  bytes i h := by
    change (pack 0 syms).getD (0 + i) 0 = _
    rw [Nat.zero_add, List.getD_eq_getElem _ _ h]
  len := (Nat.zero_add _).symm

theorem encodeBytes_eq {i : Instr} {f : Format} (hf : formatOf i = some f) : encodeBytes i = pack 0 (symbolsOf i) := by
  cases i with
  | hostStart => cases hf
  | _ => rfl

/-- Settles O2: a token is read from its symbols, and nothing stands behind them. -/
theorem decodeOfEncode : Obligations.DecodeOfEncode := by
  intro i f hwf hf
  have hsyms := symbolsAt_inputOf (symbolsOf i)
  rw [← List.append_nil (symbolsOf i)] at hsyms
  obtain ⟨_, c, hdec, hend⟩ := reads_decodeStream hwf hf _ _ _ hsyms
  rw [List.append_nil] at hdec hend
  rw [encodeBytes_eq hf]
  exact ⟨c, hdec, hend.len.symm⟩

/-! ## Sequences of tokens (R70, R88) -/

theorem decodeTokens_of_symbolsAt {inp : Input} {toks : List Instr} (h : ∀ i ∈ toks, i.wf = true ∧ formatOf i ≠ none)
    {left : Nat} {c : Cursor} (hsyms : SymbolsAt inp left (toks.flatMap symbolsOf) c) :
    decodeTokens inp (toks.filterMap formatOf) c = some toks := by
  induction toks generalizing left c with
  | nil => rfl
  | cons i toks ih =>
    obtain ⟨⟨hwf, hsome⟩, hrest⟩ := List.forall_mem_cons.mp h
    obtain ⟨f, hf⟩ := Option.ne_none_iff_exists'.mp hsome
    obtain ⟨_, c1, hdec, hs1⟩ := reads_decodeStream hwf hf _ _ _ hsyms
    rw [List.filterMap_cons_some hf]
    simp only [decodeTokens, hdec, ih hrest hs1, Option.map_some]

theorem decodeCodes_of_symbolsAt {inp : Input} {w16 : Bool} {dh : Nat} {codes : List SampleCode}
    (h : codesFollow w16 dh codes = true) {left : Nat} {c : Cursor}
    (hsyms : SymbolsAt inp left (codes.flatMap fun code => bitSyms (encodeCode code)) c) :
    decodeCodes w16 inp codes.length dh c = some codes := by
  induction codes generalizing dh left c with
  | nil => rfl
  | cons code codes ih =>
    simp only [codesFollow, Bool.and_eq_true, beq_iff_eq] at h
    obtain ⟨⟨hwf, rfl⟩, hrest⟩ := h
    obtain ⟨_, c1, hdec, hs1⟩ := reads_decodeCode hwf _ _ _ hsyms
    simp only [List.length_cons, decodeCodes, hdec, ih hrest hs1, Option.map_some]

/-- Settles O3, by induction on the tokens and on the codes: each leaves the symbols of those behind it. -/
theorem tokenSequencesDecodeBack : Obligations.TokenSequencesDecodeBack :=
  ⟨fun _ h => decodeTokens_of_symbolsAt h (symbolsAt_inputOf _),
    fun _ _ _ h => decodeCodes_of_symbolsAt h (symbolsAt_inputOf _)⟩

/-! ## Words and host accesses (R25, R26, R211) -/

/-- Settles O1, by evaluation of the written words. -/
theorem writtenWordsDecode : Obligations.WrittenWordsDecode := ⟨rfl, rfl, rfl, rfl, rfl, rfl, rfl, rfl, rfl⟩

/-- An offset at a bank's base is its register 0, and no other offset is. -/
theorem bankOf_eq_zero_iff (offset : Nat) (u : UnitId) : bankOf offset = some (u, 0) ↔ offset = bankBase u := by
  constructor
  · intro h
    unfold bankOf at h
    split_ifs at h <;> cases u <;> simp [bankBase] at h ⊢ <;> omega
  · rintro rfl
    exact bankOf_base u (reg := 0) (by decide)

/-- A START is decoded from a whole word write of a CTRL with bit 0 = 1, and from nothing else. -/
theorem decodeHost_writeReg_iff (offset bytes : Nat) (v : Word) (i : Instr) :
    decodeHost (.writeReg offset bytes v) = some i ↔
      wordAccess offset bytes = true ∧ ∃ u, bankOf offset = some (u, 0) ∧ v.getLsbD 0 = true ∧ i = .hostStart u := by
  simp only [decodeHost]
  by_cases hword : wordAccess offset bytes = true
  · rw [if_pos hword]
    split
    · rename_i u hbank
      cases v.getLsbD 0 <;> simp [hbank, hword, eq_comm]
    · rename_i hbank
      simp only [reduceCtorEq, hword, true_and, false_iff, not_exists, not_and]
      exact fun u hu => absurd hu (hbank u)
  · rw [if_neg hword]
    simp [hword]

/-- Settles O4: CTRL is the one register at a bank's base. -/
theorem hostStartEncoding : Obligations.HostStartEncoding := by
  intro op i
  cases op with
  | writeReg offset bytes v =>
    rw [decodeHost_writeReg_iff]
    constructor
    · rintro ⟨hword, u, hbank, hv, rfl⟩
      obtain rfl := (bankOf_eq_zero_iff _ _).mp hbank
      obtain rfl : bytes = 4 := by simp [wordAccess] at hword; exact hword.1
      exact ⟨u, v, rfl, hv, rfl⟩
    · rintro ⟨u, v', heq, hv, rfl⟩
      cases heq
      exact ⟨wordAccess_base u (reg := 0) rfl, u, (bankOf_eq_zero_iff _ _).mpr rfl, hv, rfl⟩
  | _ => simp [decodeHost]

end Sys2Proof.RoundTrip

/-! SUPPORT. What one step of each unit can do, said once: it reads and replaces that unit alone, it never stops, and it
leaves the bank running, done or failed; with them, the statements O23, O34, O52, O54 and O55. -/

namespace Sys2Proof.UnitSteps

open Sys2Proof.Machine Sys2Proof.LzTokens Sys2Proof.Samples Sys2Proof.PatternEvents

/-! ## The bank behind a step (R121, R147, R180, R206) -/

/-- What a step makes of a unit's bank: the cursor moves on in the input, and the operation runs on, is done or fails. -/
inductive BankAfter (b : Bank) (runsOn isDone : Prop) : Bank → Prop
  | runs {ip : Nat} (hip : b.ip ≤ b.len → ip ≤ b.len) (h : runsOn) : BankAfter b runsOn isDone { b with ip := ip }
  | done {ip : Nat} (hip : b.ip ≤ b.len → ip ≤ b.len) (h : isDone) :
      BankAfter b runsOn isDone (complete { b with ip := ip })
  | fails {ip : Nat} {c : Cause} (hip : b.ip ≤ b.len → ip ≤ b.len) (hc : c ≠ .none) :
      BankAfter b runsOn isDone (enterFail { b with ip := ip } c)

section
variable {b b' : Bank} {runsOn isDone : Prop}

/-- A token's own effect on the bank, seen from before its cursor was moved. -/
theorem BankAfter.of_moved {ip : Nat} (hip : b.ip ≤ b.len → ip ≤ b.len)
    (h : BankAfter { b with ip := ip } runsOn isDone b') : BankAfter b runsOn isDone b' := by
  cases h with
  | runs hip' h => exact .runs (hip' ∘ hip) h
  | done hip' h => exact .done (hip' ∘ hip) h
  | fails hip' hc => exact .fails (hip' ∘ hip) hc

/-- The end of a token: done if the output is full. -/
theorem BankAfter.of_doneIf (full : Prop) [Decidable full] (hruns : ¬full → runsOn) (hdone : full → isDone) :
    BankAfter b runsOn isDone (doneIf full b) := by
  unfold doneIf
  split
  · exact .done (ip := b.ip) id (hdone ‹_›)
  · exact .runs (ip := b.ip) id (hruns ‹_›)

theorem BankAfter.len_eq (h : BankAfter b runsOn isDone b') : b'.len = b.len := by
  cases h <;> rfl

theorem BankAfter.runs_of_busy (h : BankAfter b runsOn isDone b') (hbusy : b'.state = .busy) : runsOn := by
  cases h with
  | runs _ h => exact h
  | done => cases hbusy
  | fails => cases hbusy

theorem BankAfter.done_of_done (h : BankAfter b runsOn isDone b') (hb : b.state = .busy) (hdone : b'.state = .done) :
    isDone := by
  cases h with
  | runs => cases hb.symm.trans hdone
  | done _ h => exact h
  | fails => cases hdone

/-- A BUSY bank is BUSY, DONE or in FAIL behind a step. -/
theorem BankAfter.state_cases (h : BankAfter b runsOn isDone b') (hb : b.state = .busy) :
    b'.state = .busy ∨ b'.state = .done ∨ b'.state = .fail := by
  cases h with
  | runs => exact .inl hb
  | done => exact .inr (.inl rfl)
  | fails => exact .inr (.inr rfl)

/-- A BUSY bank keeps its promises: CAUSE is 0 until a fault, which sets both (R27, R206). -/
theorem BankAfter.bankInv {u : UnitId} (h : BankAfter b runsOn isDone b') (hb : b.state = .busy)
    (hinv : Machine.bankInv u b) : Machine.bankInv u b' := by
  obtain ⟨hcause, hconfig, hip⟩ := hinv
  have hnone : b.cause = .none := hcause.mpr (by rw [hb]; decide)
  cases h with
  | runs hip' => exact ⟨hcause, hconfig, hip' hip⟩
  | done hip' => exact ⟨iff_of_true hnone (by simp), hconfig, hip' hip⟩
  | fails hip' hc => exact ⟨iff_of_false hc (by simp), hconfig, hip' hip⟩

/-- A stream fault's cursor and cause (R203, R205). -/
theorem BankAfter.of_stop {f : Format} {inp : Input} {c : Cursor} {e : Stop} (hlen : inp.len = b.len)
    (hc : c.ip = b.ip) (h : decodeStream f inp c = .error e) :
    BankAfter b runsOn isDone (enterFail { b with ip := e.cursor.ip } e.cause) := by
  obtain ⟨hforward, hcause⟩ := (decodeStream_sound f inp c).error (β := Unit) h
  refine .fails (hlen ▸ hc ▸ hforward.2) ?_
  rcases hcause with h | h <;> rw [h] <;> decide

end

/-- The cursor behind a decoded token is not past the end of the input (R22). -/
theorem cursor_le_of_decode {f : Format} {inp : Input} {c c' : Cursor} {i : Instr}
    (h : decodeStream f inp c = .ok (i, c')) : c.ip ≤ inp.len → c'.ip ≤ inp.len := ((decodeStream_sound f inp c).ok h).2

/-! ## LZU -/

/-- What a step makes of the LZU, the unwritten places of OUT holding `blank`. -/
structure LzuStep (blank : Nat → Byte) (u v : Lzu) : Prop where
  input : v.input = u.input
  outPre : v.outPre = u.outPre
  n : v.n = u.n
  fits : u.w ≤ u.n → v.w ≤ u.n
  outside : ∀ a, a < u.w ∨ u.n ≤ a → byteAt blank v.out a = byteAt blank u.out a
  canonical : storeWf u.out = true → storeWf v.out = true
  bank : BankAfter u.bank (v.w < u.n) (u.n ≤ v.w) v.bank

section
variable {blank : Nat → Byte} {u v : Lzu}

theorem LzuStep.of_moved {c : Cursor} (hip : u.bank.ip ≤ u.bank.len → c.ip ≤ u.bank.len)
    (h : LzuStep blank (lzuMove u c) v) : LzuStep blank u v :=
  { h with bank := .of_moved hip h.bank }

/-- The end of a token that has left `v`, its bank not yet touched. -/
theorem LzuStep.of_finish (hinput : v.input = u.input) (hpre : v.outPre = u.outPre) (hn : v.n = u.n)
    (hbank : v.bank = u.bank) (hfits : v.w ≤ u.n)
    (houtside : ∀ a, a < u.w ∨ u.n ≤ a → byteAt blank v.out a = byteAt blank u.out a)
    (hcanonical : storeWf u.out = true → storeWf v.out = true) : LzuStep blank u (lzuFinish v) := by
  rw [lzuFinish_eq]
  refine ⟨hinput, hpre, hn, fun _ => hfits, houtside, hcanonical, ?_⟩
  rw [hbank, hn]
  exact .of_doneIf _ Nat.not_le.mp id

theorem LzuStep.of_seed (b : Byte) (hw : u.w = 0) (hroom : u.w < u.n) :
    LzuStep blank u (lzuFinish { u with out := storeSet u.out 0 b, w := 1 }) :=
  .of_finish rfl rfl rfl rfl (Nat.one_le_of_lt hroom)
    (fun a ha => by rw [byteAt_storeSet, if_neg (by omega)]) (storeSet_wf 0 b)

theorem LzuStep.of_lit (b : Byte) (hroom : u.w < u.n) : LzuStep blank u (lzuFinish (lzuPut u b)) :=
  .of_finish rfl rfl rfl rfl hroom
    (fun a ha => by rw [lzuPut_out, byteAt_storeSet, if_neg (by omega)]) (lzuPut_wf b)

/-- CHECK and COPY on a unit whose operand registers have been set. -/
theorem LzuStep.of_match (g : Nat) (off : Int) (adj : Nat) (prevOff : Int) (len : Nat) :
    LzuStep blank u (lzuMatch blank { u with g := g, off := off, adj := adj, prevOff := prevOff, len := len }) := by
  rcases lzuMatch_cases blank { u with g := g, off := off, adj := adj, prevOff := prevOff, len := len } with
    ⟨-, heq⟩ | ⟨-, -, -, heq⟩ | ⟨-, -, hfits, heq⟩
  · rw [heq]
    exact ⟨rfl, rfl, rfl, id, fun _ _ => rfl, id, .fails (ip := u.bank.ip) id (by decide)⟩
  · rw [heq]
    exact ⟨rfl, rfl, rfl, id, fun _ _ => rfl, id, .fails (ip := u.bank.ip) id (by decide)⟩
  · rw [heq, lzuCopy_eq]
    dsimp only at hfits
    refine .of_finish rfl rfl rfl rfl (by dsimp only; omega)
      (fun a ha => lzuCopy_outside blank _ _ _ a (by dsimp only; omega)) fun h => ?_
    exact lzuCopy_wf blank _ _ h

end

/-- A token of the format the LZU reads next, with room for it: what it makes of the unit depends on nothing else. -/
theorem exec_lzu_step {inp : Input} {c c' : Cursor} {i : Instr} {u : Lzu} (epoch : Nat)
    (hdec : decodeStream (lzuFormat u) inp c = .ok (i, c')) (hroom : u.w < u.n) :
    ∃ v, LzuStep (Config.unwrittenByte .out epoch) u v ∧
      ∀ s : State, s.lzu = u → s.epoch = epoch → exec i s = .next (s.setLzu v) := by
  unfold lzuFormat at hdec
  split at hdec
  · rename_i hw
    obtain ⟨b, rfl⟩ := decodeSeed_instr hdec
    exact ⟨_, .of_seed b hw hroom, by rintro s rfl -; rfl⟩
  · rcases decodeLz_instr hdec with ⟨b, rfl⟩ | ⟨g, x, len, rfl⟩ | ⟨len, rfl⟩
    · exact ⟨_, .of_lit b hroom, by rintro s rfl -; rfl⟩
    · exact ⟨_, .of_match g (matchOffset g x) (matchBonus (matchOffset g x)) (matchOffset g x)
        (lengthBase len + matchBonus (matchOffset g x)), by rintro s rfl rfl; exact exec_matchNew g x len s⟩
    · exact ⟨_, .of_match 2 u.prevOff 0 u.prevOff (lengthBase len),
        by rintro s rfl rfl; exact exec_matchReuse len s⟩

/-- A step of the LZU depends on that unit and what its unwritten places hold, and replaces that unit alone. -/
theorem stepLzu_step (u : Lzu) (epoch : Nat) :
    ∃ v, LzuStep (Config.unwrittenByte .out epoch) u v ∧
      ∀ s : State, s.lzu = u → s.epoch = epoch → stepLzu s = .next (s.setLzu v) := by
  by_cases hfull : u.n ≤ u.w
  · refine ⟨{ u with bank := complete u.bank },
      ⟨rfl, rfl, rfl, id, fun _ _ => rfl, id, .done (ip := u.bank.ip) id hfull⟩, ?_⟩
    rintro s rfl -
    exact if_pos hfull
  · have hinput (s : State) (hu : s.lzu = u) (he : s.epoch = epoch) : lzuInput s =
        { len := u.bank.len, get := byteAt (Config.unwrittenByte .inLzu epoch) u.input } := by
      subst hu he
      rfl
    cases hdec : decodeStream (lzuFormat u)
        { len := u.bank.len, get := byteAt (Config.unwrittenByte .inLzu epoch) u.input } (lzuCursor u) with
    | error e =>
      refine ⟨lzuFail (lzuMove u e.cursor) e.cause,
        ⟨rfl, rfl, rfl, id, fun _ _ => rfl, id, .of_stop rfl rfl hdec⟩, fun s hu he => ?_⟩
      rw [← hinput s hu he] at hdec
      subst hu
      simp only [stepLzu, if_neg hfull, hdec]
    | ok r =>
      obtain ⟨i, c⟩ := r
      obtain ⟨v, hv, hexec⟩ := exec_lzu_step (u := lzuMove u c) epoch hdec (Nat.not_le.mp hfull)
      refine ⟨v, hv.of_moved (cursor_le_of_decode hdec), fun s hu he => ?_⟩
      rw [← hinput s hu he] at hdec
      subst hu
      simp only [stepLzu, if_neg hfull, hdec]
      exact hexec (s.setLzu (lzuMove s.lzu c)) rfl he

/-! ## DSU -/

/-- The place of the next sample in the loop of R131. -/
def InLoop (u : Dsu) : Prop := u.fr < u.frames ∧ u.ch < u.chans ∧ u.count = u.ch * u.frames + u.fr

/-- What a step makes of the DSU, the unwritten places of SMP holding `blank`. -/
structure DsuStep (blank : Nat → Byte) (u v : Dsu) : Prop where
  input : v.input = u.input
  smpPre : v.smpPre = u.smpPre
  frames : v.frames = u.frames
  chans : v.chans = u.chans
  count_le : v.count ≤ u.count + 1
  place : InLoop u → v.count < u.frames * u.chans → InLoop v
  ranges : dsuRanges (dsuWidth u) u → dsuRanges (dsuWidth v) v
  outside : InLoop u → ∀ a, sampleBytes u ≤ a → byteAt blank v.smp a = byteAt blank u.smp a
  canonical : storeWf u.smp = true → storeWf v.smp = true
  bank : BankAfter u.bank (v.count = u.count + 1 ∧ v.count < u.frames * u.chans) (u.frames * u.chans ≤ v.count) v.bank

section
variable {blank : Nat → Byte} {u v : Dsu}

theorem DsuStep.of_moved {c : Cursor} (hip : u.bank.ip ≤ u.bank.len → c.ip ≤ u.bank.len)
    (h : DsuStep blank (dsuMove u c) v) : DsuStep blank u v :=
  { h with bank := .of_moved hip h.bank }

theorem dsuFinish_eq (u : Dsu) : dsuFinish u = { u with bank := doneIf (u.frames * u.chans ≤ u.count) u.bank } := by
  unfold dsuFinish doneIf
  split <;> rfl

/-- The loop head moves the place and may set a fresh context; it touches nothing else (R131, R132). -/
theorem dsuAdvance_eq (u : Dsu) :
    dsuAdvance u =
      { u with
        fr := (dsuAdvance u).fr, ch := (dsuAdvance u).ch, dh := (dsuAdvance u).dh, prev := (dsuAdvance u).prev
        next := (dsuAdvance u).next, prevp := (dsuAdvance u).prevp } := by
  rcases dsuAdvance_cases u with ⟨-, heq⟩ | ⟨-, -, -, heq⟩ | ⟨-, -, heq⟩
  · rw [heq]
  · rw [heq]
    rfl
  · rw [heq]

@[simp] theorem dsuAdvance_bank (u : Dsu) : (dsuAdvance u).bank = u.bank := by rw [dsuAdvance_eq]
@[simp] theorem dsuAdvance_input (u : Dsu) : (dsuAdvance u).input = u.input := by rw [dsuAdvance_eq]
@[simp] theorem dsuAdvance_smp (u : Dsu) : (dsuAdvance u).smp = u.smp := by rw [dsuAdvance_eq]
@[simp] theorem dsuAdvance_smpPre (u : Dsu) : (dsuAdvance u).smpPre = u.smpPre := by rw [dsuAdvance_eq]
@[simp] theorem dsuAdvance_frames (u : Dsu) : (dsuAdvance u).frames = u.frames := by rw [dsuAdvance_eq]
@[simp] theorem dsuAdvance_chans (u : Dsu) : (dsuAdvance u).chans = u.chans := by rw [dsuAdvance_eq]
@[simp] theorem dsuAdvance_count (u : Dsu) : (dsuAdvance u).count = u.count := by rw [dsuAdvance_eq]

/-- The initial context is in range for both widths (R130, R149). -/
theorem dsuRanges_init (u : Dsu) : dsuRanges (dsuWidth u) (dsuInit u) := by
  unfold dsuRanges dsuWidth
  simp only [dsuInit_dh, dsuInit_prev, dsuInit_next, dsuInit_prevp]
  cases u.w16 <;> decide

theorem dsuRanges_advance (h : dsuRanges (dsuWidth u) u) : dsuRanges (dsuWidth (dsuAdvance u)) (dsuAdvance u) := by
  rcases dsuAdvance_cases u with ⟨-, heq⟩ | ⟨-, -, -, heq⟩ | ⟨-, -, heq⟩
  · rw [heq]
    exact h
  · rw [heq]
    exact dsuRanges_init _
  · rw [heq]
    exact h

/-- Behind a sample the loop stands at the next place in channel order, or all F * C samples are written (R131). -/
theorem dsuAdvance_place (hfr : u.fr < u.frames) (hch : u.ch < u.chans) :
    ((dsuAdvance u).fr < u.frames ∧ (dsuAdvance u).ch < u.chans ∧
      (dsuAdvance u).ch * u.frames + (dsuAdvance u).fr = u.ch * u.frames + u.fr + 1) ∨
    u.ch * u.frames + u.fr + 1 = u.frames * u.chans := by
  rcases dsuAdvance_cases u with ⟨hmore, heq⟩ | ⟨hlast, hnext, -, heq⟩ | ⟨hlast, -, heq⟩
  · rw [heq]
    exact .inl ⟨hmore, hch, rfl⟩
  · rw [heq]
    refine .inl ⟨by simp; omega, hnext, ?_⟩
    simp only [dsuInit_ch, dsuInit_fr, Nat.succ_mul]
    omega
  · rw [heq]
    rcases Nat.lt_or_ge (u.ch + 1) u.chans with hnext | hnext
    · refine .inl ⟨by dsimp only; omega, hnext, ?_⟩
      simp only [Nat.succ_mul]
      omega
    · have hchans : u.chans = u.ch + 1 := by omega
      refine .inr ?_
      rw [hchans, Nat.mul_comm u.frames, Nat.succ_mul]
      omega

theorem sampleIndex_lt (h : InLoop u) : sampleIndex u < u.frames * u.chans := by
  obtain ⟨hfr, hch, -⟩ := h
  have hrow : (u.fr + 1) * u.chans ≤ u.frames * u.chans := Nat.mul_le_mul_right _ hfr
  rw [Nat.succ_mul] at hrow
  rw [sampleIndex]
  omega

/-- The loop head and the end of a sample on a unit `x` that has written the sample `out` and set the registers of the
code and the reconstruction. -/
theorem DsuStep.of_finish_advance {x : Dsu} {out : Int}
    (hx : x = { u with
      v := x.v, e := x.e, dh := x.dh, prev := x.prev, next := x.next, prevp := x.prevp
      smp := putSample (dsuWidth u) u.smp (sampleIndex u) out, count := u.count + 1 })
    (hranges : dsuRanges (dsuWidth u) u → dsuRanges (dsuWidth u) x) : DsuStep blank u (dsuFinish (dsuAdvance x)) := by
  obtain ⟨hbank, hinput, hsmp, hpre, hw16, hframes, hchans, hch, hfr, hcount⟩ :
      x.bank = u.bank ∧ x.input = u.input ∧ x.smp = putSample (dsuWidth u) u.smp (sampleIndex u) out ∧
      x.smpPre = u.smpPre ∧ x.w16 = u.w16 ∧ x.frames = u.frames ∧ x.chans = u.chans ∧ x.ch = u.ch ∧ x.fr = u.fr ∧
      x.count = u.count + 1 := by
    rw [hx]
    exact ⟨rfl, rfl, rfl, rfl, rfl, rfl, rfl, rfl, rfl, rfl⟩
  have hwidth : dsuWidth x = dsuWidth u := congrArg widthOf hw16
  rw [dsuFinish_eq]
  constructor
  case input => exact (dsuAdvance_input x).trans hinput
  case smpPre => exact (dsuAdvance_smpPre x).trans hpre
  case frames => exact (dsuAdvance_frames x).trans hframes
  case chans => exact (dsuAdvance_chans x).trans hchans
  case count_le => exact ((dsuAdvance_count x).trans hcount).le
  case place =>
    rintro ⟨hin, hin', hplace⟩ hless
    rcases dsuAdvance_place (u := x) (by omega) (by omega) with ⟨hfr', hch', hnext⟩ | hall
    · rw [hframes, hch, hfr, ← hplace, ← hcount] at hnext
      exact ⟨hfr'.trans_eq (dsuAdvance_frames x).symm, hch'.trans_eq (dsuAdvance_chans x).symm,
        by simpa [hframes] using hnext.symm⟩
    · rw [hframes, hchans, hch, hfr, ← hplace, ← hcount] at hall
      exact absurd ((dsuAdvance_count x).trans hall) (Nat.ne_of_lt hless)
  case ranges => exact fun h => dsuRanges_advance (hwidth.symm ▸ hranges h)
  case outside =>
    intro hin a ha
    have hindex := sampleIndex_lt hin
    rw [dsuAdvance_smp, hsmp]
    refine (byteAt_putSample_width blank u.w16 u.smp (sampleIndex u) out a).trans ?_
    unfold sampleBytes at ha
    cases hw : u.w16 <;> simp only [hw, Bool.false_eq_true, if_true, if_false] at ha ⊢
    · rw [if_neg (by omega)]
    · rw [if_neg (by omega), if_neg (by omega)]
  case canonical =>
    intro h
    rw [dsuAdvance_smp, hsmp]
    exact putSample_wf _ _ _ h
  case bank =>
    simp only [dsuAdvance_frames, dsuAdvance_chans, dsuAdvance_count, dsuAdvance_bank, hframes, hchans, hcount, hbank]
    exact .of_doneIf _ (fun h => ⟨trivial, Nat.not_le.mp h⟩) id

end

theorem nextPredictor_range {w : Nat} (value d prevp : Int) :
    -(2 ^ (w - 1) : Int) ≤ nextPredictor w value d prevp ∧ nextPredictor w value d prevp < (2 ^ (w - 1) : Int) := by
  have hpos : (0 : Int) < 2 ^ (w - 1) := by positivity
  rw [nextPredictor_eq]
  omega

theorem dsuWidth_ge (u : Dsu) : 2 ≤ dsuWidth u := by
  unfold dsuWidth
  cases u.w16 <;> decide

/-- Both variants of a sample are samples, whatever the code: every register is computed into its range (R149). -/
theorem dsuStep_sample (blank : Nat → Byte) (code : SampleCode) (u : Dsu) :
    DsuStep blank u (if u.pred then samplePred (dsuWidth u) code u else samplePlain (dsuWidth u) code u) := by
  have hwidth := dsuWidth_ge u
  have hdh (hdh : 1 ≤ u.dh ∧ u.dh ≤ shiftOf (dsuWidth u)) :=
    nextWidth_range hdh (extraLength_range hwidth (rawCode (dsuWidth u) code))
  split
  · rw [samplePred_eq]
    refine .of_finish_advance rfl fun h => ?_
    obtain ⟨hdh1, hdh2, hprev1, hprev2, hnext1, hnext2, hprevp1, hprevp2⟩ := h
    obtain ⟨hlow, hhigh⟩ := wrapS_range (n := dsuWidth u) (by omega) (u.next + deltaOf (rawCode (dsuWidth u) code))
    obtain ⟨hnlow, hnhigh⟩ := nextPredictor_range (w := dsuWidth u)
      (wrapS (dsuWidth u) (u.next + deltaOf (rawCode (dsuWidth u) code))) (deltaOf (rawCode (dsuWidth u) code)) u.prevp
    obtain ⟨hdlow, hdhigh⟩ := hdh ⟨hdh1, hdh2⟩
    exact ⟨hdlow, hdhigh, hprev1, hprev2, hnlow, hnhigh, hlow, hhigh⟩
  · rw [samplePlain_eq]
    refine .of_finish_advance rfl fun h => ?_
    obtain ⟨hdh1, hdh2, hprev1, hprev2, hnext1, hnext2, hprevp1, hprevp2⟩ := h
    obtain ⟨hlow, hhigh⟩ := wrapS_range (n := dsuWidth u) (by omega) (u.prev + deltaOf (rawCode (dsuWidth u) code))
    obtain ⟨hdlow, hdhigh⟩ := hdh ⟨hdh1, hdh2⟩
    exact ⟨hdlow, hdhigh, hlow, hhigh, hnext1, hnext2, hprevp1, hprevp2⟩

/-- A step of the DSU depends on that unit and what its unwritten places hold, and replaces that unit alone. -/
theorem stepDsu_step (u : Dsu) (epoch : Nat) :
    ∃ v, DsuStep (Config.unwrittenByte .smp epoch) u v ∧
      ∀ s : State, s.dsu = u → s.epoch = epoch → stepDsu s = .next (s.setDsu v) := by
  by_cases hfull : u.frames * u.chans ≤ u.count
  · refine ⟨{ u with bank := complete u.bank }, ⟨rfl, rfl, rfl, rfl, Nat.le_succ _, fun h _ => h, id, fun _ _ _ => rfl, id,
      .done (ip := u.bank.ip) id hfull⟩, ?_⟩
    rintro s rfl -
    exact if_pos hfull
  · have hinput (s : State) (hu : s.dsu = u) (he : s.epoch = epoch) : dsuInput s =
        { len := u.bank.len, get := byteAt (Config.unwrittenByte .inDsu epoch) u.input } := by
      subst hu he
      rfl
    cases hdec : decodeStream (dsuFormat u)
        { len := u.bank.len, get := byteAt (Config.unwrittenByte .inDsu epoch) u.input } (dsuCursor u) with
    | error e =>
      refine ⟨dsuFail (dsuMove u e.cursor) e.cause, ⟨rfl, rfl, rfl, rfl, Nat.le_succ _, fun h _ => h, id,
        fun _ _ _ => rfl, id, .of_stop rfl rfl hdec⟩, fun s hu he => ?_⟩
      rw [← hinput s hu he] at hdec
      subst hu
      simp only [stepDsu, if_neg hfull, hdec]
    | ok r =>
      obtain ⟨i, c⟩ := r
      obtain ⟨code, rfl⟩ := decodeSample_instr hdec
      refine ⟨_, (dsuStep_sample _ code (dsuMove u c)).of_moved (cursor_le_of_decode hdec), fun s hu he => ?_⟩
      rw [← hinput s hu he] at hdec
      subst hu
      simp only [stepDsu, if_neg hfull, hdec]
      exact exec_sampleInstr _ _ code _

/-! ## PEU -/

/-- What a step makes of the PEU, the unwritten rows of CELL holding `blank`. -/
structure PeuStep (blank : Nat → Cell) (u v : Peu) : Prop where
  input : v.input = u.input
  cellsPre : v.cellsPre = u.cellsPre
  cellsStart : v.cellsStart = u.cellsStart
  rows : v.rows = u.rows
  k_le : u.k ≤ 15 → v.k ≤ 15
  outside : ∀ r, r < u.row ∨ u.rows ≤ r → cellAt blank v.cells r = cellAt blank u.cells r
  canonical : storeWf u.cells = true → storeWf v.cells = true
  bank : BankAfter u.bank ((v.k = 0 → v.row < u.rows) ∧ (u.k = 0 → v.k = 0 ∧ u.row < v.row)) True v.bank

section
variable {blank : Nat → Cell} {u v : Peu}

theorem PeuStep.of_moved {c : Cursor} (hip : u.bank.ip ≤ u.bank.len → c.ip ≤ u.bank.len)
    (h : PeuStep blank (peuMove u c) v) : PeuStep blank u v :=
  { h with bank := .of_moved hip h.bank }

theorem PeuStep.of_evtEnd : PeuStep blank u { u with bank := complete u.bank, cb := 0x00 } :=
  ⟨rfl, rfl, rfl, rfl, id, fun _ _ => rfl, id, .done (ip := u.bank.ip) id trivial⟩

/-- The end of an event on a unit whose event registers have been set. -/
theorem PeuStep.of_endEvent (cb : Byte) (wcell : Cell) :
    PeuStep blank u (endEvent { u with cb := cb, k := 0, wcell := wcell }) := by
  rw [endEvent_eq]
  refine ⟨rfl, rfl, rfl, rfl, fun _ => Nat.zero_le _, fun r hr => ?_, putRows_wf _ _ _ _, ?_⟩
  · refine (cellAt_putRows _ _ _ _ _ _ _).trans (if_neg ?_)
    dsimp only
    omega
  · refine .of_doneIf _ (fun h => ⟨fun _ => Nat.not_le.mp h, fun _ => ⟨rfl, ?_⟩⟩) fun _ => trivial
    exact Nat.lt_add_of_pos_right (Nat.succ_pos _)

/-- A pair read inside an event is counted, and the last one ends the event (R164, R165). -/
theorem PeuStep.of_pair (p : Byte × Byte) (hk : u.k ≠ 0) : PeuStep blank u (applyPair u p) := by
  obtain hone | ⟨k, hmore⟩ : u.k = 1 ∨ ∃ k, u.k = k + 2 := by
    match hu : u.k with
    | 0 => exact absurd hu hk
    | 1 => exact .inl rfl
    | k + 2 => exact .inr ⟨k, rfl⟩
  · rw [applyPair_last p hone]
    exact .of_endEvent u.cb _
  · rw [applyPair_more p hmore]
    exact ⟨rfl, rfl, rfl, rfl, fun h => by dsimp only; omega, fun _ _ => rfl, id,
      .runs (ip := u.bank.ip) id ⟨fun h => absurd h (Nat.succ_ne_zero k), fun h => absurd h hk⟩⟩

end

/-- A token of the format the PEU reads next: what it makes of the unit depends on nothing else. -/
theorem exec_peu_step {inp : Input} {c c' : Cursor} {i : Instr} {u : Peu} (blank : Nat → Cell)
    (hdec : decodeStream (peuFormat u) inp c = .ok (i, c')) :
    ∃ v, PeuStep blank u v ∧ ∀ s : State, s.peu = u → exec i s = .next (s.setPeu v) := by
  unfold peuFormat at hdec
  split at hdec
  · rcases decodeTrack_instr hdec with rfl | ⟨rep, pairs, rfl, -⟩
    · exact ⟨_, .of_evtEnd, by rintro s rfl; rfl⟩
    · exact ⟨_, .of_endEvent (BitVec.ofNat 8 (rep.toNat * 16 + pairs.length % 16)) (pairsCell u.dialect pairs emptyCell),
        by rintro s rfl; exact exec_evt rep pairs s⟩
  · rename_i hk
    obtain ⟨code, op, rfl⟩ := decodePair_instr hdec
    exact ⟨_, .of_pair (code, op) hk, by rintro s rfl; exact exec_pairInstr code op s⟩

/-- A step of the PEU depends on that unit and what its unwritten places hold, and replaces that unit alone. -/
theorem stepPeu_step (u : Peu) (epoch : Nat) :
    ∃ v, PeuStep (Config.unwrittenCell epoch) u v ∧
      ∀ s : State, s.peu = u → s.epoch = epoch → stepPeu s = .next (s.setPeu v) := by
  by_cases hfull : u.k = 0 ∧ u.rows ≤ u.row
  · refine ⟨{ u with bank := complete u.bank },
      ⟨rfl, rfl, rfl, rfl, id, fun _ _ => rfl, id, .done (ip := u.bank.ip) id trivial⟩, ?_⟩
    rintro s rfl -
    exact if_pos hfull
  · have hinput (s : State) (hu : s.peu = u) (he : s.epoch = epoch) : peuInput s =
        { len := u.bank.len, get := byteAt (Config.unwrittenByte .inPeu epoch) u.input } := by
      subst hu he
      rfl
    cases hdec : decodeStream (peuFormat u)
        { len := u.bank.len, get := byteAt (Config.unwrittenByte .inPeu epoch) u.input } (peuCursor u) with
    | error e =>
      refine ⟨peuFail (peuMove u e.cursor) e.cause,
        ⟨rfl, rfl, rfl, rfl, id, fun _ _ => rfl, id, .of_stop rfl rfl hdec⟩, fun s hu he => ?_⟩
      rw [← hinput s hu he] at hdec
      subst hu
      simp only [stepPeu, if_neg hfull, hdec]
    | ok r =>
      obtain ⟨i, c⟩ := r
      obtain ⟨v, hv, hexec⟩ := exec_peu_step (u := peuMove u c) (Config.unwrittenCell epoch) hdec
      refine ⟨v, hv.of_moved (cursor_le_of_decode hdec), fun s hu he => ?_⟩
      rw [← hinput s hu he] at hdec
      subst hu
      simp only [stepPeu, if_neg hfull, hdec]
      exact hexec (s.setPeu (peuMove s.peu c)) rfl

/-! ## No stream stops the machine (R85, R86) -/

/-- `s` with the unit `u` of `t`. -/
def replaceUnit (u : UnitId) (t s : State) : State :=
  match u with
  | .lzu => s.setLzu t.lzu
  | .dsu => s.setDsu t.dsu
  | .peu => s.setPeu t.peu

@[simp] theorem replaceUnit_epoch (u : UnitId) (t s : State) : (replaceUnit u t s).epoch = s.epoch := by
  cases u <;> rfl

theorem sameUnit_refl (u : UnitId) (s : State) : sameUnit u s s := by
  cases u <;> rfl

theorem sameUnit_replaceUnit {u v : UnitId} (h : u ≠ v) (t s : State) : sameUnit u s (replaceUnit v t s) := by
  cases u <;> cases v <;> first | rfl | exact absurd rfl h

theorem replaceUnit_comm {u v : UnitId} (h : u ≠ v) (x y s : State) :
    replaceUnit u x (replaceUnit v y s) = replaceUnit v y (replaceUnit u x s) := by
  cases u <;> cases v <;> first | rfl | exact absurd rfl h

/-- A unit's step depends on that unit and what its unwritten places hold, and replaces that unit alone. -/
theorem stepUnit_local (u : UnitId) (s : State) :
    ∃ x, ∀ s' : State, sameUnit u s s' → s'.epoch = s.epoch → stepUnit u s' = .next (replaceUnit u x s') := by
  cases u with
  | lzu => obtain ⟨v, -, hstep⟩ := stepLzu_step s.lzu s.epoch; exact ⟨s.setLzu v, hstep⟩
  | dsu => obtain ⟨v, -, hstep⟩ := stepDsu_step s.dsu s.epoch; exact ⟨s.setDsu v, hstep⟩
  | peu => obtain ⟨v, -, hstep⟩ := stepPeu_step s.peu s.epoch; exact ⟨s.setPeu v, hstep⟩

theorem stepUnit_next (u : UnitId) (s : State) : ∃ t, stepUnit u s = .next t := by
  obtain ⟨x, hstep⟩ := stepUnit_local u s
  exact ⟨_, hstep s (sameUnit_refl u s) rfl⟩

/-- Every instruction answers a next state: no meaning has another outcome. -/
theorem exec_next (i : Instr) (s : State) : ∃ t, exec i s = .next t := by
  cases i <;> exact ⟨_, rfl⟩

/-- Settles O52: each unit's step replaces that unit, and each instruction's meaning is a next state. -/
theorem unitsNeverStop : Obligations.UnitsNeverStop := ⟨stepUnit_next, exec_next⟩

/-- Settles O55: each step depends on its own unit, which the other leaves. -/
theorem unitStepsCommute : Obligations.UnitStepsCommute := by
  intro u v s a b hne ha hb
  obtain ⟨x, hx⟩ := stepUnit_local u s
  obtain ⟨y, hy⟩ := stepUnit_local v s
  cases (hx s (sameUnit_refl u s) rfl).symm.trans ha
  cases (hy s (sameUnit_refl v s) rfl).symm.trans hb
  refine ⟨_, hy _ (sameUnit_replaceUnit hne.symm x s) (replaceUnit_epoch u x s), ?_⟩
  rw [hx _ (sameUnit_replaceUnit hne y s) (replaceUnit_epoch v y s), replaceUnit_comm hne]

/-! ## Steps inverted -/

theorem stepLzu_next {s t : State} (h : stepLzu s = .next t) :
    ∃ v, LzuStep (blankBytes s .out) s.lzu v ∧ t = s.setLzu v := by
  obtain ⟨v, hv, hstep⟩ := stepLzu_step s.lzu s.epoch
  rw [hstep s rfl rfl] at h
  cases h
  exact ⟨v, hv, rfl⟩

theorem stepDsu_next {s t : State} (h : stepDsu s = .next t) :
    ∃ v, DsuStep (blankBytes s .smp) s.dsu v ∧ t = s.setDsu v := by
  obtain ⟨v, hv, hstep⟩ := stepDsu_step s.dsu s.epoch
  rw [hstep s rfl rfl] at h
  cases h
  exact ⟨v, hv, rfl⟩

theorem stepPeu_next {s t : State} (h : stepPeu s = .next t) :
    ∃ v, PeuStep (blankCells s) s.peu v ∧ t = s.setPeu v := by
  obtain ⟨v, hv, hstep⟩ := stepPeu_step s.peu s.epoch
  rw [hstep s rfl rfl] at h
  cases h
  exact ⟨v, hv, rfl⟩

/-- Settles O54: what a step leaves outside the operation's output is part of what it can do. -/
theorem unitWritesStayInside : Obligations.UnitWritesStayInside := by
  intro s t
  refine ⟨fun _ _ h => ?_, fun hinv hbusy h => ?_, fun _ h => ?_⟩
  · obtain ⟨v, hv, rfl⟩ := stepLzu_next h
    exact ⟨rfl, hv.input, hv.outside⟩
  · obtain ⟨v, hv, rfl⟩ := stepDsu_next h
    obtain ⟨-, hplace, -⟩ := hinv
    obtain ⟨hfr, hch, hcount, -⟩ := hplace hbusy
    exact ⟨rfl, hv.input, hv.outside ⟨hfr, hch, hcount⟩⟩
  · obtain ⟨v, hv, rfl⟩ := stepPeu_next h
    exact ⟨rfl, hv.input, hv.outside⟩

/-! ## The promises of the units behind a step -/

theorem LzuStep.inv {blank : Nat → Byte} {u v : Lzu} (h : LzuStep blank u v) (hbusy : u.bank.state = .busy)
    (hinv : lzuInv u) : lzuInv v := by
  obtain ⟨hbank, hroom, -⟩ := hinv
  have hfits := h.fits (hroom hbusy).le
  refine ⟨h.bank.bankInv hbusy hbank, fun hb => ?_, fun hd => ?_⟩
  · exact (h.bank.runs_of_busy hb).trans_eq h.n.symm
  · have hfull := h.bank.done_of_done hbusy hd
    rw [h.n]
    omega

theorem DsuStep.inv {blank : Nat → Byte} {u v : Dsu} (h : DsuStep blank u v) (hbusy : u.bank.state = .busy)
    (hinv : dsuInv u) : dsuInv v := by
  obtain ⟨hbank, hplace, -⟩ := hinv
  obtain ⟨hfr, hch, hcount, hranges⟩ := hplace hbusy
  have hin : InLoop u := ⟨hfr, hch, hcount⟩
  refine ⟨h.bank.bankInv hbusy hbank, fun hb => ?_, fun hd => ?_⟩
  · obtain ⟨hfr', hch', hcount'⟩ := h.place hin (h.bank.runs_of_busy hb).2
    exact ⟨hfr', hch', hcount', h.ranges hranges⟩
  · have hfull := h.bank.done_of_done hbusy hd
    have hle := h.count_le
    have hlast : u.ch * u.frames + u.frames ≤ u.frames * u.chans := by
      rw [← Nat.succ_mul, Nat.mul_comm]
      exact Nat.mul_le_mul_left _ hch
    rw [h.frames, h.chans]
    omega

theorem PeuStep.inv {blank : Nat → Cell} {u v : Peu} (h : PeuStep blank u v) (hbusy : u.bank.state = .busy)
    (hinv : peuInv u) : peuInv v := by
  obtain ⟨hbank, hk, -⟩ := hinv
  exact ⟨h.bank.bankInv hbusy hbank, h.k_le hk, fun hb hk' => ((h.bank.runs_of_busy hb).1 hk').trans_eq h.rows.symm⟩

/-! ## An operation of the DSU and of the PEU run alone (R147, R151, R183) -/

/-- By induction on the samples left: a sample that does not end the operation is one less to write. -/
theorem runUnit_dsu_ends {k : Nat} {s : State} (hinv : dsuInv s.dsu) (hbusy : s.dsu.bank.state = .busy)
    (hk : s.dsu.frames * s.dsu.chans ≤ s.dsu.count + k) (hleft : 0 < k) :
    ((runUnit .dsu k s).dsu.bank.state = .done ∧ (runUnit .dsu k s).dsu.count = s.dsu.frames * s.dsu.chans) ∨
      (runUnit .dsu k s).dsu.bank.state = .fail := by
  induction k generalizing s with
  | zero => omega
  | succ k ih =>
    obtain ⟨t, hstep⟩ := stepUnit_next .dsu s
    obtain ⟨v, hv, rfl⟩ := stepDsu_next hstep
    have hinv' := hv.inv hbusy hinv
    rw [runUnit_succ_of_busy (u := .dsu) hbusy hstep]
    rcases hv.bank.state_cases hbusy with hb | hd | hf
    · obtain ⟨hcount, hless⟩ := hv.bank.runs_of_busy hb
      rw [← hv.frames, ← hv.chans] at hk hless ⊢
      exact ih hinv' hb (by simp only [setDsu_dsu]; omega) (by omega)
    · rw [runUnit_of_not_busy (by simp [hd])]
      rw [← hv.frames, ← hv.chans]
      exact .inl ⟨hd, hinv'.2.2 hd⟩
    · rw [runUnit_of_not_busy (by simp [hf])]
      exact .inr hf

/-- Settles O23: a BUSY DSU has a sample left to write, and each step writes one or ends the operation. -/
theorem dsuOperationEnds : Obligations.DsuOperationEnds := by
  intro s hinv hbusy
  obtain ⟨hfr, hch, hcount, -⟩ := hinv.2.1 hbusy
  have hlast : s.dsu.ch * s.dsu.frames + s.dsu.frames ≤ s.dsu.frames * s.dsu.chans := by
    rw [← Nat.succ_mul, Nat.mul_comm]
    exact Nat.mul_le_mul_left _ hch
  exact runUnit_dsu_ends hinv hbusy (by omega) (by omega)

/-- By induction on the rows left: an event that does not end the operation leaves fewer. -/
theorem runUnit_peu_ends {k : Nat} {s : State} (hbusy : s.peu.bank.state = .busy) (hk0 : s.peu.k = 0)
    (hk : s.peu.rows ≤ s.peu.row + k) (hleft : 0 < k) :
    (runUnit .peu k s).peu.bank.state = .done ∨ (runUnit .peu k s).peu.bank.state = .fail := by
  induction k generalizing s with
  | zero => omega
  | succ k ih =>
    obtain ⟨t, hstep⟩ := stepUnit_next .peu s
    obtain ⟨v, hv, rfl⟩ := stepPeu_next hstep
    rw [runUnit_succ_of_busy (u := .peu) hbusy hstep]
    rcases hv.bank.state_cases hbusy with hb | hd | hf
    · obtain ⟨hroom, hgrows⟩ := hv.bank.runs_of_busy hb
      obtain ⟨hk0', hrow⟩ := hgrows hk0
      have hless := hroom hk0'
      rw [← hv.rows] at hk hless
      exact ih hb hk0' (by simp only [setPeu_peu]; omega) (by omega)
    · rw [runUnit_of_not_busy (by simp [hd])]
      exact .inl hd
    · rw [runUnit_of_not_busy (by simp [hf])]
      exact .inr hf

/-- Settles O34: a BUSY PEU between events has a row left, and each event takes one at least or ends the operation. -/
theorem peuOperationEnds : Obligations.PeuOperationEnds := by
  rintro s ⟨-, -, hroom⟩ hbusy hk0
  have hless := hroom hbusy hk0
  exact runUnit_peu_ends hbusy hk0 (by omega) (by omega)

end Sys2Proof.UnitSteps

/-! SUPPORT. The meanings of single tokens: the operands and effects of the LZ tokens, the value of a sample code and the
loop behind a sample, an event and its pairs; with them, the statements O7, O8, O11 to O14, O21, O22, O24, O26 and O27. -/

namespace Sys2Proof.Tokens

open Sys2Proof.Machine Sys2Proof.LzTokens Sys2Proof.Samples Sys2Proof.PatternEvents Sys2Proof.ControlBits
open Sys2Proof.RoundTrip Sys2Proof.UnitSteps

/-! ## Operands of a match (R74 to R77) -/

/-- The offset is decided by the gamma value up to its low byte, so each threshold is a gamma value's (R76). -/
theorem matchOffset_lt_iff (g : Nat) (x : Byte) (k : Nat) : matchOffset g x < -(256 * k : Int) ↔ k + 3 ≤ g := by
  have hx := x.isLt
  unfold matchOffset
  omega

theorem matchBonus_eq (g : Nat) (x : Byte) :
    matchBonus (matchOffset g x) = if g ≤ 7 then 1 else if g ≤ 127 then 2 else 3 := by
  have h8 : matchOffset g x < -1280 ↔ 8 ≤ g := matchOffset_lt_iff g x 5
  have h128 : matchOffset g x < -32000 ↔ 128 ≤ g := matchOffset_lt_iff g x 125
  unfold matchBonus
  split_ifs <;> omega

/-- A length up to 3 has the two length bits only: an extension starts at 4 (R74, R75). -/
theorem eq_short_of_lengthBase_le {len : LengthCode} (hwf : lengthCodeWf len = true) (h : lengthBase len ≤ 3) :
    len = .short (BitVec.ofNat 2 (lengthBase len)) := by
  cases len with
  | short k => rw [lengthBase, BitVec.ofNat_toNat, BitVec.setWidth_eq]
  | extended g =>
    simp only [lengthCodeWf, gammaWf, Bool.and_eq_true, decide_eq_true_eq, lengthBase] at hwf h
    omega

theorem eq_extended_of_lt_lengthBase {len : LengthCode} (h : 3 < lengthBase len) :
    len = .extended (lengthBase len - 2) := by
  cases len with
  | short k =>
    have hk := k.isLt
    simp only [lengthBase] at h
    omega
  | extended g => rfl

/-- Settles O7: the length field of L is the two bits of L up to 3, and the extension L - 2 above. -/
theorem matchLengthOperands : Obligations.MatchLengthOperands := by
  refine ⟨fun g x _ => ⟨matchOffset_lt_iff g x 5, matchOffset_lt_iff g x 125, matchBonus_eq g x⟩, fun l hlow hhigh => ?_⟩
  rcases Nat.lt_or_ge 3 l with hl | hl
  · refine ⟨.extended (l - 2), ⟨?_, Nat.sub_add_cancel (by omega)⟩, ⟨nofun, fun h => by omega⟩, ?_⟩
    · simp only [lengthCodeWf, gammaWf, Bool.and_eq_true, decide_eq_true_eq]
      omega
    · rintro len - rfl
      exact eq_extended_of_lt_lengthBase hl
  · have hvalue : (BitVec.ofNat 2 l).toNat = l := by
      rw [BitVec.toNat_ofNat]
      omega
    refine ⟨.short (BitVec.ofNat 2 l), ⟨?_, hvalue⟩, ⟨fun _ => hl, fun _ => ⟨_, rfl⟩⟩, ?_⟩
    · have hne : BitVec.ofNat 2 l ≠ 0 := fun h0 => by
        rw [h0] at hvalue
        simp at hvalue
        omega
      simpa [lengthCodeWf] using hne
    · rintro len hwf rfl
      exact eq_short_of_lengthBase_le hwf hl

/-! ## LZ tokens (R111, R113, R115, R116) -/

/-- Settles O11. -/
theorem seedCompletes : Obligations.SeedCompletes := fun b s =>
  ⟨storeSet s.lzu.out 0 b, by rw [exec_seed, lzuFinish_eq]; rfl, fun a => byteAt_storeSet _ _ 0 a b⟩

/-- Settles O12. -/
theorem litCompletes : Obligations.LitCompletes := fun b s =>
  ⟨storeSet s.lzu.out s.lzu.w b, by rw [exec_lit, lzuFinish_eq]; rfl, fun a => byteAt_storeSet _ _ s.lzu.w a b⟩

/-- CHECK passed: the copy, and DONE if it has filled the output (R119 to R121). -/
theorem lzuMatch_fits (blank : Nat → Byte) {u : Lzu} (hneg : u.off < 0) (hlow : 0 ≤ (u.w : Int) + u.off)
    (hfits : (u.len : Int) ≤ u.n - u.w) :
    ∃ m, lzuMatch blank u = { u with out := m, w := u.w + u.len, bank := doneIf (u.n ≤ u.w + u.len) u.bank } ∧
      (∀ a, a < u.w ∨ u.w + u.len ≤ a → byteAt blank m a = byteAt blank u.out a) ∧
      ∀ i, i < u.len → byteAt blank m (u.w + i) = byteAt blank m (((u.w + i : Nat) : Int) + u.off).toNat := by
  refine ⟨_, ?_, lzuCopy_outside blank u.off u.len u, lzuCopy_copied blank u.off u.len u hneg hlow⟩
  rcases lzuMatch_cases blank u with ⟨hbad, -⟩ | ⟨-, -, hlong, -⟩ | ⟨-, -, -, heq⟩
  · omega
  · omega
  · rw [heq, lzuFinish_eq, lzuCopy_eq]

/-- Settles O13: OFF and the bonus are those of R115, and CHECK and COPY do the rest. -/
theorem matchNewCompletes : Obligations.MatchNewCompletes := by
  intro g x len s off adj total hwf hlow hfits
  have hg : 3 ≤ g := by
    simp only [Instr.wf, Bool.and_eq_true, decide_eq_true_eq] at hwf
    exact hwf.1.1
  have hneg : off < 0 := matchOffset_neg x hg
  have htotal : lengthBase len + matchBonus (matchOffset g x) = total := by
    cases len <;> rfl
  obtain ⟨m, heq, hout, hcopied⟩ := lzuMatch_fits (blankBytes s .out)
    (u := { s.lzu with g := g, off := off, adj := adj, prevOff := off, len := total }) hneg hlow hfits
  refine ⟨m, ?_, hout, hcopied⟩
  rw [exec_matchNew, htotal]
  exact congrArg (fun u => Host.Outcome.next (s.setLzu u)) heq

/-- Settles O14: as O13, OFF being PREV_OFF. -/
theorem matchReuseCompletes : Obligations.MatchReuseCompletes := by
  intro len s off total _ hneg hlow hfits
  have htotal : lengthBase len = total := by
    cases len <;> rfl
  obtain ⟨m, heq, hout, hcopied⟩ := lzuMatch_fits (blankBytes s .out)
    (u := { s.lzu with g := 2, off := off, adj := 0, len := total }) hneg hlow hfits
  refine ⟨m, ?_, hout, hcopied⟩
  rw [exec_matchReuse, htotal]
  exact congrArg (fun u => Host.Outcome.next (s.setLzu u)) heq

/-! ## The value of a sample code (R79, R136) -/

/-- Truncating what stands in front of the bits first makes no difference. -/
theorem bitsValue_mod (w v : Nat) (bs : List Bool) : bitsValue (v % 2 ^ w) bs % 2 ^ w = bitsValue v bs % 2 ^ w := by
  rw [bitsValue_eq, bitsValue_eq v, Nat.add_mod, Nat.mod_mul_mod, ← Nat.add_mod]

theorem assembleBits_toNat (w : Nat) (v : BitVec w) (bs : List Bool) :
    (assembleBits w v bs).toNat = bitsValue v.toNat bs % 2 ^ w := by
  induction bs generalizing v with
  | nil => exact (Nat.mod_eq_of_lt v.isLt).symm
  | cons b bs ih => rw [assembleBits, ih, BitVec.toNat_ofNat, bitsValue_mod, bitsValue_cons]

/-- Settles O8: the raw bits are assembled behind the value bits, each step truncated. -/
theorem rawCodeValue : Obligations.RawCodeValue := by
  intro w code
  rw [rawCode, assembleBits_toNat, assembleBits_toNat, bitsValue_mod, bitsValue_eq]
  rfl

/-! ## The loop behind a sample (R131, R132, R147, R150) -/

theorem dsuInit_eq (u : Dsu) : dsuInit u = { u with dh := if u.w16 then 8 else 4, prev := 0, next := 0, prevp := 0 } := rfl

/-- Settles O21: the cases of the loop head, and the end at the last sample. -/
theorem sampleLoop : Obligations.SampleLoop := by
  intro u
  refine ⟨fun h => ?_, fun hlast hnext => ?_, fun hlast hend => ?_, fun h => ?_, fun h => ?_⟩
  · rcases dsuAdvance_cases u with ⟨-, heq⟩ | ⟨hlast, -⟩ | ⟨hlast, -⟩
    · exact heq
    · omega
    · omega
  · rcases dsuAdvance_cases u with ⟨hmore, -⟩ | ⟨-, -, hreset, heq⟩ | ⟨-, hreset, heq⟩
    · omega
    · rw [heq, if_pos hreset, dsuInit_eq]
    · rw [heq, if_neg (Bool.eq_false_iff.mp (hreset hnext))]
  · rcases dsuAdvance_cases u with ⟨hmore, -⟩ | ⟨-, hnext, -⟩ | ⟨-, -, heq⟩
    · omega
    · omega
    · rw [heq, hend]
  · rw [dsuFinish_eq, doneIf, if_neg (Nat.not_le.mpr h)]
  · rw [dsuFinish_eq, doneIf, if_pos h.ge]

theorem wrapS_of_range {n : Nat} (hn : 1 ≤ n) {x : Int} (hlow : -(2 ^ (n - 1) : Int) ≤ x)
    (hhigh : x < (2 ^ (n - 1) : Int)) : wrapS n x = x := by
  have hhalf : (2 * 2 ^ (n - 1) : Int) = (2 ^ n : Nat) := by exact_mod_cast mul_pow_sub_one (by omega) 2
  exact Int.bmod_eq_of_le (by omega) (by omega)

/-- PREV behind a sample is the loop head's: 0 in a fresh context of a next channel, else as it was (R132). -/
theorem dsuAdvance_prev (u : Dsu) :
    (dsuAdvance u).prev =
      if u.frames ≤ u.fr + 1 ∧ u.ch + 1 < u.chans ∧ Config.deltaChannelReset = true then 0 else u.prev := by
  rcases dsuAdvance_cases u with ⟨hmore, heq⟩ | ⟨hlast, hnext, hreset, heq⟩ | ⟨-, hreset, heq⟩
  · rw [heq, if_neg (by omega)]
  · rw [heq, if_pos ⟨hlast, hnext, hreset⟩, dsuInit_prev]
  · rw [heq, if_neg]
    rintro ⟨-, hnext, htrue⟩
    exact absurd htrue (Bool.eq_false_iff.mp (hreset hnext))

/-- Settles O22: the raw code 1 is the delta 0, and PREV in its range is its own wrap. -/
theorem zeroDeltaKeepsPrev : Obligations.ZeroDeltaKeepsPrev := by
  intro w16 code s w j hcode hlow hhigh
  have hdelta : deltaOf (rawCode (widthOf w16) code) = 0 := by
    rw [show rawCode (widthOf w16) code = 1 from hcode]
    cases w16 <;> rfl
  have hout : wrapS (widthOf w16) (s.dsu.prev + deltaOf (rawCode (widthOf w16) code)) = s.dsu.prev := by
    rw [hdelta, Int.add_zero]
    exact wrapS_of_range (widthOf_pos w16) hlow hhigh
  have hbyte (a : Nat) := byteAt_putSample_width (blankBytes s .smp) w16 s.dsu.smp j s.dsu.prev a
  refine ⟨_, exec_plain w16 code s, ?_, ?_⟩
  · have hsmp (a : Nat) : (s.setDsu (samplePlain (widthOf w16) code s.dsu)).byte .smp a =
        byteAt (blankBytes s .smp) (putSample (widthOf w16) s.dsu.smp j s.dsu.prev) a := by
      have hput : (samplePlain (widthOf w16) code s.dsu).smp = putSample (widthOf w16) s.dsu.smp j s.dsu.prev := by
        rw [samplePlain_eq, dsuFinish_eq]
        simp only [dsuAdvance_smp, hout]
        rfl
      rw [← hput]
      rfl
    rw [hsmp, hsmp, hsmp, hbyte, hbyte, hbyte]
    cases w16 <;> simp
  · rw [setDsu_dsu, samplePlain_eq, dsuFinish_eq]
    simp only [dsuAdvance_prev, hout]

/-! ## An event and its pairs (R162 to R166) -/

/-- Settles O24: END sets DONE and CB. -/
theorem evtEndCompletes : Obligations.EvtEndCompletes := fun _ => rfl

/-- Running the pairs' instructions one by one is applying the pairs to the unit one by one (R165, R166). -/
theorem foldl_exec_pairInstr {run : Host.Outcome State Fault Refusal → Byte × Byte → Host.Outcome State Fault Refusal}
    (hrun : ∀ t p, run (.next t) p = exec (pairInstr p.1 p.2) t) (pairs : List (Byte × Byte)) (s : State) :
    pairs.foldl run (.next s) = .next (s.setPeu (pairs.foldl applyPair s.peu)) := by
  induction pairs generalizing s with
  | nil => rfl
  | cons p ps ih =>
    rw [List.foldl_cons, hrun, exec_pairInstr, ih]
    rfl

/-- Settles O26, by induction on the pairs. -/
theorem evtIsItsPairs : Obligations.EvtIsItsPairs := fun rep pairs s =>
  (foldl_exec_pairInstr (fun _ _ => rfl) pairs (s.setPeu (beginEvent rep pairs.length s.peu))).symm

/-- Settles O27: the three cases of a counted pair; the last one is the end of the event. -/
theorem pairCounting : Obligations.PairCounting := by
  intro u blank
  refine ⟨fun h => ?_, fun h => ?_, fun h => ?_⟩
  · rcases pairDone_cases u with ⟨-, heq⟩ | ⟨hone, -⟩ | ⟨k, hmore, -⟩
    · exact heq
    · omega
    · omega
  · rcases pairDone_cases u with ⟨hzero, -⟩ | ⟨hone, -⟩ | ⟨k, hmore, heq⟩
    · omega
    · omega
    · rw [heq, hmore]
      rfl
  · refine ⟨putRows u.rows u.wcell u.row (repSpan (u.cb.toNat / 16)) u.cells, ?_, cellAt_putRows _ _ _ _ _ _⟩
    rcases pairDone_cases u with ⟨hzero, -⟩ | ⟨-, heq⟩ | ⟨k, hmore, -⟩
    · omega
    · rw [heq, endEvent_eq]
      rfl
    · omega

end Sys2Proof.Tokens

/-! SUPPORT. What the host does to the block (spec/60_exceptions.md, spec/10_state.md section 4): START of each unit,
register accesses, accesses to the spaces, reset; with them, the statements O36 to O39 and O41 to O48. -/

namespace Sys2Proof.HostBus

open Sys2Proof.Machine Sys2Proof.RoundTrip

/-! ## START (R110, R130, R160, R211) -/

theorem exec_hostStart_busy {u : UnitId} {s : State} (h : (bankState s u).state = .busy) :
    exec (.hostStart u) s = .next s := congrArg Host.Outcome.next (if_pos h)

theorem exec_hostStart_lzu {s : State} (h : s.lzu.bank.state ≠ .busy) :
    exec (.hostStart .lzu) s = .next (s.setLzu (lzuStart s.lzu)) := congrArg Host.Outcome.next (if_neg h)

theorem exec_hostStart_dsu {s : State} (h : s.dsu.bank.state ≠ .busy) :
    exec (.hostStart .dsu) s = .next (s.setDsu (dsuStart s.dsu)) := congrArg Host.Outcome.next (if_neg h)

theorem exec_hostStart_peu {s : State} (h : s.peu.bank.state ≠ .busy) :
    exec (.hostStart .peu) s = .next (s.setPeu (peuStart s.peu)) := congrArg Host.Outcome.next (if_neg h)

/-- An LZU start is invalid, of length 0, or legal. -/
theorem lzuStart_cases (u : Lzu) :
    let bad := Config.inCap.val < u.bank.inLen.toNat ∨ Config.outCap.val < u.bank.outLen.toNat
    let u0 : Lzu := { u with bank := beginOperation u.bank, w := 0, outPre := u.out }
    (bad ∧ lzuStart u = lzuFail u0 .configInvalid) ∨
    (¬bad ∧ u.bank.outLen.toNat = 0 ∧ lzuStart u = lzuFail { u0 with n := u.bank.outLen.toNat } .zeroLength) ∨
    (¬bad ∧ u.bank.outLen.toNat ≠ 0 ∧
      lzuStart u = { u0 with n := u.bank.outLen.toNat, prevOff := 0, cbd := cbdStart }) := by
  intro bad u0
  unfold lzuStart
  dsimp only
  split
  · exact .inl ⟨‹_›, rfl⟩
  · split
    · exact .inr (.inl ⟨‹_›, ‹_›, rfl⟩)
    · exact .inr (.inr ⟨‹_›, ‹_›, rfl⟩)

/-- C, the number of channels in CONFIG (R31). -/
def channels (b : Bank) : Nat := (b.config.extractLsb' 8 8).toNat

theorem channels_eq (b : Bank) : channels b = b.config.toNat / 256 % 256 := by
  rw [channels, BitVec.extractLsb'_toNat, Nat.shiftRight_eq_div_pow]

/-- What every DSU start latches first (R130, R236). -/
def dsuLatch (u : Dsu) : Dsu :=
  { u with
    bank := beginOperation u.bank, smpPre := u.smp, count := 0
    w16 := u.bank.config.getLsbD 0, pred := u.bank.config.getLsbD 1
    chans := channels u.bank, frames := u.bank.outLen.toNat }

/-- A DSU start is invalid, of no sample, or has samples to write. -/
theorem dsuStart_cases (u : Dsu) :
    let bad := Config.inCap.val < u.bank.inLen.toNat ∨ Config.smpCap.val < u.bank.outLen.toNat * channels u.bank
    let u1 := dsuInit { dsuLatch u with cbd := cbdStart, ch := 0, fr := 0 }
    (bad ∧ dsuStart u = dsuFail (dsuLatch u) .configInvalid) ∨
    (¬bad ∧ (u.bank.outLen.toNat = 0 ∨ channels u.bank = 0) ∧ dsuStart u = { u1 with bank := complete u1.bank }) ∨
    (¬bad ∧ ¬(u.bank.outLen.toNat = 0 ∨ channels u.bank = 0) ∧ dsuStart u = u1) := by
  intro bad u1
  unfold dsuStart
  dsimp only
  split
  · exact .inl ⟨‹_›, rfl⟩
  · split
    · exact .inr (.inl ⟨‹_›, ‹_›, rfl⟩)
    · exact .inr (.inr ⟨‹_›, ‹_›, rfl⟩)

/-- What every PEU start latches first (R160, R236). -/
def peuLatch (u : Peu) : Peu :=
  { u with
    bank := beginOperation u.bank, cellsPre := u.cells, cellsStart := u.cells, row := 0, k := 0
    rows := u.bank.outLen.toNat, dialect := dialectOf (u.bank.config.setWidth 2) }

/-- A PEU start is invalid, of no row, or has rows to write. -/
theorem peuStart_cases (u : Peu) :
    let bad := Config.inCap.val < u.bank.inLen.toNat ∨ Config.cellCap.val < u.bank.outLen.toNat
    let cleared := clearRows u.cells u.bank.outLen.toNat
    let u1 : Peu := { peuLatch u with cells := cleared, cellsStart := cleared }
    (bad ∧ peuStart u = peuFail (peuLatch u) .configInvalid) ∨
    (¬bad ∧ u.bank.outLen.toNat = 0 ∧ peuStart u = { u1 with bank := complete u1.bank }) ∨
    (¬bad ∧ u.bank.outLen.toNat ≠ 0 ∧ peuStart u = u1) := by
  intro bad cleared u1
  unfold peuStart
  dsimp only
  split
  · exact .inl ⟨‹_›, rfl⟩
  · split
    · exact .inr (.inl ⟨‹_›, ‹_›, rfl⟩)
    · exact .inr (.inr ⟨‹_›, ‹_›, rfl⟩)

theorem word_eq_zero_iff (v : Word) : v = 0 ↔ v.toNat = 0 := by
  rw [← BitVec.toNat_inj]
  rfl

/-- Settles O36: the three cases of a start that is not ignored. -/
theorem lzuStartCompletes : Obligations.LzuStartCompletes := by
  intro s b bad
  by_cases hbusy : b.state = .busy
  · rw [if_pos hbusy]
    exact exec_hostStart_busy (u := .lzu) hbusy
  · rw [if_neg hbusy, exec_hostStart_lzu hbusy]
    simp only [word_eq_zero_iff]
    rcases lzuStart_cases s.lzu with ⟨hbad, heq⟩ | ⟨hok, hzero, heq⟩ | ⟨hok, hpos, heq⟩
    · have hb : bad := hbad
      rw [heq]
      simp only [hb, true_or, if_true]
      rfl
    · have hb : ¬bad := hok
      have hz : b.outLen.toNat = 0 := hzero
      have hfail : bad ∨ b.outLen.toNat = 0 := .inr hz
      rw [heq]
      simp only [if_neg hb, if_pos hz, if_pos hfail]
      rfl
    · have hb : ¬bad := hok
      have hp : b.outLen.toNat ≠ 0 := hpos
      rw [heq]
      simp only [hb, hp, or_self, if_false]
      rfl

/-- Settles O37: the three cases of a start that is not ignored. -/
theorem dsuStartCompletes : Obligations.DsuStartCompletes := by
  intro s b frames chans wide bad
  have hchans : channels s.dsu.bank = chans := channels_eq _
  by_cases hbusy : b.state = .busy
  · rw [if_pos hbusy]
    exact exec_hostStart_busy (u := .dsu) hbusy
  · rw [if_neg hbusy, exec_hostStart_dsu hbusy]
    have hcases := dsuStart_cases s.dsu
    simp only [dsuLatch, hchans] at hcases
    rcases hcases with ⟨hbad, heq⟩ | ⟨hok, hnone, heq⟩ | ⟨hok, hsome, heq⟩
    · have hb : bad := hbad
      rw [heq]
      simp only [hb, if_true]
      rfl
    · have hb : ¬bad := hok
      have hn : frames = 0 ∨ chans = 0 := hnone
      rw [heq]
      simp only [hb, hn, if_true, if_false]
      rfl
    · have hb : ¬bad := hok
      have hn : ¬(frames = 0 ∨ chans = 0) := hsome
      rw [heq]
      simp only [hb, hn, if_false]
      rfl

/-- DIALECT is the two low bits of CONFIG (R31, R161). -/
theorem dialectOf_config (config : Word) :
    dialectOf (config.setWidth 2) =
      if config.toNat % 4 = 0 then .it else if config.toNat % 4 = 1 then .s3m
      else if config.toNat % 4 = 2 then .xm else .mod := by
  have hfield (k : Nat) (hk : k < 4) : config.setWidth 2 = BitVec.ofNat 2 k ↔ config.toNat % 4 = k := by
    rw [← BitVec.toNat_inj, BitVec.toNat_setWidth, BitVec.toNat_ofNat]
    omega
  unfold dialectOf
  simp only [show (0 : BitVec 2) = BitVec.ofNat 2 0 from rfl, show (1 : BitVec 2) = BitVec.ofNat 2 1 from rfl,
    show (2 : BitVec 2) = BitVec.ofNat 2 2 from rfl, hfield 0 (by decide), hfield 1 (by decide), hfield 2 (by decide)]

/-- Settles O38: the three cases of a start that is not ignored; only a legal one clears rows. -/
theorem peuStartCompletes : Obligations.PeuStartCompletes := by
  intro s b rows d bad
  refine ⟨exec_hostStart_busy (u := .peu), fun hbusy => ?_⟩
  have hdialect := dialectOf_config b.config
  rw [exec_hostStart_peu hbusy]
  rcases peuStart_cases s.peu with ⟨hbad, heq⟩ | ⟨hok, hzero, heq⟩ | ⟨hok, hpos, heq⟩
  · have hb : bad := hbad
    refine ⟨s.peu.cells, ?_, fun r => ?_⟩
    · rw [heq]
      simp only [hb, if_true, d, ← hdialect]
      rfl
    · simp only [hb, not_true, false_and, if_false]
      rfl
  · have hb : ¬bad := hok
    have hz : rows = 0 := hzero
    refine ⟨clearRows s.peu.cells rows, ?_, fun r => ?_⟩
    · rw [heq]
      simp only [if_neg hb, if_pos hz, d, ← hdialect]
      rfl
    · rw [cellAt_clearRows]
      simp only [hb, not_false_eq_true, true_and]
      rfl
  · have hb : ¬bad := hok
    have hp : rows ≠ 0 := hpos
    refine ⟨clearRows s.peu.cells rows, ?_, fun r => ?_⟩
    · rw [heq]
      simp only [hb, hp, if_false, d, ← hdialect]
      rfl
    · rw [cellAt_clearRows]
      simp only [hb, not_false_eq_true, true_and]
      rfl

/-- A START makes the same of two banks whose written registers agree (R211, R214). -/
theorem beginOperation_congr {b b' : Bank} (hin : b.inLen = b'.inLen) (hout : b.outLen = b'.outLen)
    (hconfig : b.config = b'.config) : beginOperation b = beginOperation b' := by
  simp only [beginOperation, hin, hout, hconfig]

/-- Settles O39: every case of a start, and what it sets, depends on the written registers and the output space. -/
theorem startForgetsOldContext : Obligations.StartForgetsOldContext := by
  refine ⟨fun u v hin hout hconfig hinput hspace => ?_, fun u v hin hout hconfig hinput hspace => ?_,
    fun u v hin hout hconfig hinput hspace => ?_⟩
  · simp only [lzuStart, beginOperation_congr hin hout hconfig, hin, hout, hspace]
    split_ifs
    · exact ⟨rfl, rfl, .inl rfl⟩
    · exact ⟨rfl, rfl, .inl rfl⟩
    · exact ⟨rfl, rfl, .inr (by rw [hinput])⟩
  · have hchans : channels u.bank = channels v.bank := congrArg (fun c => (c.extractLsb' 8 8).toNat) hconfig
    have hu := dsuStart_cases u
    have hv := dsuStart_cases v
    simp only [hin, hout, hchans] at hu hv
    have hlatch := beginOperation_congr hin hout hconfig
    rcases hu with ⟨hbad, hu⟩ | ⟨hok, hnone, hu⟩ | ⟨hok, hsome, hu⟩
    · simp only [hbad, not_true, true_and, false_and, or_false] at hv
      simp only [hu, hv, dsuFail, dsuLatch, hlatch, true_and]
      exact .inl rfl
    · simp only [hok, hnone, not_true, not_false_eq_true, true_and, false_and, false_or, or_false] at hv
      simp only [hu, hv, dsuInit, dsuLatch, hlatch, hout, hconfig, hchans, hinput, hspace, or_true, and_self]
    · simp only [hok, hsome, not_false_eq_true, true_and, false_and, false_or] at hv
      simp only [hu, hv, dsuInit, dsuLatch, hlatch, hout, hconfig, hchans, hinput, hspace, or_true, and_self]
  · simp only [peuStart, beginOperation_congr hin hout hconfig, hin, hout, hconfig, hspace]
    split_ifs
    · exact ⟨rfl, rfl, by simp only [peuFail, hinput]⟩
    · exact ⟨rfl, rfl, by rw [hinput]⟩
    · exact ⟨rfl, rfl, by rw [hinput]⟩

/-! ## Registers (R25 to R34, R201, R212) -/

theorem stateCode_lt (st : RunState) : stateCode st < 4 := by cases st <;> decide

theorem causeCode_lt (c : Cause) : causeCode c < 7 := by cases c <;> decide

/-- Settles O41: both codes fit their fields. -/
theorem statusWordLayout : Obligations.StatusWordLayout := by
  intro s u word b
  have hstate := stateCode_lt b.state
  have hcause := causeCode_lt b.cause
  refine ⟨?_, hstate, hcause, ⟨rfl, rfl, rfl, rfl⟩, rfl, rfl, rfl, rfl, rfl, rfl, rfl⟩
  change (BitVec.ofNat 32 (causeCode b.cause * 16 + stateCode b.state)).toNat = _
  rw [BitVec.toNat_ofNat]
  omega

/-- A word write within a bank that is no START decodes to no instruction (R26, R211). -/
theorem decodeHost_bank_none (u : UnitId) {reg : Nat} {value : Word} (h : reg < 0x40)
    (hctrl : reg = 0 → value.getLsbD 0 = false) : decodeHost (.writeReg (bankBase u + reg) 4 value) = none := by
  rw [Option.eq_none_iff_forall_ne_some]
  intro i hi
  obtain ⟨-, v, hbank, hbit, -⟩ := (decodeHost_writeReg_iff _ _ _ _).mp hi
  rw [bankOf_base u h] at hbank
  cases hbank
  rw [hctrl rfl] at hbit
  cases hbit

theorem decodeHost_ctrl (u : UnitId) {value : Word} (h : value.getLsbD 0 = true) :
    decodeHost (.writeReg (bankBase u + 0) 4 value) = some (.hostStart u) :=
  (decodeHost_writeReg_iff _ _ _ _).mpr ⟨wordAccess_base u rfl, u, bankOf_base u (by decide), h, rfl⟩

theorem stepHost_access {s : State} {op : HostOp} {rest : List HostOp} (h : decodeHost op = none) :
    stepHost { s with host := op :: rest } = hostAccess op { s with host := rest } := by
  simp only [stepHost, h]
  rfl

theorem stepHost_instr {s : State} {op : HostOp} {rest : List HostOp} {i : Instr} (h : decodeHost op = some i) :
    stepHost { s with host := op :: rest } = exec i { s with host := rest } := by
  simp only [stepHost, h]
  rfl

theorem bankState_withHost (s : State) (l : List HostOp) (u : UnitId) :
    bankState { s with host := l } u = bankState s u := by
  cases u <;> rfl

/-- A write that leaves its bank as it is leaves the state as it is. -/
theorem stepHost_write_ignored {s : State} {u : UnitId} {reg : Nat} {value : Word} (h : reg < 0x40) (h4 : reg % 4 = 0)
    (hctrl : reg = 0 → value.getLsbD 0 = false) (hkeeps : writeRegister u (bankState s u) reg value = bankState s u) :
    stepHost { s with host := [.writeReg (bankBase u + reg) 4 value] } = .next { s with host := [] } := by
  rw [stepHost_access (decodeHost_bank_none u h hctrl), hostAccess_writeReg _ u value h h4, bankState_withHost, hkeeps,
    ← bankState_withHost s [] u, setBank_bankState]

/-- Settles O42: a START while BUSY is ignored, and so is a write that sets no register. -/
theorem ignoredRegisterWrites : Obligations.IgnoredRegisterWrites := by
  intro s u reg value h h4
  refine ⟨fun hbusy => ?_, fun hin hout hconfig hctrl => ?_⟩
  · by_cases hstart : reg = 0 ∧ value.getLsbD 0 = true
    · obtain ⟨rfl, hbit⟩ := hstart
      rw [stepHost_instr (decodeHost_ctrl u hbit)]
      exact exec_hostStart_busy ((congrArg Bank.state (bankState_withHost s [] u)).trans hbusy)
    · refine stepHost_write_ignored h h4 (fun h0 => ?_) ?_
      · exact Bool.eq_false_iff.mpr fun hbit => hstart ⟨h0, hbit⟩
      · exact if_pos hbusy
  · refine stepHost_write_ignored h h4 hctrl ?_
    rcases writeRegister_cases u (bankState s u) reg value with heq | ⟨-, hreg, -⟩ | ⟨-, hreg, -⟩ | ⟨-, hreg, -⟩
    · exact heq
    · exact absurd hreg hin
    · exact absurd hreg hout
    · exact absurd hreg hconfig

theorem outPos_setBank (s : State) (u v : UnitId) (b : Bank) : outPos (setBank s u b) v = outPos s v := by
  cases u <;> cases v <;> rfl

/-- What a bank's registers read as, its own output position apart. -/
theorem readRegister_setBank (s : State) (u : UnitId) (b : Bank) (reg : Nat) :
    readRegister (setBank s u b) u reg =
      if reg = 0x04 then statusWord b else if reg = 0x08 then b.inLen else if reg = 0x0C then b.outLen
      else if reg = 0x10 then b.config else if reg = 0x14 then BitVec.ofNat 32 b.ip
      else if reg = 0x18 then BitVec.ofNat 32 (outPos s u) else 0 := by
  simp only [readRegister, bankState_setBank, outPos_setBank]

theorem readRegister_setBank_ne {s : State} {u v : UnitId} (b : Bank) (h : v ≠ u) (reg : Nat) :
    readRegister (setBank s u b) v reg = readRegister s v reg := by
  simp only [readRegister, bankState_setBank_ne s b h, outPos_setBank]

/-- Two banks of a unit that differ in no register but `reg` read alike elsewhere, in every bank. -/
theorem readRegister_setBank_of_eq {s : State} {u : UnitId} {b : Bank} {reg : Nat}
    (h : ∀ r, r ≠ reg → readRegister (setBank s u b) u r = readRegister s u r) :
    ∀ v r, v ≠ u ∨ r ≠ reg → readRegister (setBank s u b) v r = readRegister s v r := by
  intro v r hne
  by_cases hv : v = u
  · subst hv
    exact h r (hne.resolve_left (absurd rfl))
  · exact readRegister_setBank_ne b hv r

/-- The bits of CONFIG that exist in each bank (R30, R31). -/
theorem configMask_getLsbD (u : UnitId) {k : Nat} (hk : k < 32) :
    (configMask u).getLsbD k =
      match u with
      | .lzu => false
      | .dsu => k == 0 || k == 1 || (8 ≤ k && k ≤ 15)
      | .peu => k == 0 || k == 1 := by
  revert k
  cases u <;> decide

/-- Settles O43: the write sets one field of the bank, and no other register reads it. -/
theorem registerWriteReadBack : Obligations.RegisterWriteReadBack := by
  intro s u value hbusy
  have hread (reg : Nat) := readRegister_setBank s u (bankState s u) reg
  rw [setBank_bankState] at hread
  refine ⟨⟨_, rfl, ?_, ?_, readRegister_setBank_of_eq fun r hr => ?_⟩, ⟨_, rfl, ?_, ?_,
    readRegister_setBank_of_eq fun r hr => ?_⟩, value &&& configMask u, _, rfl, ?_, ?_,
    readRegister_setBank_of_eq fun r hr => ?_, fun k hk => ?_⟩
  · rw [hostAccess_writeReg s u value (by decide) (by decide), writeRegister, if_neg hbusy]
    rfl
  · rw [readRegister_setBank]
    rfl
  · rw [readRegister_setBank, hread]
    simp only [if_neg hr]
    rfl
  · rw [hostAccess_writeReg s u value (by decide) (by decide), writeRegister, if_neg hbusy]
    rfl
  · rw [readRegister_setBank]
    rfl
  · rw [readRegister_setBank, hread]
    simp only [if_neg hr]
    rfl
  · rw [hostAccess_writeReg s u value (by decide) (by decide), writeRegister, if_neg hbusy]
    rfl
  · rw [readRegister_setBank]
    rfl
  · rw [readRegister_setBank, hread]
    simp only [if_neg hr]
    rfl
  · exact BitVec.getLsbD_and.trans (congrArg _ (configMask_getLsbD u hk))

theorem reply_setBank (s : State) (u : UnitId) (b : Bank) (r : Reply) :
    (setBank s u b).reply r = setBank { s with replies := r :: s.replies } u b := by
  cases u <;> rfl

theorem bankOf_above {offset : Nat} (h : 0xC0 ≤ offset) : bankOf offset = none := by
  rw [bankOf, if_neg (by omega), if_neg (by omega), if_neg (by omega)]

/-- Settles O44: a read replies the register's word and notes a STATUS read; above the window there is no bank. -/
theorem registerReadsOnlyReply : Obligations.RegisterReadsOnlyReply := by
  refine ⟨fun s u reg h h4 => ⟨_, ?_, rfl⟩, fun s u => ⟨rfl, rfl, rfl, rfl, ?_, fun reg hreg => ?_⟩,
    fun s offset value h h4 => ?_⟩
  · rw [hostAccess_readReg s u h h4, noteStatusRead_eq, reply_setBank]
    rfl
  · cases u <;> rfl
  · simp only [readRegister]
    rw [if_neg (by omega), if_neg (by omega), if_neg (by omega), if_neg (by omega), if_neg (by omega),
      if_neg (by omega)]
  · have hword : wordAccess offset 4 = true := by simp [wordAccess, h4]
    constructor
    · simp only [hostAccess, hostReadReg, hword, bankOf_above h, if_true]
      rfl
    · simp only [hostAccess, hostWriteReg, hword, bankOf_above h, if_true]

/-- Settles O45: such an access is no START and no word. -/
theorem malformedRegisterAccessRefused : Obligations.MalformedRegisterAccessRefused := by
  intro s offset bytes value h
  have hword : wordAccess offset bytes = false := by
    rcases h with h | h <;> simp [wordAccess, h]
  have hnone : decodeHost (.writeReg offset bytes value) = none := by simp [decodeHost, hword]
  constructor
  · rw [stepHost_access rfl]
    simp [hostAccess, hostReadReg, hword]
  · rw [stepHost_access hnone]
    simp [hostAccess, hostWriteReg, hword]

/-! ## Spaces (R55, R57, R60, R233, R234) -/

theorem byteAt_storeSet_self (blank : Nat → Byte) (m : Store Byte) (a : Nat) (b : Byte) :
    byteAt blank (storeSet m a b) a = b := (byteAt_storeSet ..).trans (if_pos rfl)

theorem cellAt_storeSet_self (blank : Nat → Cell) (m : Store Cell) (a : Nat) (c : Cell) :
    cellAt blank (storeSet m a c) a = c := (cellAt_storeSet ..).trans (if_pos rfl)

/-- An index has a place in the space, or there is none. -/
theorem ite_le_eq_ite_lt {α : Type} (cap index : Nat) (x y : α) :
    (if cap ≤ index then x else y) = if index < cap then y else x := by
  rcases Nat.lt_or_ge index cap with h | h
  · rw [if_neg (Nat.not_le.mpr h), if_pos h]
  · rw [if_pos h, if_neg (Nat.not_lt.mpr h)]

/-- A host write into one of the byte or cell spaces: out of range, refused while BUSY, or done (R57, R233, R234). -/
theorem hostAccess_writeIn (u : UnitId) (index : Nat) (b : Byte) (s : State) :
    hostAccess (.writeIn u index b) s =
      if index < Config.inCap.val then
        (if (bankState s u).state = .busy then .refused (.busyWrite (inSpace u) index) else .next (hostPutIn u index b s))
      else .fault (.noSuchAddress (inSpace u) index) := ite_le_eq_ite_lt ..

theorem hostAccess_writeOut (index : Nat) (b : Byte) (s : State) :
    hostAccess (.writeOut index b) s =
      if index < Config.outCap.val then
        (if s.lzu.bank.state = .busy then .refused (.busyWrite .out index)
         else .next (s.setLzu { s.lzu with out := storeSet s.lzu.out index b, outPre := storeSet s.lzu.outPre index b }))
      else .fault (.noSuchAddress .out index) := ite_le_eq_ite_lt ..

theorem hostAccess_writeSmp (index : Nat) (b : Byte) (s : State) :
    hostAccess (.writeSmp index b) s =
      if index < smpBytes s then
        (if s.dsu.bank.state = .busy then .refused (.busyWrite .smp index)
         else .next (s.setDsu { s.dsu with smp := storeSet s.dsu.smp index b, smpPre := storeSet s.dsu.smpPre index b }))
      else .fault (.noSuchAddress .smp index) := ite_le_eq_ite_lt ..

theorem hostAccess_writeCell (row : Nat) (c : Cell) (s : State) :
    hostAccess (.writeCell row c) s =
      if row < Config.cellCap.val then
        (if s.peu.bank.state = .busy then .refused (.busyWrite .cell row)
         else .next (s.setPeu
          { s.peu with
            cells := storeSet s.peu.cells row c, cellsPre := storeSet s.peu.cellsPre row c
            cellsStart := storeSet s.peu.cellsStart row c }))
      else .fault (.noSuchAddress .cell row) := ite_le_eq_ite_lt ..

theorem byte_hostPutIn_self (u : UnitId) (index : Nat) (b : Byte) (s : State) :
    (hostPutIn u index b s).byte (inSpace u) index = b := by
  cases u <;> exact byteAt_storeSet_self ..

/-- Settles O46: what was written is what every copy of the space holds at the place, so every read gives it. -/
theorem hostSpaceWrites : Obligations.HostSpaceWrites := by
  refine ⟨fun s index b c => ⟨fun u h => ?_, fun h => ?_, fun h => ?_, fun h => ?_⟩, fun s u index b h => ?_,
    fun s index b h => ?_, fun s index b h => ?_, fun s row c h => ?_⟩
  · rw [hostAccess_writeIn, if_pos h]
  · rw [hostAccess_writeOut, if_pos h]
  · rw [hostAccess_writeSmp, if_pos h]
  · rw [hostAccess_writeCell, if_pos h]
  · refine ⟨storeSet (spaceBytes s (inSpace u)) index b, ?_⟩
    intro t
    have ht : t = hostPutIn u index b s := by cases u <;> rfl
    refine ⟨by rw [hostAccess_writeIn, if_neg h, ht], fun a => byteAt_storeSet .., ?_⟩
    rw [ht]
    exact if_congr Iff.rfl
      (congrArg (fun x => Host.Outcome.next ((hostPutIn u index b s).reply (.byte x))) (byte_hostPutIn_self u index b s))
      rfl
  · let t : State := { s with
      lzu := { s.lzu with out := storeSet s.lzu.out index b, outPre := storeSet s.lzu.outPre index b } }
    obtain ⟨x, d, hread, hx, -⟩ := hostReadBytes_eq .out t.lzu.bank t.lzu.outPre index t
    have hxb : x = b := hx.elim (·.trans (byteAt_storeSet_self ..)) (·.trans (byteAt_storeSet_self ..))
    refine ⟨t.lzu.out, t.lzu.outPre, d, ?_, fun a => byteAt_storeSet .., fun a => byteAt_storeSet .., ?_⟩
    · rw [hostAccess_writeOut, if_neg h]
      rfl
    · rw [← hxb]
      exact if_congr Iff.rfl (congrArg Host.Outcome.next hread) rfl
  · let t : State := { s with
      dsu := { s.dsu with smp := storeSet s.dsu.smp index b, smpPre := storeSet s.dsu.smpPre index b } }
    obtain ⟨x, d, hread, hx, -⟩ := hostReadBytes_eq .smp t.dsu.bank t.dsu.smpPre index t
    have hxb : x = b := hx.elim (·.trans (byteAt_storeSet_self ..)) (·.trans (byteAt_storeSet_self ..))
    refine ⟨t.dsu.smp, t.dsu.smpPre, d, ?_, fun a => byteAt_storeSet .., fun a => byteAt_storeSet .., ?_⟩
    · rw [hostAccess_writeSmp, if_neg h]
      rfl
    · rw [← hxb]
      exact if_congr Iff.rfl (congrArg Host.Outcome.next hread) rfl
  · let t : State := { s with
      peu := { s.peu with
        cells := storeSet s.peu.cells row c, cellsPre := storeSet s.peu.cellsPre row c
        cellsStart := storeSet s.peu.cellsStart row c } }
    obtain ⟨x, d, hread, hx, -⟩ := hostReadRow_eq row t
    have hxc : x = c := by
      rcases hx with hx | hx | hx <;> exact hx.trans (cellAt_storeSet_self ..)
    refine ⟨t.peu.cells, t.peu.cellsPre, t.peu.cellsStart, d, ?_, fun a => cellAt_storeSet ..,
      fun a => cellAt_storeSet .., fun a => cellAt_storeSet .., ?_⟩
    · rw [hostAccess_writeCell, if_neg h]
      rfl
    · rw [← hxc]
      exact if_congr Iff.rfl (congrArg Host.Outcome.next hread) rfl

theorem setBank_seen_reply (u : UnitId) (s : State) : (setBank s u { bankState s u with seen := true }).reply
    (.word (readRegister s u 0x04)) = afterEndSeen u s := by
  cases u <;> rfl

/-- The host's reads of spaces, once the choice of R60 is named. -/
theorem synced_iff (b : Bank) : synced b = true ↔ b.seen = true ∧ b.state ≠ .busy := by
  simp [synced]

/-- Settles O47: the STATUS read sets the mark, and each read gives one of the values the mark leaves open. -/
theorem hostSpaceReads : Obligations.HostSpaceReads := by
  refine ⟨fun s u hended => ?_, fun s a => ⟨?_, ?_, ?_, fun u => rfl⟩⟩
  · have hfinished : finished (bankState s u) = true := by
      rcases hended with h | h <;> rw [finished, h] <;> rfl
    have hstate : bankState (afterEndSeen u s) u = { bankState s u with seen := true } := bankState_setBank _ u _
    refine ⟨?_, ?_, ?_, fun v hne => ?_, fun space a => ?_, fun r => ?_⟩
    · rw [hostAccess_readReg s u (by decide) (by decide), noteStatusRead, if_pos ⟨rfl, hfinished⟩, setBank_seen_reply]
    · rw [hstate]
    · rw [hstate]
      rcases hended with h | h <;> rw [h] <;> decide
    · cases u <;> cases v <;> first | rfl | exact absurd rfl hne
    · cases u <;> cases space <;> rfl
    · cases u <;> rfl
  · obtain ⟨x, d, hread, hx, hsynced⟩ := hostReadBytes_eq .out s.lzu.bank s.lzu.outPre a s
    exact ⟨x, d, if_congr Iff.rfl (congrArg Host.Outcome.next hread) rfl, hx,
      fun hseen hstate => hsynced ((synced_iff _).mpr ⟨hseen, hstate⟩)⟩
  · obtain ⟨x, d, hread, hx, hsynced⟩ := hostReadBytes_eq .smp s.dsu.bank s.dsu.smpPre a s
    exact ⟨x, d, if_congr Iff.rfl (congrArg Host.Outcome.next hread) rfl, hx,
      fun hseen hstate => hsynced ((synced_iff _).mpr ⟨hseen, hstate⟩)⟩
  · obtain ⟨x, d, hread, hx, hsynced⟩ := hostReadRow_eq a s
    exact ⟨x, d, if_congr Iff.rfl (congrArg Host.Outcome.next hread) rfl, hx,
      fun hseen hstate => hsynced ((synced_iff _).mpr ⟨hseen, hstate⟩)⟩

/-! ## Reset (R43, R230) -/

/-- A unit reset has nothing in its registers (R43). -/
theorem readRegister_of_reset {s : State} {u : UnitId} (hbank : bankState s u = resetBank) (hpos : outPos s u = 0)
    (reg : Nat) : readRegister s u reg = 0 := by
  simp only [readRegister, hbank, hpos]
  split_ifs <;> rfl

/-- Settles O48: every bank of the reset state is the reset bank. -/
theorem resetRule : Obligations.ResetRule := by
  intro s
  refine ⟨hostReset s, rfl, rfl, fun u => ⟨?_, ?_, readRegister_of_reset ?_ ?_, ?_, readRegister_of_reset ?_ ?_⟩⟩
  all_goals cases u <;> rfl

end Sys2Proof.HostBus

/-! SUPPORT. What one step of the machine can make of each unit, said once: a host access, the unit's own step, its START
or a reset; with it, the statements O51 and O56 to O58 and the part of O60 about units that stay BUSY. -/

namespace Sys2Proof.Stepping

open Sys2Proof.Machine Sys2Proof.RoundTrip Sys2Proof.UnitSteps Sys2Proof.HostBus

/-! ## Host accesses that are no START and no reset -/

/-- What such an access can make of a bank: a register written, or the end of the operation seen (R27 to R34, R60). -/
structure BankEdit (u : UnitId) (b b' : Bank) : Prop where
  state : b'.state = b.state
  cause : b'.cause = b.cause
  ip : b'.ip = b.ip
  len : b'.len = b.len
  config : b.config &&& configMask u = b.config → b'.config &&& configMask u = b'.config

theorem BankEdit.refl (u : UnitId) (b : Bank) : BankEdit u b b := ⟨rfl, rfl, rfl, rfl, id⟩

theorem bankEdit_noteStatusRead (u : UnitId) (b : Bank) (reg : Nat) : BankEdit u b (noteStatusRead b reg) := by
  rw [noteStatusRead_eq]
  exact ⟨rfl, rfl, rfl, rfl, id⟩

theorem bankEdit_writeRegister (u : UnitId) (b : Bank) (reg : Nat) (value : Word) :
    BankEdit u b (writeRegister u b reg value) := by
  rcases writeRegister_cases u b reg value with heq | ⟨-, -, heq⟩ | ⟨-, -, heq⟩ | ⟨-, -, heq⟩ <;> rw [heq]
  · exact .refl u b
  · exact ⟨rfl, rfl, rfl, rfl, id⟩
  · exact ⟨rfl, rfl, rfl, rfl, id⟩
  · refine ⟨rfl, rfl, rfl, rfl, fun _ => ?_⟩
    rw [BitVec.and_assoc, BitVec.and_self]

theorem BankEdit.bankInv {u : UnitId} {b b' : Bank} (h : BankEdit u b b') (hinv : Machine.bankInv u b) :
    Machine.bankInv u b' := by
  obtain ⟨hcause, hconfig, hip⟩ := hinv
  exact ⟨by rw [h.cause, h.state]; exact hcause, h.config hconfig, by rw [h.ip, h.len]; exact hip⟩

/-- What such an access can make of the LZU. -/
inductive LzuHost (u : Lzu) : Lzu → Prop
  | edit {b : Bank} (h : BankEdit .lzu u.bank b) : LzuHost u { u with bank := b }
  | input (a : Nat) (x : Byte) : LzuHost u { u with input := storeSet u.input a x }
  | output (a : Nat) (x : Byte) : LzuHost u { u with out := storeSet u.out a x, outPre := storeSet u.outPre a x }

/-- What such an access can make of the DSU. -/
inductive DsuHost (u : Dsu) : Dsu → Prop
  | edit {b : Bank} (h : BankEdit .dsu u.bank b) : DsuHost u { u with bank := b }
  | input (a : Nat) (x : Byte) : DsuHost u { u with input := storeSet u.input a x }
  | output (a : Nat) (x : Byte) : DsuHost u { u with smp := storeSet u.smp a x, smpPre := storeSet u.smpPre a x }

/-- What such an access can make of the PEU. -/
inductive PeuHost (u : Peu) : Peu → Prop
  | edit {b : Bank} (h : BankEdit .peu u.bank b) : PeuHost u { u with bank := b }
  | input (a : Nat) (x : Byte) : PeuHost u { u with input := storeSet u.input a x }
  | output (a : Nat) (c : Cell) : PeuHost u { u with
      cells := storeSet u.cells a c, cellsPre := storeSet u.cellsPre a c, cellsStart := storeSet u.cellsStart a c }

theorem LzuHost.refl (u : Lzu) : LzuHost u u := .edit (.refl _ _)

theorem DsuHost.refl (u : Dsu) : DsuHost u u := .edit (.refl _ _)

theorem PeuHost.refl (u : Peu) : PeuHost u u := .edit (.refl _ _)

/-- What such an access can make of the units. -/
def UnitsHost (s t : State) : Prop := LzuHost s.lzu t.lzu ∧ DsuHost s.dsu t.dsu ∧ PeuHost s.peu t.peu

theorem unitsHost_of_same {s t : State} (hl : t.lzu = s.lzu) (hd : t.dsu = s.dsu) (hp : t.peu = s.peu) :
    UnitsHost s t := by
  rw [UnitsHost, hl, hd, hp]
  exact ⟨.refl _, .refl _, .refl _⟩

theorem unitsHost_setBank {s : State} {u : UnitId} {b : Bank} (h : BankEdit u (bankState s u) b) :
    UnitsHost s (setBank s u b) := by
  cases u with
  | lzu => exact ⟨.edit h, .refl _, .refl _⟩
  | dsu => exact ⟨.refl _, .edit h, .refl _⟩
  | peu => exact ⟨.refl _, .refl _, .edit h⟩

theorem unitsHost_hostPutIn (u : UnitId) (a : Nat) (x : Byte) (s : State) : UnitsHost s (hostPutIn u a x s) := by
  cases u with
  | lzu => exact ⟨.input a x, .refl _, .refl _⟩
  | dsu => exact ⟨.refl _, .input a x, .refl _⟩
  | peu => exact ⟨.refl _, .refl _, .input a x⟩

/-- An access that answers a next state edits one bank, writes one place of one space, or only replies. -/
theorem hostAccess_next {op : HostOp} {s t : State} (h : hostAccess op s = .next t) :
    (op = .reset ∧ t = hostReset s) ∨ UnitsHost s t := by
  cases op with
  | reset => cases h; exact .inl ⟨rfl, rfl⟩
  | readReg offset bytes =>
    simp only [hostAccess, hostReadReg] at h
    split at h
    · split at h
      · cases h; exact .inr (unitsHost_setBank (bankEdit_noteStatusRead _ _ _))
      · cases h; exact .inr (unitsHost_of_same rfl rfl rfl)
    · cases h
  | writeReg offset bytes value =>
    simp only [hostAccess, hostWriteReg] at h
    split at h
    · split at h
      · cases h; exact .inr (unitsHost_setBank (bankEdit_writeRegister _ _ _ _))
      · cases h; exact .inr (unitsHost_of_same rfl rfl rfl)
    · cases h
  | readIn u index =>
    simp only [hostAccess] at h
    split at h
    · cases h; exact .inr (unitsHost_of_same rfl rfl rfl)
    · cases h
  | writeIn u index x =>
    rw [hostAccess_writeIn] at h
    split at h
    · split at h
      · cases h
      · cases h; exact .inr (unitsHost_hostPutIn u index x s)
    · cases h
  | readOut index =>
    simp only [hostAccess] at h
    split at h
    · obtain ⟨x, d, hread, -, -⟩ := hostReadBytes_eq .out s.lzu.bank s.lzu.outPre index s
      rw [hread] at h
      cases h; exact .inr (unitsHost_of_same rfl rfl rfl)
    · cases h
  | writeOut index x =>
    rw [hostAccess_writeOut] at h
    split at h
    · split at h
      · cases h
      · cases h; exact .inr ⟨.output index x, .refl _, .refl _⟩
    · cases h
  | readSmp index =>
    simp only [hostAccess] at h
    split at h
    · obtain ⟨x, d, hread, -, -⟩ := hostReadBytes_eq .smp s.dsu.bank s.dsu.smpPre index s
      rw [hread] at h
      cases h; exact .inr (unitsHost_of_same rfl rfl rfl)
    · cases h
  | writeSmp index x =>
    rw [hostAccess_writeSmp] at h
    split at h
    · split at h
      · cases h
      · cases h; exact .inr ⟨.refl _, .output index x, .refl _⟩
    · cases h
  | readCell row =>
    simp only [hostAccess] at h
    split at h
    · obtain ⟨x, d, hread, -, -⟩ := hostReadRow_eq row s
      rw [hread] at h
      cases h; exact .inr (unitsHost_of_same rfl rfl rfl)
    · cases h
  | writeCell row c =>
    rw [hostAccess_writeCell] at h
    split at h
    · split at h
      · cases h
      · cases h; exact .inr ⟨.refl _, .refl _, .output row c⟩
    · cases h

theorem LzuHost.bank {u v : Lzu} (h : LzuHost u v) :
    v.bank.state = u.bank.state ∧ v.bank.cause = u.bank.cause ∧ v.bank.ip = u.bank.ip ∧ v.w = u.w := by
  cases h with
  | edit h => exact ⟨h.state, h.cause, h.ip, rfl⟩
  | input | output => exact ⟨rfl, rfl, rfl, rfl⟩

theorem DsuHost.bank {u v : Dsu} (h : DsuHost u v) :
    v.bank.state = u.bank.state ∧ v.bank.cause = u.bank.cause ∧ v.bank.ip = u.bank.ip ∧ v.count = u.count := by
  cases h with
  | edit h => exact ⟨h.state, h.cause, h.ip, rfl⟩
  | input | output => exact ⟨rfl, rfl, rfl, rfl⟩

theorem PeuHost.bank {u v : Peu} (h : PeuHost u v) :
    v.bank.state = u.bank.state ∧ v.bank.cause = u.bank.cause ∧ v.bank.ip = u.bank.ip ∧ peuOutPos v = peuOutPos u := by
  cases h with
  | edit h => exact ⟨h.state, h.cause, h.ip, rfl⟩
  | input | output => exact ⟨rfl, rfl, rfl, rfl⟩

/-- Such an access leaves STATE, CAUSE and both positions of every unit (R23, R27, R212). -/
theorem UnitsHost.bank {s t : State} (h : UnitsHost s t) (u : UnitId) :
    (bankState t u).state = (bankState s u).state ∧ (bankState t u).cause = (bankState s u).cause ∧
      (bankState t u).ip = (bankState s u).ip ∧ outPos t u = outPos s u := by
  obtain ⟨hlzu, hdsu, hpeu⟩ := h
  cases u with
  | lzu => exact hlzu.bank
  | dsu => exact hdsu.bank
  | peu => exact hpeu.bank

/-! ## Steps of the host -/

/-- The only instruction a host access can be is a START (R211). -/
theorem decodeHost_eq_some {op : HostOp} {i : Instr} (h : decodeHost op = some i) : ∃ u, i = .hostStart u := by
  cases op with
  | writeReg offset bytes value =>
    obtain ⟨-, u, -, -, hi⟩ := (decodeHost_writeReg_iff _ _ _ _).mp h
    exact ⟨u, hi⟩
  | _ => cases h

/-- The oldest access is a reset, a START, or one that edits a bank or a space. -/
theorem stepHost_next {s t : State} {op : HostOp} {rest : List HostOp} (hhost : s.host = op :: rest)
    (h : stepHost s = .next t) :
    (op = .reset ∧ t = hostReset (s.setHost rest)) ∨
    (∃ v, decodeHost op = some (.hostStart v) ∧ exec (.hostStart v) (s.setHost rest) = .next t) ∨
    UnitsHost s t := by
  simp only [stepHost, hhost] at h
  cases hdec : decodeHost op with
  | some i =>
    obtain ⟨v, rfl⟩ := decodeHost_eq_some hdec
    rw [hdec] at h
    exact .inr (.inl ⟨v, rfl, h⟩)
  | none =>
    rw [hdec] at h
    rcases hostAccess_next h with hreset | hunits
    · exact .inl hreset
    · exact .inr (.inr hunits)

theorem sameUnit_bank {u : UnitId} {s t : State} (h : sameUnit u s t) : bankState t u = bankState s u := by
  cases u with
  | lzu => exact congrArg Lzu.bank h
  | dsu => exact congrArg Dsu.bank h
  | peu => exact congrArg Peu.bank h

/-- A START touches its own unit only, and leaves it too while it is BUSY (R211). -/
theorem sameUnit_of_start {u v : UnitId} {s t : State} (h : exec (.hostStart v) s = .next t)
    (hkeeps : u ≠ v ∨ (bankState s u).state = .busy) : sameUnit u s t := by
  by_cases hbusy : (bankState s v).state = .busy
  · rw [exec_hostStart_busy hbusy] at h
    cases h
    exact sameUnit_refl u s
  · have hne : u ≠ v := hkeeps.elim id fun hu huv => hbusy (huv ▸ hu)
    cases v with
    | lzu =>
      rw [exec_hostStart_lzu hbusy] at h
      cases h
      exact sameUnit_replaceUnit hne (s.setLzu (lzuStart s.lzu)) s
    | dsu =>
      rw [exec_hostStart_dsu hbusy] at h
      cases h
      exact sameUnit_replaceUnit hne (s.setDsu (dsuStart s.dsu)) s
    | peu =>
      rw [exec_hostStart_peu hbusy] at h
      cases h
      exact sameUnit_replaceUnit hne (s.setPeu (peuStart s.peu)) s

/-- A unit's step touches that unit only. -/
theorem sameUnit_of_stepUnit {u v : UnitId} {s t : State} (hne : u ≠ v) (h : stepUnit v s = .next t) :
    sameUnit u s t := by
  obtain ⟨x, hx⟩ := stepUnit_local v s
  rw [hx s (sameUnit_refl v s) rfl] at h
  cases h
  exact sameUnit_replaceUnit hne x s

theorem stepAgent_unitAgent (u : UnitId) (s : State) : stepAgent (unitAgent u) s = stepUnit u s := by
  cases u <;> rfl

/-- An agent is the host or a unit. -/
theorem agent_cases (a : Agent) : a = .host ∨ ∃ u, a = unitAgent u := by
  cases a with
  | host => exact .inl rfl
  | lzu => exact .inr ⟨.lzu, rfl⟩
  | dsu => exact .inr ⟨.dsu, rfl⟩
  | peu => exact .inr ⟨.peu, rfl⟩

theorem ready_unitAgent {u : UnitId} {s : State} : ready s (unitAgent u) = true ↔ (bankState s u).state = .busy := by
  cases u <;> exact beq_iff_eq

theorem host_ne_nil_of_ready {s : State} (h : ready s .host = true) : s.host ≠ [] := by
  rintro hnil
  simp [ready, hnil] at h

theorem sameUnit_setAgenda {s t : State} {l : List Agent} {n : Nat} {u : UnitId}
    (h : sameUnit u (s.setAgenda l n) t) : sameUnit u s t := by
  cases u <;> exact h

/-- A step is nothing, or that of the agent chosen. -/
theorem step_of_choose {s s1 : State} {a : Agent} (h : choose s = some (a, s1)) : step s = stepAgent a s1 := by
  simp only [step, runStep, h]

theorem step_of_choose_none {s : State} (h : choose s = none) : step s = .next s := by
  simp only [step, runStep, h]

/-- With no unit BUSY and no access pending nobody can move (R221). -/
theorem choose_of_quiet {s : State} (hquiet : quiet s) : choose s = none := by
  obtain ⟨hlzu, hdsu, hpeu, hhost⟩ := hquiet
  refine Option.eq_none_iff_forall_ne_some.mpr fun p hchoose => ?_
  obtain ⟨hready, -⟩ := choose_some hchoose
  rcases agent_cases p.1 with ha | ⟨u, ha⟩ <;> rw [ha] at hready
  · exact host_ne_nil_of_ready hready hhost
  · have hbusy := ready_unitAgent.mp hready
    cases u with
    | lzu => exact hlzu hbusy
    | dsu => exact hdsu hbusy
    | peu => exact hpeu hbusy

theorem sameUnit_positions {u : UnitId} {s t : State} (h : sameUnit u s t) :
    (bankState t u).state = (bankState s u).state ∧ (bankState t u).cause = (bankState s u).cause ∧
      (bankState t u).ip = (bankState s u).ip ∧ outPos t u = outPos s u := by
  have hbank := sameUnit_bank h
  refine ⟨congrArg Bank.state hbank, congrArg Bank.cause hbank, congrArg Bank.ip hbank, ?_⟩
  cases u with
  | lzu => exact congrArg Lzu.w h
  | dsu => exact congrArg Dsu.count h
  | peu => exact congrArg peuOutPos h

/-- What the oldest host access leaves of a unit, unless it is a reset or the unit's START. -/
theorem positions_of_stepHost {s t : State} {op : HostOp} {rest : List HostOp} (u : UnitId)
    (hhost : s.host = op :: rest) (h : stepHost s = .next t) :
    op = .reset ∨ decodeHost op = some (.hostStart u) ∨
      ((bankState t u).state = (bankState s u).state ∧ (bankState t u).cause = (bankState s u).cause ∧
        (bankState t u).ip = (bankState s u).ip ∧ outPos t u = outPos s u) := by
  rcases stepHost_next hhost h with ⟨hreset, -⟩ | ⟨v, hdec, hexec⟩ | hunits
  · exact .inl hreset
  · by_cases huv : u = v
    · exact .inr (.inl (huv ▸ hdec))
    · have hpositions := sameUnit_positions (sameUnit_of_start hexec (.inl huv))
      refine .inr (.inr ?_)
      cases u <;> exact hpositions
  · exact .inr (.inr (hunits.bank u))

/-- Settles O51: an agent that steps can move, so a unit not BUSY is touched by the host's accesses only. -/
theorem onlyBusyUnitsStep : Obligations.OnlyBusyUnitsStep := by
  refine ⟨fun s hquiet => step_of_choose_none (choose_of_quiet hquiet), fun s s1 a hchoose => ⟨?_, ?_⟩,
    fun s t u hstep hidle => ?_⟩
  · rintro rfl
    exact host_ne_nil_of_ready (choose_some hchoose).1
  · rintro u rfl
    exact ready_unitAgent.mp (choose_some hchoose).1
  · cases hchoose : choose s with
    | none =>
      rw [step_of_choose_none hchoose] at hstep
      cases hstep
      exact .inl (sameUnit_refl u s)
    | some p =>
      obtain ⟨a, s1⟩ := p
      rw [step_of_choose hchoose] at hstep
      obtain ⟨hready, l, n, rfl⟩ := choose_some hchoose
      rcases agent_cases a with rfl | ⟨v, rfl⟩
      · obtain ⟨op, rest, hhost⟩ := List.exists_cons_of_ne_nil (host_ne_nil_of_ready hready)
        have hpositions := positions_of_stepHost (s := s.setAgenda l n) u hhost hstep
        refine .inr ⟨_, op, rest, rfl, hhost, ?_⟩
        cases u <;> exact hpositions
      · have hne : u ≠ v := fun huv => hidle (huv ▸ ready_unitAgent.mp hready)
        rw [stepAgent_unitAgent] at hstep
        exact .inl (sameUnit_setAgenda (sameUnit_of_stepUnit hne hstep))

/-- A unit stays BUSY while another agent moves, a reset apart (R212, R230). -/
theorem busy_of_stepAgent {u : UnitId} {b : Agent} {s t : State} (hne : b ≠ unitAgent u)
    (hstep : stepAgent b s = .next t) (hbusy : (bankState s u).state = .busy)
    (hreset : b = .host → ∀ rest, s.host ≠ .reset :: rest) : (bankState t u).state = .busy := by
  rcases agent_cases b with rfl | ⟨v, rfl⟩
  · cases hhost : s.host with
    | nil =>
      simp only [stepAgent, stepHost, hhost] at hstep
      cases hstep
      exact hbusy
    | cons op rest =>
      rcases stepHost_next hhost hstep with ⟨rfl, -⟩ | ⟨v, -, hexec⟩ | hunits
      · exact absurd hhost (hreset rfl rest)
      · have hkept : (bankState (s.setHost rest) u).state = .busy := by cases u <;> exact hbusy
        rw [sameUnit_bank (sameUnit_of_start hexec (.inr hkept))]
        exact hkept
      · rw [(hunits.bank u).1]
        exact hbusy
  · have huv : u ≠ v := fun huv => hne (huv ▸ rfl)
    rw [stepAgent_unitAgent] at hstep
    rw [sameUnit_bank (sameUnit_of_stepUnit huv hstep)]
    exact hbusy

/-! ## What a step of the machine can make of a unit -/

/-- What a step of the machine can make of the LZU. -/
inductive LzuEvent (u : Lzu) : Lzu → Prop
  | host {v : Lzu} (h : LzuHost u v) : LzuEvent u v
  | step {blank : Nat → Byte} {v : Lzu} (hbusy : u.bank.state = .busy) (h : LzuStep blank u v) : LzuEvent u v
  | start : LzuEvent u (lzuStart u)
  | reset : LzuEvent u resetLzu

/-- What a step of the machine can make of the DSU. -/
inductive DsuEvent (u : Dsu) : Dsu → Prop
  | host {v : Dsu} (h : DsuHost u v) : DsuEvent u v
  | step {blank : Nat → Byte} {v : Dsu} (hbusy : u.bank.state = .busy) (h : DsuStep blank u v) : DsuEvent u v
  | start : DsuEvent u (dsuStart u)
  | reset : DsuEvent u resetDsu

/-- What a step of the machine can make of the PEU. -/
inductive PeuEvent (u : Peu) : Peu → Prop
  | host {v : Peu} (h : PeuHost u v) : PeuEvent u v
  | step {blank : Nat → Cell} {v : Peu} (hbusy : u.bank.state = .busy) (h : PeuStep blank u v) : PeuEvent u v
  | start : PeuEvent u (peuStart u)
  | reset : PeuEvent u resetPeu

/-- What a step of the machine can make of the units. -/
def UnitsEvent (s t : State) : Prop := LzuEvent s.lzu t.lzu ∧ DsuEvent s.dsu t.dsu ∧ PeuEvent s.peu t.peu

theorem UnitsHost.event {s t : State} (h : UnitsHost s t) : UnitsEvent s t :=
  ⟨.host h.1, .host h.2.1, .host h.2.2⟩

theorem unitsEvent_refl (s : State) : UnitsEvent s s := (unitsHost_of_same rfl rfl rfl).event

theorem unitsEvent_start {v : UnitId} {s t : State} (h : exec (.hostStart v) s = .next t) : UnitsEvent s t := by
  by_cases hbusy : (bankState s v).state = .busy
  · rw [exec_hostStart_busy hbusy] at h
    cases h
    exact unitsEvent_refl s
  · cases v with
    | lzu =>
      rw [exec_hostStart_lzu hbusy] at h
      cases h
      exact ⟨.start, .host (.refl _), .host (.refl _)⟩
    | dsu =>
      rw [exec_hostStart_dsu hbusy] at h
      cases h
      exact ⟨.host (.refl _), .start, .host (.refl _)⟩
    | peu =>
      rw [exec_hostStart_peu hbusy] at h
      cases h
      exact ⟨.host (.refl _), .host (.refl _), .start⟩

theorem unitsEvent_stepHost {s t : State} (h : stepHost s = .next t) : UnitsEvent s t := by
  cases hhost : s.host with
  | nil =>
    simp only [stepHost, hhost] at h
    cases h
    exact unitsEvent_refl s
  | cons op rest =>
    rcases stepHost_next hhost h with ⟨-, rfl⟩ | ⟨v, -, hexec⟩ | hunits
    · exact ⟨.reset, .reset, .reset⟩
    · have hevent : UnitsEvent (s.setHost rest) t := unitsEvent_start hexec
      exact hevent
    · exact hunits.event

theorem unitsEvent_stepAgent {a : Agent} {s t : State} (hready : ready s a = true) (h : stepAgent a s = .next t) :
    UnitsEvent s t := by
  cases a with
  | host => exact unitsEvent_stepHost h
  | lzu =>
    obtain ⟨v, hv, rfl⟩ := stepLzu_next h
    exact ⟨.step (beq_iff_eq.mp hready) hv, .host (.refl _), .host (.refl _)⟩
  | dsu =>
    obtain ⟨v, hv, rfl⟩ := stepDsu_next h
    exact ⟨.host (.refl _), .step (beq_iff_eq.mp hready) hv, .host (.refl _)⟩
  | peu =>
    obtain ⟨v, hv, rfl⟩ := stepPeu_next h
    exact ⟨.host (.refl _), .host (.refl _), .step (beq_iff_eq.mp hready) hv⟩

theorem unitsEvent_step {s t : State} (h : step s = .next t) : UnitsEvent s t := by
  rcases step_cases h with ⟨-, hstay⟩ | ⟨a, l, n, hready, hmove⟩
  · cases hstay
    exact unitsEvent_refl s
  · exact unitsEvent_stepAgent (s := s.setAgenda l n) (by cases a <;> exact hready) hmove.symm

/-! ## Canonical memory (log entry 2) -/

/-- The spaces of the LZU are in canonical form. -/
def lzuCanonical (u : Lzu) : Prop := storeWf u.input = true ∧ storeWf u.out = true ∧ storeWf u.outPre = true

/-- The spaces of the DSU are in canonical form. -/
def dsuCanonical (u : Dsu) : Prop := storeWf u.input = true ∧ storeWf u.smp = true ∧ storeWf u.smpPre = true

/-- The spaces of the PEU are in canonical form. -/
def peuCanonical (u : Peu) : Prop :=
  storeWf u.input = true ∧ storeWf u.cells = true ∧ storeWf u.cellsPre = true ∧ storeWf u.cellsStart = true

theorem memoryWf_iff (s : State) : memoryWf s = true ↔ lzuCanonical s.lzu ∧ dsuCanonical s.dsu ∧ peuCanonical s.peu := by
  simp only [memoryWf, Bool.and_eq_true, lzuCanonical, dsuCanonical, peuCanonical, and_assoc]

theorem LzuEvent.canonical {u v : Lzu} (h : LzuEvent u v) (hu : lzuCanonical u) : lzuCanonical v := by
  obtain ⟨hin, hout, hpre⟩ := hu
  cases h with
  | host h =>
    cases h with
    | edit => exact ⟨hin, hout, hpre⟩
    | input a x => exact ⟨storeSet_wf a x hin, hout, hpre⟩
    | output a x => exact ⟨hin, storeSet_wf a x hout, storeSet_wf a x hpre⟩
  | step _ h => exact ⟨h.input ▸ hin, h.canonical hout, h.outPre ▸ hpre⟩
  | start => rcases lzuStart_cases u with ⟨-, heq⟩ | ⟨-, -, heq⟩ | ⟨-, -, heq⟩ <;> rw [heq] <;> exact ⟨hin, hout, hout⟩
  | reset => exact ⟨rfl, rfl, rfl⟩

theorem DsuEvent.canonical {u v : Dsu} (h : DsuEvent u v) (hu : dsuCanonical u) : dsuCanonical v := by
  obtain ⟨hin, hsmp, hpre⟩ := hu
  cases h with
  | host h =>
    cases h with
    | edit => exact ⟨hin, hsmp, hpre⟩
    | input a x => exact ⟨storeSet_wf a x hin, hsmp, hpre⟩
    | output a x => exact ⟨hin, storeSet_wf a x hsmp, storeSet_wf a x hpre⟩
  | step _ h => exact ⟨h.input ▸ hin, h.canonical hsmp, h.smpPre ▸ hpre⟩
  | start => rcases dsuStart_cases u with ⟨-, heq⟩ | ⟨-, -, heq⟩ | ⟨-, -, heq⟩ <;> rw [heq] <;> exact ⟨hin, hsmp, hsmp⟩
  | reset => exact ⟨rfl, rfl, rfl⟩

theorem PeuEvent.canonical {u v : Peu} (h : PeuEvent u v) (hu : peuCanonical u) : peuCanonical v := by
  obtain ⟨hin, hcells, hpre, hstart⟩ := hu
  cases h with
  | host h =>
    cases h with
    | edit => exact ⟨hin, hcells, hpre, hstart⟩
    | input a x => exact ⟨storeSet_wf a x hin, hcells, hpre, hstart⟩
    | output a c => exact ⟨hin, storeSet_wf a c hcells, storeSet_wf a c hpre, storeSet_wf a c hstart⟩
  | step _ h => exact ⟨h.input ▸ hin, h.canonical hcells, h.cellsPre ▸ hpre, h.cellsStart ▸ hstart⟩
  | start =>
    have hcleared := clearRows_wf u.bank.outLen.toNat hcells
    rcases peuStart_cases u with ⟨-, heq⟩ | ⟨-, -, heq⟩ | ⟨-, -, heq⟩ <;> rw [heq]
    · exact ⟨hin, hcells, hcells, hcells⟩
    · exact ⟨hin, hcleared, hcells, hcleared⟩
    · exact ⟨hin, hcleared, hcells, hcleared⟩
  | reset => exact ⟨rfl, rfl, rfl, rfl⟩

/-- Settles O56: every event of a unit writes its spaces through storeSet. -/
theorem stepKeepsMemoryCanonical : Obligations.StepKeepsMemoryCanonical := by
  intro s t hs hstep
  rw [memoryWf_iff] at hs ⊢
  obtain ⟨hlzu, hdsu, hpeu⟩ := unitsEvent_step hstep
  exact ⟨hlzu.canonical hs.1, hdsu.canonical hs.2.1, hpeu.canonical hs.2.2⟩

/-! ## The promises of the units (R20, R22, R27, R34, R122, R149) -/

theorem bankInv_begin {u : UnitId} {b : Bank} (h : bankInv u b) : bankInv u (beginOperation b) :=
  ⟨⟨fun _ => nofun, fun _ => rfl⟩, h.2.1, Nat.zero_le _⟩

theorem bankInv_fail {u : UnitId} {b : Bank} {c : Cause} (hc : c ≠ .none) (h : bankInv u b) : bankInv u (enterFail b c) :=
  ⟨⟨fun hnone => absurd hnone hc, fun hne => absurd rfl hne⟩, h.2⟩

theorem bankInv_complete_begin {u : UnitId} {b : Bank} (h : bankInv u b) : bankInv u (complete (beginOperation b)) :=
  ⟨⟨fun _ => nofun, fun _ => rfl⟩, h.2.1, Nat.zero_le _⟩

theorem bankInv_reset (u : UnitId) : bankInv u resetBank :=
  ⟨⟨fun _ => nofun, fun _ => rfl⟩, BitVec.zero_and, Nat.le_refl 0⟩

theorem lzuInv_reset : lzuInv resetLzu := ⟨bankInv_reset _, nofun, nofun⟩

theorem dsuInv_reset : dsuInv resetDsu := ⟨bankInv_reset _, nofun, nofun⟩

theorem peuInv_reset : peuInv resetPeu := ⟨bankInv_reset _, Nat.zero_le _, nofun⟩

theorem lzuInv_start {u : Lzu} (h : lzuInv u) : lzuInv (lzuStart u) := by
  have hbank := bankInv_begin h.1
  rcases lzuStart_cases u with ⟨-, heq⟩ | ⟨-, -, heq⟩ | ⟨-, hpos, heq⟩ <;> rw [heq]
  · exact ⟨bankInv_fail nofun hbank, nofun, nofun⟩
  · exact ⟨bankInv_fail nofun hbank, nofun, nofun⟩
  · exact ⟨hbank, fun _ => Nat.pos_of_ne_zero hpos, nofun⟩

theorem dsuInv_start {u : Dsu} (h : dsuInv u) : dsuInv (dsuStart u) := by
  have hbank := bankInv_begin h.1
  rcases dsuStart_cases u with ⟨-, heq⟩ | ⟨-, hnone, heq⟩ | ⟨-, hsome, heq⟩ <;> rw [heq]
  · exact ⟨bankInv_fail nofun hbank, nofun, nofun⟩
  · exact ⟨bankInv_complete_begin h.1, nofun, fun _ => (Nat.mul_eq_zero.mpr hnone).symm⟩
  · obtain ⟨hframes, hchans⟩ := not_or.mp hsome
    refine ⟨hbank, fun _ => ⟨Nat.pos_of_ne_zero hframes, Nat.pos_of_ne_zero hchans, ?_, dsuRanges_init _⟩, nofun⟩
    exact (Nat.zero_mul _).symm

theorem peuInv_start {u : Peu} (h : peuInv u) : peuInv (peuStart u) := by
  have hbank := bankInv_begin h.1
  rcases peuStart_cases u with ⟨-, heq⟩ | ⟨-, -, heq⟩ | ⟨-, hpos, heq⟩ <;> rw [heq]
  · exact ⟨bankInv_fail nofun hbank, Nat.zero_le _, nofun⟩
  · exact ⟨bankInv_complete_begin h.1, Nat.zero_le _, nofun⟩
  · exact ⟨hbank, Nat.zero_le _, fun _ _ => Nat.pos_of_ne_zero hpos⟩

theorem LzuEvent.inv {u v : Lzu} (h : LzuEvent u v) (hu : lzuInv u) : lzuInv v := by
  obtain ⟨hbank, hroom, hdone⟩ := hu
  cases h with
  | host h =>
    cases h with
    | edit h => exact ⟨h.bankInv hbank, fun hb => hroom (h.state ▸ hb), fun hd => hdone (h.state ▸ hd)⟩
    | input | output => exact ⟨hbank, hroom, hdone⟩
  | step hbusy h => exact h.inv hbusy ⟨hbank, hroom, hdone⟩
  | start => exact lzuInv_start ⟨hbank, hroom, hdone⟩
  | reset => exact lzuInv_reset

theorem DsuEvent.inv {u v : Dsu} (h : DsuEvent u v) (hu : dsuInv u) : dsuInv v := by
  obtain ⟨hbank, hplace, hdone⟩ := hu
  cases h with
  | host h =>
    cases h with
    | edit h => exact ⟨h.bankInv hbank, fun hb => hplace (h.state ▸ hb), fun hd => hdone (h.state ▸ hd)⟩
    | input | output => exact ⟨hbank, hplace, hdone⟩
  | step hbusy h => exact h.inv hbusy ⟨hbank, hplace, hdone⟩
  | start => exact dsuInv_start ⟨hbank, hplace, hdone⟩
  | reset => exact dsuInv_reset

theorem PeuEvent.inv {u v : Peu} (h : PeuEvent u v) (hu : peuInv u) : peuInv v := by
  obtain ⟨hbank, hk, hroom⟩ := hu
  cases h with
  | host h =>
    cases h with
    | edit h => exact ⟨h.bankInv hbank, hk, fun hb => hroom (h.state ▸ hb)⟩
    | input | output => exact ⟨hbank, hk, hroom⟩
  | step hbusy h => exact h.inv hbusy ⟨hbank, hk, hroom⟩
  | start => exact peuInv_start ⟨hbank, hk, hroom⟩
  | reset => exact peuInv_reset

/-! ## Operations fit the capacities (R58, R207) -/

/-- The LZU's part of fitsSpaces. -/
def lzuFits (u : Lzu) : Prop := u.bank.state = .busy → u.bank.len ≤ Config.inCap.val ∧ u.n ≤ Config.outCap.val

/-- The DSU's part of fitsSpaces. -/
def dsuFits (u : Dsu) : Prop :=
  u.bank.state = .busy → u.bank.len ≤ Config.inCap.val ∧ u.frames * u.chans ≤ Config.smpCap.val

/-- The PEU's part of fitsSpaces. -/
def peuFits (u : Peu) : Prop := u.bank.state = .busy → u.bank.len ≤ Config.inCap.val ∧ u.rows ≤ Config.cellCap.val

theorem fitsSpaces_iff (s : State) : fitsSpaces s ↔ lzuFits s.lzu ∧ dsuFits s.dsu ∧ peuFits s.peu := Iff.rfl

theorem LzuEvent.fits {u v : Lzu} (h : LzuEvent u v) (hu : lzuFits u) : lzuFits v := by
  cases h with
  | host h =>
    cases h with
    | edit h => exact fun hb => ⟨h.len.symm ▸ (hu (h.state ▸ hb)).1, (hu (h.state ▸ hb)).2⟩
    | input | output => exact hu
  | step hbusy h => exact fun _ => ⟨h.bank.len_eq.symm ▸ (hu hbusy).1, h.n.symm ▸ (hu hbusy).2⟩
  | start =>
    rcases lzuStart_cases u with ⟨-, heq⟩ | ⟨-, -, heq⟩ | ⟨hok, -, heq⟩ <;> rw [heq]
    · nofun
    · nofun
    · exact fun _ => ⟨Nat.not_lt.mp (not_or.mp hok).1, Nat.not_lt.mp (not_or.mp hok).2⟩
  | reset => nofun

theorem DsuEvent.fits {u v : Dsu} (h : DsuEvent u v) (hu : dsuFits u) : dsuFits v := by
  cases h with
  | host h =>
    cases h with
    | edit h => exact fun hb => ⟨h.len.symm ▸ (hu (h.state ▸ hb)).1, (hu (h.state ▸ hb)).2⟩
    | input | output => exact hu
  | step hbusy h =>
    exact fun _ => ⟨h.bank.len_eq.symm ▸ (hu hbusy).1, by rw [h.frames, h.chans]; exact (hu hbusy).2⟩
  | start =>
    rcases dsuStart_cases u with ⟨-, heq⟩ | ⟨-, -, heq⟩ | ⟨hok, -, heq⟩ <;> rw [heq]
    · nofun
    · nofun
    · exact fun _ => ⟨Nat.not_lt.mp (not_or.mp hok).1, Nat.not_lt.mp (not_or.mp hok).2⟩
  | reset => nofun

theorem PeuEvent.fits {u v : Peu} (h : PeuEvent u v) (hu : peuFits u) : peuFits v := by
  cases h with
  | host h =>
    cases h with
    | edit h => exact fun hb => ⟨h.len.symm ▸ (hu (h.state ▸ hb)).1, (hu (h.state ▸ hb)).2⟩
    | input | output => exact hu
  | step hbusy h => exact fun _ => ⟨h.bank.len_eq.symm ▸ (hu hbusy).1, h.rows.symm ▸ (hu hbusy).2⟩
  | start =>
    rcases peuStart_cases u with ⟨-, heq⟩ | ⟨-, -, heq⟩ | ⟨hok, -, heq⟩ <;> rw [heq]
    · nofun
    · nofun
    · exact fun _ => ⟨Nat.not_lt.mp (not_or.mp hok).1, Nat.not_lt.mp (not_or.mp hok).2⟩
  | reset => nofun

/-- Settles O57: every event of a unit keeps its promises and its bounds. -/
theorem stepKeepsUnitsInv : Obligations.StepKeepsUnitsInv := by
  refine ⟨fun s t hs hstep => ?_, fun s t hs hstep => ?_⟩ <;> obtain ⟨hlzu, hdsu, hpeu⟩ := unitsEvent_step hstep
  · exact ⟨hlzu.inv hs.1, hdsu.inv hs.2.1, hpeu.inv hs.2.2⟩
  · rw [fitsSpaces_iff] at hs ⊢
    exact ⟨hlzu.fits hs.1, hdsu.fits hs.2.1, hpeu.fits hs.2.2⟩

/-- Settles O58: no unit of the reset state has anything under way. -/
theorem resetIsGood : Obligations.ResetIsGood :=
  ⟨⟨lzuInv_reset, dsuInv_reset, peuInv_reset⟩, ⟨nofun, nofun, nofun⟩, reset_memoryWf⟩

end Sys2Proof.Stepping

/-! SUPPORT. Where decoding stops and what it reads: a decoder reads below IN_LEN alone, a stop of the stream stands at
its end, and LengthOverflow comes from a gamma code of a match; then the step of a unit on what it decodes; with them,
the statements O40, O49, O50 and O53. -/

namespace Sys2Proof.StreamStops

open Sys2Proof.Machine Sys2Proof.ControlBits Sys2Proof.LzTokens Sys2Proof.Stepping

/-! ## Decoders read below IN_LEN (R22, R58)

Two inputs of one length that Fetch cannot tell apart: no decoder can. -/

section
variable {inp inp' : Input}

theorem fetch_congr (hlen : inp.len = inp'.len) (hget : ∀ a, a < inp.len → inp.get a = inp'.get a) :
    fetch inp = fetch inp' := by
  funext c
  unfold fetch
  rw [← hlen]
  split
  · rw [hget _ ‹_›]
  · rfl

theorem readBit_congr (h : fetch inp = fetch inp') : readBit inp = readBit inp' := by
  funext c
  simp only [readBit, h]

theorem readBits_congr (h : fetch inp = fetch inp') (n : Nat) : readBits inp n = readBits inp' n := by
  induction n with
  | zero => rfl
  | succ n ih =>
    funext c
    simp only [readBits, readBit_congr h, ih]

theorem decodeLength_congr (h : fetch inp = fetch inp') : decodeLength inp = decodeLength inp' := by
  have hloop (n v : Nat) : gammaLoop inp n v = gammaLoop inp' n v := by
    induction n generalizing v with
    | zero => rfl
    | succ n ih =>
      funext c
      simp only [gammaLoop, readBit_congr h, ih]
  exact hloop 32 gammaInit

theorem decodeLz_congr (h : fetch inp = fetch inp') : decodeLz inp = decodeLz inp' := by
  have hcode : decodeLengthCode inp = decodeLengthCode inp' := by
    funext c
    simp only [decodeLengthCode, readBit_congr h, decodeLength_congr h]
  funext c
  simp only [decodeLz, decodeMatch, readBit_congr h, h, hcode, decodeLength_congr h]

theorem readPairs_congr (h : fetch inp = fetch inp') (n : Nat) : readPairs inp n = readPairs inp' n := by
  induction n with
  | zero => rfl
  | succ n ih =>
    funext c
    simp only [readPairs, readBit_congr h, ih]

theorem readTriples_congr (h : fetch inp = fetch inp') (n : Nat) : readTriples inp n = readTriples inp' n := by
  induction n with
  | zero => rfl
  | succ n ih =>
    funext c
    simp only [readTriples, readBit_congr h, ih]

theorem decodeSample_congr (hlen : inp.len = inp'.len) (h : fetch inp = fetch inp') (w16 pred : Bool) (dh : Nat) :
    decodeSample w16 pred dh inp = decodeSample w16 pred dh inp' := by
  funext c
  simp only [decodeSample, decodeCode, codeRounds, hlen, readPairs_congr h, readTriples_congr h, readBits_congr h]

theorem readPairBytes_congr (h : fetch inp = fetch inp') (n : Nat) : readPairBytes inp n = readPairBytes inp' n := by
  induction n with
  | zero => rfl
  | succ n ih =>
    funext c
    simp only [readPairBytes, readPair, h, ih]

end

/-- Settles O53: every decoder reaches its input through Fetch and the length alone. -/
theorem readsStayBelowInLen : Obligations.ReadsStayBelowInLen := by
  intro f inp inp' c hlen hget
  have hfetch := fetch_congr hlen hget
  cases f with
  | seed => simp only [decodeStream, decodeSeed, hfetch]
  | lz => exact congrFun (decodeLz_congr hfetch) c
  | sample w16 pred dh => exact congrFun (decodeSample_congr hlen hfetch w16 pred dh) c
  | track => simp only [decodeStream, decodeTrack, hfetch, readPairBytes_congr hfetch]
  | pair => simp only [decodeStream, decodePair, readPair, hfetch]

/-! ## Where a decoder stops (R203, R205) -/

/-- The stop of a stream at or behind its end (R203). -/
def Exhausted (inp : Input) (e : Stop) : Prop := e.cause = .streamExhausted ∧ inp.len ≤ e.cursor.ip

section
variable {inp : Input} {e : Stop}

theorem Exhausted.cause_ne (h : Exhausted inp e) : e.cause ≠ .lengthOverflow := by
  rw [h.1]
  decide

/-- A cursor that has not passed the end stands at it when the stream is exhausted. -/
theorem Exhausted.ip_eq (h : Exhausted inp e) {f : Format} {c : Cursor} (hstop : decodeStream f inp c = .error e)
    (hc : c.ip ≤ inp.len) : e.cursor.ip = inp.len := by
  have hsound := decodeStream_sound f inp c
  rw [hstop] at hsound
  exact Nat.le_antisymm (hsound.1.2 hc) h.2

theorem fetch_error {c : Cursor} (h : fetch inp c = .error e) : Exhausted inp e := by
  rcases fetch_cases h with ⟨-, heq⟩ | ⟨hend, heq⟩ <;> cases heq
  exact ⟨rfl, hend⟩

theorem readBit_error {c : Cursor} (h : readBit inp c = .error e) : Exhausted inp e := by
  obtain ⟨hend, -, rfl⟩ := (readBit_eq_error_iff inp c e).mp h
  exact ⟨rfl, hend⟩

theorem readBits_error {n : Nat} {c : Cursor} (h : readBits inp n c = .error e) : Exhausted inp e := by
  induction n generalizing c with
  | zero => cases h
  | succ n ih =>
    simp only [readBits] at h
    split at h
    · cases h; exact readBit_error ‹_›
    · split at h
      · cases h; exact ih ‹_›
      · cases h

theorem readPair_error {c : Cursor} (h : readPair inp c = .error e) : Exhausted inp e := by
  unfold readPair at h
  split at h
  · cases h; exact fetch_error ‹_›
  · split at h
    · cases h; exact fetch_error ‹_›
    · cases h

theorem readPairBytes_error {n : Nat} {c : Cursor} (h : readPairBytes inp n c = .error e) : Exhausted inp e := by
  induction n generalizing c with
  | zero => cases h
  | succ n ih =>
    simp only [readPairBytes] at h
    split at h
    · cases h; exact readPair_error ‹_›
    · split at h
      · cases h; exact ih ‹_›
      · cases h

theorem decodeSeed_error {c : Cursor} (h : decodeSeed inp c = .error e) : Exhausted inp e := by
  unfold decodeSeed at h
  split at h
  · cases h; exact fetch_error ‹_›
  · cases h

theorem decodeTrack_error {c : Cursor} (h : decodeTrack inp c = .error e) : Exhausted inp e := by
  unfold decodeTrack at h
  split at h
  · cases h; exact fetch_error ‹_›
  · split at h
    · cases h
    · split at h
      · cases h; exact readPairBytes_error ‹_›
      · cases h

theorem decodePair_error {c : Cursor} (h : decodePair inp c = .error e) : Exhausted inp e := by
  unfold decodePair at h
  split at h
  · cases h; exact readPair_error ‹_›
  · cases h

/-! ### Sample codes: the loops never run out of rounds (R151) -/

/-- How many bits of a control byte DATA still holds before the next refill (R100). -/
def pendingBits (data : Byte) : Nat := (List.range 7).countP fun j => data <<< (j + 1) != 0

theorem pendingBits_le (data : Byte) : pendingBits data ≤ 7 := List.countP_le_length

theorem pendingBits_shift : ∀ data : Byte, data <<< 1 ≠ 0 → pendingBits (data <<< 1) + 1 ≤ pendingBits data := by
  decide

/-- How many control bits a stream can still deliver. -/
def bitsLeft (inp : Input) (c : Cursor) : Nat := 8 * (inp.len - c.ip) + pendingBits c.data

theorem bitsLeft_lt_codeRounds (inp : Input) (c : Cursor) : bitsLeft inp c < codeRounds inp c := by
  have hpending := pendingBits_le c.data
  unfold bitsLeft codeRounds
  omega

/-- Every bit read is one less to deliver. -/
theorem bitsLeft_readBit {c c' : Cursor} {b : Bool} (h : readBit inp c = .ok (b, c')) :
    bitsLeft inp c' < bitsLeft inp c := by
  by_cases hshift : c.data <<< 1 = 0
  · rcases Nat.lt_or_ge c.ip inp.len with hlen | hlen
    · rw [readBit_of_shift_eq_zero hshift hlen] at h
      cases h
      have hpending := pendingBits_le (refill (inp.get c.ip)).2
      simp only [bitsLeft]
      omega
    · rw [readBit_of_exhausted hshift hlen] at h
      cases h
  · rw [readBit_of_shift_ne_zero hshift] at h
    cases h
    exact Nat.add_lt_add_left (pendingBits_shift c.data hshift) _

theorem readPairs_error {n : Nat} {c : Cursor} (hn : bitsLeft inp c < n) (h : readPairs inp n c = .error e) :
    Exhausted inp e := by
  induction n generalizing c with
  | zero => exact absurd hn (Nat.not_lt_zero _)
  | succ n ih =>
    simp only [readPairs] at h
    split at h
    · cases h; exact readBit_error ‹_›
    · rename_i hp
      have hleft := bitsLeft_readBit hp
      split at h
      · cases h; exact readBit_error ‹_›
      · cases h
      · rename_i hm
        have hleft' := bitsLeft_readBit hm
        split at h
        · cases h
          refine ih ?_ ‹_›
          omega
        · cases h

theorem readTriples_error {n : Nat} {c : Cursor} (hn : bitsLeft inp c < n) (h : readTriples inp n c = .error e) :
    Exhausted inp e := by
  induction n generalizing c with
  | zero => exact absurd hn (Nat.not_lt_zero _)
  | succ n ih =>
    simp only [readTriples] at h
    split at h
    · cases h; exact readBit_error ‹_›
    · rename_i hp
      have hleft := bitsLeft_readBit hp
      split at h
      · cases h; exact readBit_error ‹_›
      · rename_i hq
        have hleft' := bitsLeft_readBit hq
        split at h
        · cases h; exact readBit_error ‹_›
        · cases h
        · rename_i hm
          have hleft'' := bitsLeft_readBit hm
          split at h
          · cases h
            refine ih ?_ ‹_›
            omega
          · cases h

theorem decodeSample_error {w16 pred : Bool} {dh : Nat} {c : Cursor} (h : decodeSample w16 pred dh inp c = .error e) :
    Exhausted inp e := by
  have hcode (h : decodeCode w16 dh inp c = .error e) : Exhausted inp e := by
    unfold decodeCode at h
    split at h <;> split at h
    · cases h; exact readTriples_error (bitsLeft_lt_codeRounds inp c) ‹_›
    · split at h
      · cases h; exact readBits_error ‹_›
      · cases h
    · cases h; exact readPairs_error (bitsLeft_lt_codeRounds inp c) ‹_›
    · split at h
      · cases h; exact readBits_error ‹_›
      · cases h
  unfold decodeSample at h
  split at h
  · cases h; exact hcode ‹_›
  · cases h

/-! ### LZ tokens: LengthOverflow is a gamma code of a match (R102) -/

theorem decodeLength_error {c : Cursor} (h : decodeLength inp c = .error e) :
    Exhausted inp e ∨ e.cause = .lengthOverflow := by
  rcases (decodeLength_eq_error_iff inp c e).mp h with ⟨-, -, c', -, -, rfl⟩ | ⟨-, c1, -, -, hd | ⟨-, -, c2, -, hm⟩⟩
  · exact .inr rfl
  · exact .inl (readBit_error hd)
  · exact .inl (readBit_error hm)

/-- The extension of a length field stands at `c` and stops with `e` (R74, R117). -/
def ExtensionStops (inp : Input) (c : Cursor) (e : Stop) : Prop :=
  ∃ c', readBits inp 2 c = .ok ([false, false], c') ∧ decodeLength inp c' = .error e

theorem readBits_two_iff {c c' : Cursor} {a b : Bool} :
    readBits inp 2 c = .ok ([a, b], c') ↔ ∃ c1, readBit inp c = .ok (a, c1) ∧ readBit inp c1 = .ok (b, c') := by
  simp only [readBits_cons_iff, readBits_zero_iff, true_and, exists_eq_right']

theorem decodeLengthCode_error {c : Cursor} (h : decodeLengthCode inp c = .error e) :
    Exhausted inp e ∨ ExtensionStops inp c e := by
  unfold decodeLengthCode at h
  split at h
  · cases h; exact .inl (readBit_error ‹_›)
  · rename_i l1 c1 hl1
    split at h
    · cases h; exact .inl (readBit_error ‹_›)
    · rename_i l0 c2 hl0
      split at h
      · cases h
      · rename_i hbits
        obtain ⟨rfl, rfl⟩ : l1 = false ∧ l0 = false := by simpa using hbits
        split at h
        · cases h; exact .inr ⟨c2, readBits_two_iff.mpr ⟨c1, hl1, hl0⟩, ‹_›⟩
        · cases h

theorem ExtensionStops.decodeLengthCode_eq {c : Cursor} (h : ExtensionStops inp c e) :
    decodeLengthCode inp c = .error e := by
  obtain ⟨c', hbits, hstop⟩ := h
  obtain ⟨c1, hl1, hl0⟩ := readBits_two_iff.mp hbits
  simp only [decodeLengthCode, hl1, hl0, hstop, Bool.or_self, Bool.false_eq_true, if_false]

/-- A gamma value is at least 2 (R103), so MATCH_REUSE is the value 2 itself (R114). -/
theorem decodeLength_eq_two_iff {c c1 : Cursor} {g : Nat} (h : decodeLength inp c = .ok (g, c1)) : g = 2 ↔ g < 3 := by
  obtain ⟨ds, hne, -, -, rfl⟩ := (decodeLength_eq_ok_iff inp c c1 g).mp h
  obtain ⟨-, -, hge⟩ := bitsValue_range hne
  omega

/-- A stop of a token is the end of the stream or a gamma code of the match. -/
theorem decodeLz_error {c : Cursor} (h : decodeLz inp c = .error e) : Exhausted inp e ∨ matchGammaStops inp c e := by
  unfold decodeLz at h
  split at h
  · cases h; exact .inl (readBit_error ‹_›)
  · rename_i c1 hbit
    unfold decodeMatch at h
    split at h
    · cases h; exact .inr ⟨c1, hbit, .inl ‹_›⟩
    · rename_i g c2 hg
      have htwo := decodeLength_eq_two_iff hg
      split at h
      · split at h
        · rename_i hcode
          cases h
          rcases decodeLengthCode_error hcode with hend | ⟨c', hbits, hstop⟩
          · exact .inl hend
          · exact .inr ⟨c1, hbit, .inr ⟨g, c2, c2, c', hg, by rw [if_pos (htwo.mpr ‹_›)], hbits, hstop⟩⟩
        · cases h
      · rename_i hnew
        split at h
        · cases h; exact .inl (fetch_error ‹_›)
        · rename_i x c3 hx
          split at h
          · rename_i hcode
            cases h
            rcases decodeLengthCode_error hcode with hend | ⟨c', hbits, hstop⟩
            · exact .inl hend
            · refine .inr ⟨c1, hbit, .inr ⟨g, c2, c3, c', hg, ?_, hbits, hstop⟩⟩
              rw [if_neg (hnew ∘ htwo.mp)]
              exact ⟨x, hx⟩
          · cases h
  · split at h
    · cases h; exact .inl (fetch_error ‹_›)
    · cases h

theorem matchGammaStops_cause {c : Cursor} (h : matchGammaStops inp c e) : Exhausted inp e ∨ e.cause = .lengthOverflow := by
  obtain ⟨c1, -, hfirst | ⟨g, c2, c3, c4, -, -, -, hstop⟩⟩ := h
  · exact decodeLength_error hfirst
  · exact decodeLength_error hstop

/-- The stop of a gamma code of the match is the token's. -/
theorem decodeLz_of_matchGammaStops {c : Cursor} (h : matchGammaStops inp c e) : decodeLz inp c = .error e := by
  obtain ⟨c1, hbit, hfirst | ⟨g, c2, c3, c4, hg, hoffset, hbits, hstop⟩⟩ := h
  · simp only [decodeLz, decodeMatch, hbit, hfirst]
  · have htwo := decodeLength_eq_two_iff hg
    have hcode : decodeLengthCode inp c3 = .error e := ExtensionStops.decodeLengthCode_eq ⟨c4, hbits, hstop⟩
    split at hoffset
    · subst hoffset
      simp only [decodeLz, decodeMatch, hbit, hg, if_pos (htwo.mp ‹_›), hcode]
    · obtain ⟨x, hx⟩ := hoffset
      rename_i hnew
      simp only [decodeLz, decodeMatch, hbit, hg, if_neg (hnew ∘ htwo.mpr), hx, hcode]

end

/-! ## The step of a unit on what it decodes -/

theorem stepLzu_of_stop {s : State} {e : Stop} (hroom : s.lzu.w < s.lzu.n)
    (hdec : decodeStream (lzuFormat s.lzu) (lzuInput s) (lzuCursor s.lzu) = .error e) :
    stepLzu s = .next (s.setLzu (lzuFail (lzuMove s.lzu e.cursor) e.cause)) := by
  simp only [stepLzu, if_neg (Nat.not_le.mpr hroom), hdec]

theorem stepDsu_of_stop {s : State} {e : Stop} (hroom : s.dsu.count < s.dsu.frames * s.dsu.chans)
    (hdec : decodeStream (dsuFormat s.dsu) (dsuInput s) (dsuCursor s.dsu) = .error e) :
    stepDsu s = .next (s.setDsu (dsuFail (dsuMove s.dsu e.cursor) e.cause)) := by
  simp only [stepDsu, if_neg (Nat.not_le.mpr hroom), hdec]

theorem stepPeu_of_stop {s : State} {e : Stop} (hroom : s.peu.row < s.peu.rows)
    (hdec : decodeStream (peuFormat s.peu) (peuInput s) (peuCursor s.peu) = .error e) :
    stepPeu s = .next (s.setPeu (peuFail (peuMove s.peu e.cursor) e.cause)) := by
  simp only [stepPeu, if_neg (fun h : s.peu.k = 0 ∧ s.peu.rows ≤ s.peu.row => Nat.not_le.mpr hroom h.2), hdec]

theorem stepDsu_of_decode {s : State} {i : Instr} {c : Cursor} (hroom : s.dsu.count < s.dsu.frames * s.dsu.chans)
    (hdec : decodeStream (dsuFormat s.dsu) (dsuInput s) (dsuCursor s.dsu) = .ok (i, c)) :
    stepDsu s = exec i (s.setDsu (dsuMove s.dsu c)) := by
  simp only [stepDsu, if_neg (Nat.not_le.mpr hroom), hdec]

theorem stepPeu_of_decode {s : State} {i : Instr} {c : Cursor} (hroom : s.peu.row < s.peu.rows)
    (hdec : decodeStream (peuFormat s.peu) (peuInput s) (peuCursor s.peu) = .ok (i, c)) :
    stepPeu s = exec i (s.setPeu (peuMove s.peu c)) := by
  simp only [stepPeu, if_neg (fun h : s.peu.k = 0 ∧ s.peu.rows ≤ s.peu.row => Nat.not_le.mpr hroom h.2), hdec]

/-- Settles O40: the causes and places of each format's stops, and the step on a stop. -/
theorem streamFaultEntry : Obligations.StreamFaultEntry := by
  intro s e
  refine ⟨fun hroom hip hdec => ⟨stepLzu_of_stop hroom hdec, ?_⟩,
    fun hroom hip hdec => ⟨stepDsu_of_stop hroom hdec, ?_⟩, fun hroom hip hdec => ⟨stepPeu_of_stop hroom hdec, ?_⟩⟩
  · by_cases hw : s.lzu.w = 0
    · rw [if_pos hw] at hdec
      have hend := decodeSeed_error hdec
      exact ⟨.inl ⟨hend.1, hend.ip_eq hdec hip⟩, fun hover => absurd hover hend.cause_ne, fun _ hne => absurd hw hne⟩
    · rw [if_neg hw] at hdec
      have hstops := decodeLz_error hdec
      refine ⟨?_, fun hover => ⟨hw, hstops.resolve_left fun hend => hend.cause_ne hover⟩, fun e' _ hstop => ?_⟩
      · exact (hstops.elim .inl matchGammaStops_cause).imp (fun hend => ⟨hend.1, hend.ip_eq hdec hip⟩) id
      · exact Except.error.inj ((decodeLz_of_matchGammaStops hstop).symm.trans hdec)
  · have hend := decodeSample_error hdec
    exact ⟨hend.1, hend.ip_eq hdec hip⟩
  · have hend : Exhausted { len := s.peu.bank.len, get := s.byte .inPeu } e := by
      split at hdec
      · exact decodeTrack_error hdec
      · exact decodePair_error hdec
    exact ⟨hend.1, hend.ip_eq hdec hip⟩

/-- Settles O49: the step of the agent chosen, on what its stream or its list of accesses gives. -/
theorem stepRunsDecoded : Obligations.StepRunsDecoded := by
  intro s s1 i c op rest
  refine ⟨fun hchoose hroom hdec => ?_, fun hchoose hroom hdec => ?_, fun hchoose hroom hdec => ?_,
    fun hchoose hhost hdec => ?_, fun hchoose hhost hdec => ?_⟩ <;> rw [step_of_choose hchoose]
  · exact stepLzu_of_decode hroom hdec
  · exact stepDsu_of_decode hroom hdec
  · exact stepPeu_of_decode hroom hdec
  · simp only [stepAgent, stepHost, hhost, hdec]
    rfl
  · simp only [stepAgent, stepHost, hhost, hdec]
    rfl

/-! ## A word put where the next step fetches (log entries 9 to 11) -/

/-- Bytes written into a space decode as themselves, whatever the places behind them hold. -/
theorem decodeStream_storeOfBytes (f : Format) (blank : Nat → Byte) (bytes : List Byte) (c : Cursor) :
    decodeStream f { len := bytes.length, get := byteAt blank (storeOfBytes 0 bytes) } c =
      decodeStream f (inputOf bytes) c := by
  refine readsStayBelowInLen f _ _ c rfl fun a ha => ?_
  exact (byteAt_storeOfBytes blank ha).trans (List.getD_eq_getElem bytes 0 ha).symm

/-- The unit a format is read by, its cursor moved (R88). -/
def moveReader (f : Format) (c : Cursor) (p s : State) : State :=
  match f with
  | .seed => { s with lzu := lzuMove p.lzu c }
  | .lz => { s with lzu := lzuMove p.lzu c }
  | .sample _ _ _ => { s with dsu := dsuMove p.dsu c }
  | .track => { s with peu := peuMove p.peu c }
  | .pair => { s with peu := peuMove p.peu c }

/-- The next step reads the bytes placed. -/
theorem step_placeBytes {f : Format} {bytes : List Byte} {i : Instr} {c : Cursor} (s : State)
    (hdec : decodeStream f (inputOf bytes) Cursor.fresh = .ok (i, c)) :
    let p := placeBytes f bytes s
    step p = exec i (moveReader f c p
      { p with agenda := if (allAgents.filter (ready p)).length = 1 then p.agenda else s.agenda }) := by
  intro p
  cases f with
  | seed =>
    rw [step_of_choose (choose_first_turn (s := p) (a := .lzu) rfl rfl)]
    refine stepLzu_of_decode (Nat.lt_of_lt_of_le Nat.zero_lt_one (Nat.le_max_right s.lzu.n 1)) ?_
    exact (decodeStream_storeOfBytes .seed _ bytes _).trans hdec
  | lz =>
    have hw : p.lzu.w ≠ 0 := Nat.ne_of_gt (Nat.le_max_right s.lzu.w 1)
    rw [step_of_choose (choose_first_turn (s := p) (a := .lzu) rfl rfl)]
    refine stepLzu_of_decode (Nat.le_max_right s.lzu.n (max s.lzu.w 1 + 1)) ?_
    refine (congrArg (fun f => decodeStream f _ _) (if_neg hw : lzuFormat p.lzu = .lz)).trans ?_
    exact (decodeStream_storeOfBytes .lz _ bytes _).trans hdec
  | sample w16 pred dh =>
    rw [step_of_choose (choose_first_turn (s := p) (a := .dsu) rfl rfl)]
    refine stepDsu_of_decode ?_ ?_
    · have hframes : s.dsu.count < p.dsu.frames := Nat.le_max_right s.dsu.frames (s.dsu.count + 1)
      exact hframes.trans_le (Nat.le_mul_of_pos_right _ (Nat.le_max_right s.dsu.chans 1))
    · exact (decodeStream_storeOfBytes (.sample w16 pred dh) _ bytes _).trans hdec
  | track =>
    rw [step_of_choose (choose_first_turn (s := p) (a := .peu) rfl rfl)]
    refine stepPeu_of_decode (Nat.le_max_right s.peu.rows (s.peu.row + 1)) ?_
    exact (decodeStream_storeOfBytes .track _ bytes _).trans hdec
  | pair =>
    rw [step_of_choose (choose_first_turn (s := p) (a := .peu) rfl rfl)]
    refine stepPeu_of_decode (Nat.le_max_right s.peu.rows (s.peu.row + 1)) ?_
    exact (decodeStream_storeOfBytes .pair _ bytes _).trans hdec

/-- A table word stands in a stream of the LZU or of the PEU. -/
theorem tableFormat_cases (nbits w : Nat) :
    tableFormat nbits w = .seed ∨ tableFormat nbits w = .track ∨ tableFormat nbits w = .pair := by
  unfold tableFormat
  split_ifs <;> simp

/-- Settles O50: the word's bytes are what the unit it is placed in reads next. -/
theorem placedWordRuns : Obligations.PlacedWordRuns := by
  intro s nbits w i hword p q
  unfold decodeTableWord at hword
  split at hword
  · rename_i j c hdec
    cases hword
    refine ⟨c, hdec, step_placeBytes s hdec, ?_⟩
    have hplace : p = placeBytes (tableFormat nbits w) (tableBytes w) s := rfl
    rcases tableFormat_cases nbits w with hf | hf | hf <;> rw [hf] at hplace <;> rw [hplace] <;> rfl
  · cases hword

end Sys2Proof.StreamStops

/-! SUPPORT. The two tables drawn from open choices (log entries 4 and 5), and how long an agent that can move waits for
its turn (log entry 9); with them, the statements O59 and O60. -/

namespace Sys2Proof.OpenChoices

open Sys2Proof.Machine Sys2Proof.Stepping

/-! ## Draws without replacement (R83, R169) -/

theorem drawDistinct_subset (pick : Nat → Nat) (n : Nat) (pool : List Byte) : drawDistinct pick n pool ⊆ pool := by
  induction n generalizing pool with
  | zero => exact List.nil_subset _
  | succ n ih =>
    simp only [drawDistinct]
    split
    · rename_i x hx
      exact List.cons_subset.mpr ⟨List.mem_of_getElem? hx, List.Subset.trans (ih _) List.erase_subset⟩
    · exact List.nil_subset _

theorem drawDistinct_nodup (pick : Nat → Nat) (n : Nat) {pool : List Byte} (h : pool.Nodup) :
    (drawDistinct pick n pool).Nodup := by
  induction n generalizing pool with
  | zero => exact List.nodup_nil
  | succ n ih =>
    simp only [drawDistinct]
    split
    · rename_i x hx
      exact List.nodup_cons.mpr ⟨fun hmem => h.not_mem_erase (drawDistinct_subset pick n _ hmem), ih (h.erase x)⟩
    · exact List.nodup_nil

/-- A pool with enough in it gives every draw. -/
theorem drawDistinct_length (pick : Nat → Nat) {n : Nat} {pool : List Byte} (h : n ≤ pool.length) :
    (drawDistinct pick n pool).length = n := by
  induction n generalizing pool with
  | zero => rfl
  | succ n ih =>
    have hpos : 0 < pool.length := by omega
    have hx := List.getElem?_eq_getElem (Nat.mod_lt (pick n) hpos)
    have herase := List.length_erase_of_mem (List.getElem_mem (Nat.mod_lt (pick n) hpos))
    simp only [drawDistinct, hx, List.length_cons]
    rw [ih (by omega)]

theorem allBytes_nodup : allBytes.Nodup := by
  refine List.nodup_range.map_on fun a ha b hb hab => ?_
  rw [List.mem_range] at ha hb
  have := congrArg BitVec.toNat hab
  simp only [BitVec.toNat_ofNat] at this
  omega

theorem mem_allBytes (b : Byte) : b ∈ allBytes :=
  List.mem_map.mpr ⟨b.toNat, List.mem_range.mpr b.isLt, (BitVec.ofNat_toNat 8 b).trans (BitVec.setWidth_eq b)⟩

theorem allBytes_length : allBytes.length = 256 := by
  rw [allBytes, List.length_map, List.length_range]

/-- The codes neither 0x01 nor 0x22 (R83). -/
abbrev freeCodes : List Byte := (allBytes.erase 0x01).erase 0x22

theorem freeCodes_length : freeCodes.length = 254 := by
  rw [List.length_erase_of_mem ((List.mem_erase_of_ne (by decide)).mpr (mem_allBytes _)),
    List.length_erase_of_mem (mem_allBytes _), allBytes_length]

theorem classCodes_length : classCodes.length = 7 :=
  drawDistinct_length _ (by rw [freeCodes_length]; decide)

theorem classCodes_nodup : classCodes.Nodup := drawDistinct_nodup _ _ ((allBytes_nodup.erase _).erase _)

theorem ne_of_mem_classCodes {code : Byte} (h : code ∈ classCodes) : code ≠ 0x01 ∧ code ≠ 0x22 := by
  have hfree : code ∈ freeCodes := drawDistinct_subset _ _ _ h
  refine ⟨?_, ?_⟩
  · rintro rfl
    exact allBytes_nodup.not_mem_erase (List.mem_of_mem_erase hfree)
  · rintro rfl
    exact (allBytes_nodup.erase _).not_mem_erase hfree

/-- A key found once in a list of pairs gives the value beside it. -/
theorem lookup_zip_getElem {α β : Type} [BEq α] [LawfulBEq α] {keys : List α} {vals : List β} (hnodup : keys.Nodup) {i : Nat}
    (hk : i < keys.length) (hv : i < vals.length) : (keys.zip vals).lookup keys[i] = some vals[i] := by
  induction keys generalizing vals i with
  | nil => cases hk
  | cons k keys ih =>
    obtain ⟨hnew, hrest⟩ := List.nodup_cons.mp hnodup
    cases vals with
    | nil => cases hv
    | cons v vals =>
      cases i with
      | zero => simp
      | succ i =>
        have hk' : i < keys.length := Nat.lt_of_succ_lt_succ hk
        have hne : (keys[i] == k) = false := beq_eq_false_iff_ne.mpr fun h => hnew (h ▸ List.getElem_mem hk')
        simp only [List.getElem_cons_succ, List.zip_cons_cons, List.lookup_cons, hne]
        exact ih hrest hk' (Nat.lt_of_succ_lt_succ hv)

/-- The code drawn for a class has it. -/
theorem cmdTable_classCodes {i : Nat} (hcode : i < classCodes.length) (hclass : i < namedClasses.length) :
    cmdTable classCodes[i] = namedClasses[i] := by
  obtain ⟨hnote, hslide⟩ := ne_of_mem_classCodes (List.getElem_mem hcode)
  rw [cmdTable, if_neg hnote, if_neg hslide, lookup_zip_getElem classCodes_nodup hcode hclass]
  rfl

/-- Settles O59: the draws are distinct and as many as asked for, and none of them is 0x01 or 0x22. -/
theorem openTablesMeetConstraints : Obligations.OpenTablesMeetConstraints := by
  refine ⟨if_pos rfl, ?_, fun cls hcls => ?_, drawDistinct_nodup _ _ allBytes_nodup,
    drawDistinct_length _ (by rw [allBytes_length]; decide)⟩
  · rw [cmdTable, if_neg (by decide), if_pos rfl]
  · obtain ⟨i, hclass, rfl⟩ := List.getElem_of_mem hcls
    exact ⟨_, cmdTable_classCodes (classCodes_length.symm ▸ hclass) hclass⟩

/-! ## Waiting for a turn (D2, R237) -/

/-- What choosing another does to the agenda of an agent that can move: its turn stays, or a new round has one. -/
theorem choose_other {s s1 : State} {a b : Agent} (ha : ready s a = true) (h : choose s = some (b, s1)) (hne : b ≠ a) :
    s1 = { s with agenda := s1.agenda, rounds := s1.rounds } ∧
    (a ∈ s.agenda → a ∈ s1.agenda ∧ s1.agenda.length < s.agenda.length ∧ s1.rounds = s.rounds) ∧
    (a ∉ s.agenda →
      (s1.agenda.length < s.agenda.length ∧ s1.rounds = s.rounds) ∨
      ((∀ c ∈ s.agenda, ready s c = false) ∧ a ∈ s1.agenda ∧
        s1.agenda.length < (fairRound s.rounds).length ∧ s1.rounds = s.rounds + 1)) := by
  rcases choose_cases ha h hne with ⟨t, hturn, rfl⟩ | ⟨hnone, t, hturn, rfl⟩
  · have hlen := length_of_nextTurn hturn
    exact ⟨rfl, fun hmem => ⟨mem_of_nextTurn hturn ha hne hmem, hlen, rfl⟩, fun _ => .inl ⟨hlen, rfl⟩⟩
  · have hused := nextTurn_eq_none hnone
    refine ⟨rfl, fun hmem => ?_, fun _ => .inr ⟨hused, ?_, length_of_nextTurn hturn, rfl⟩⟩
    · rw [hused a hmem] at ha
      cases ha
    · exact mem_of_nextTurn hturn ha hne (mem_fairRound s.rounds a)

/-- How long the agent can still wait `k` steps behind the state `s0`: no new round has been drawn, and the agenda is
shorter by a turn for each step; or the agenda has a turn of its own, and both agendas together are. -/
def Waiting (a : Agent) (s0 : State) (k : Nat) (s : State) : Prop :=
  (s.rounds = s0.rounds ∧ s.agenda.length + k ≤ s0.agenda.length) ∨
  (a ∈ s.agenda ∧ s.agenda.length + k ≤ s0.agenda.length + (fairRound s0.rounds).length)

/-- A step in which the agent could move and did not. -/
theorem Waiting.next {a : Agent} {s0 s t : State} {k : Nat} (h : Waiting a s0 k s) (ha : ready s a = true)
    (hstep : step s = .next t) (hother : ∀ s1, choose s ≠ some (a, s1)) : Waiting a s0 (k + 1) t := by
  cases hchoose : choose s with
  | none =>
    rw [choose_none hchoose a] at ha
    cases ha
  | some p =>
    obtain ⟨b, s1⟩ := p
    have hne : b ≠ a := by
      rintro rfl
      exact hother s1 hchoose
    rw [step_of_choose hchoose] at hstep
    obtain ⟨hagenda, hrounds⟩ := stepAgent_schedule hstep
    obtain ⟨-, hstays, hnew⟩ := choose_other ha hchoose hne
    unfold Waiting at h ⊢
    rw [hagenda, hrounds]
    by_cases hmem : a ∈ s.agenda
    · obtain ⟨hmem', hlen, hsame⟩ := hstays hmem
      rw [hsame]
      refine h.imp (fun ⟨hr, hk⟩ => ⟨hr, by omega⟩) fun ⟨_, hk⟩ => ⟨hmem', by omega⟩
    · obtain ⟨hr, hk⟩ := h.resolve_right fun hturn => hmem hturn.1
      rcases hnew hmem with ⟨hlen, hsame⟩ | ⟨-, hmem', hlen, -⟩
      · exact .inl ⟨hsame.trans hr, by omega⟩
      · rw [hr] at hlen
        exact .inr ⟨hmem', by omega⟩

/-- The turns of the agenda and the next round are all an agent can wait. -/
theorem not_waiting {a : Agent} {s0 s : State} :
    ¬Waiting a s0 (s0.agenda.length + (fairRound s0.rounds).length) s := by
  rintro (⟨-, hk⟩ | ⟨hmem, hk⟩)
  · have hround := List.length_pos_of_mem (mem_fairRound s0.rounds a)
    omega
  · have hagenda := List.length_pos_of_mem hmem
    omega

/-- Settles O60: an agent that is passed over waits one step less, and cannot wait longer than both agendas. -/
theorem readyAgentMovesInTime : Obligations.ReadyAgentMovesInTime := by
  refine ⟨fun s s1 a b ha h hne => choose_other ha h hne,
    fun u b s t hne hstep hbusy hreset => busy_of_stepAgent hne hstep hbusy hreset, fun a run => ?_⟩
  intro n hrun
  by_contra hnever
  have hother (k : Nat) (hk : k < n) (s1 : State) : choose (run k) ≠ some (a, s1) := fun h => hnever ⟨k, s1, hk, h⟩
  have hwaiting (k : Nat) (hk : k ≤ n) : Waiting a (run 0) k (run k) := by
    induction k with
    | zero => exact .inl ⟨rfl, Nat.le_refl _⟩
    | succ k ih =>
      obtain ⟨ha, hstep⟩ := hrun k hk
      exact (ih (Nat.le_of_succ_le hk)).next ha hstep (hother k hk)
  exact not_waiting (hwaiting n (Nat.le_refl n))

end Sys2Proof.OpenChoices
